-- ==== Sys2Proof/Word.lean ====
section
/-! DEFINITION. The hardware's word, byte and register-number types (spec 00_scope.md R10, R12). -/

namespace Sys2Proof

/-- A register value, address or PC value: "an unsigned 32-bit number" (R10, R12). -/
abbrev Word := BitVec 32

/-- A byte: 8 bits (R17). -/
abbrev Byte := BitVec 8

/-- A general register's index: "a 5-bit number" (R30). -/
abbrev RegIdx := BitVec 5

end Sys2Proof
end

