-- ==== Sys2Proof/Config.lean ====
section
/-! DEFINITION. The parameters and fixed values of the block (spec 00_scope.md R10): what is chosen before
construction (`Config`), what the host's loop is given (`HostParams`), and the fixed addresses of the device
register window. Nothing here is left without a value: the spec's open points are parameters, refusals or its own decisions
(spec 93_implementation_defined.md), so this model needs no free value. -/

namespace Sys2Proof

/-- The configuration of a machine, fixed for a run (R10, R49, D9): the RAM size in MiB, a natural number from
1 to 4096, default 16. -/
structure Config where
  memSizeMib : Nat := 16
deriving DecidableEq, Repr

/-- MEM_SIZE = MEM_SIZE_MIB × 2^20 bytes (R10), and 2^20 is 1048576. -/
def Config.memSize (c : Config) : Nat := c.memSizeMib * 1048576

/-- The range the spec gives MEM_SIZE_MIB (R10, D9). -/
abbrev Config.legal (c : Config) : Prop := 1 ≤ c.memSizeMib ∧ c.memSizeMib ≤ 4096

/-- DEV_BASE (R10): the first address of the device register window. -/
abbrev devBase : Word := 0x1000_0000#32

/-- The first address past the device register window: DEV_BASE + DEV_SIZE (R10, R61). -/
abbrev devEnd : Word := 0x1000_0100#32

/-- TX_ADDR (R10, R44): the transmit register. -/
abbrev txAddr : Word := 0x1000_0000#32

/-- STATUS_ADDR (R10, R44): the status register. -/
abbrev statusAddr : Word := 0x1000_0004#32

/-- STATUS_VALUE (R10, R44): what the status register always reads, "always ready". -/
abbrev statusValue : Byte := 1#8

/-- Which program-header address field the ELF loader uses: the OPEN parameter LOADER_ELF_ADDR_FIELD (R10, R341, D17). -/
inductive ElfAddrField where
  | pPaddr
  | pVaddr
deriving DecidableEq, Repr

/-- The host's parameters (R10, R347, R349), with the defaults R10 gives. `elfAddrField` is OPEN and the spec gives it no
default, so it has none here (D17). `trace` is the trace-each-instruction toggle, which changes no state (R316, D13). -/
structure HostParams where
  maxSteps : Nat := 10000000
  /-- PC_OVERRIDE: 0 means "no override" (R10, R343). -/
  pcOverride : Word := 0#32
  elfAddrField : ElfAddrField
  trace : Bool := false
deriving DecidableEq, Repr

end Sys2Proof
end

