-- ==== Sys2Proof/Syntax.lean ====
section
/-! DEFINITION. The instructions: one constructor per row of spec/opcode_table.json, the 33 instructions of
00_scope.md R7 and the table's eight catch-all rows (30_encoding.md R117 to R120), which hold the whole word because a
decode anomaly records it. -/

namespace Sys2Proof

/-- What a step executes. `rd`, `rs1`, `rs2` are 5-bit register numbers (R101). An immediate is the field's own width,
before extension to 32 bits: 12 bits for I and S (R108, R109), 13 bits with bit 0 zero for B (R110), `w[31:12]` for U
(R111), 21 bits with bit 0 zero for J (R112), and 5 bits for a shift amount (R113). -/
inductive Instr where
  -- 41_upper_and_jumps.md
  | lui (rd : RegIdx) (imm : BitVec 20)
  | auipc (rd : RegIdx) (imm : BitVec 20)
  | jal (rd : RegIdx) (off : BitVec 21)
  | jalr (rd rs1 : RegIdx) (imm : BitVec 12)
  -- 42_branches.md
  | beq (rs1 rs2 : RegIdx) (off : BitVec 13)
  | bne (rs1 rs2 : RegIdx) (off : BitVec 13)
  | blt (rs1 rs2 : RegIdx) (off : BitVec 13)
  | bge (rs1 rs2 : RegIdx) (off : BitVec 13)
  | bltu (rs1 rs2 : RegIdx) (off : BitVec 13)
  | bgeu (rs1 rs2 : RegIdx) (off : BitVec 13)
  -- 43_loads_stores.md
  | lb (rd rs1 : RegIdx) (imm : BitVec 12)
  | lbu (rd rs1 : RegIdx) (imm : BitVec 12)
  | lw (rd rs1 : RegIdx) (imm : BitVec 12)
  | sb (rs1 rs2 : RegIdx) (imm : BitVec 12)
  | sw (rs1 rs2 : RegIdx) (imm : BitVec 12)
  -- 44_op_imm.md
  | addi (rd rs1 : RegIdx) (imm : BitVec 12)
  | xori (rd rs1 : RegIdx) (imm : BitVec 12)
  | ori (rd rs1 : RegIdx) (imm : BitVec 12)
  | andi (rd rs1 : RegIdx) (imm : BitVec 12)
  | slli (rd rs1 : RegIdx) (shamt : BitVec 5)
  | srli (rd rs1 : RegIdx) (shamt : BitVec 5)
  | srai (rd rs1 : RegIdx) (shamt : BitVec 5)
  -- 45_op.md
  | add (rd rs1 rs2 : RegIdx)
  | sub (rd rs1 rs2 : RegIdx)
  | sll (rd rs1 rs2 : RegIdx)
  | slt (rd rs1 rs2 : RegIdx)
  | sltu (rd rs1 rs2 : RegIdx)
  | xor (rd rs1 rs2 : RegIdx)
  | srl (rd rs1 rs2 : RegIdx)
  | sra (rd rs1 rs2 : RegIdx)
  | or (rd rs1 rs2 : RegIdx)
  | and (rd rs1 rs2 : RegIdx)
  -- 46_system_and_anomalies.md
  | ecall
  /-- A JALR-opcode word with funct3 ≠ 000: unsettled U1 (R120). -/
  | otherJalr (w : Word)
  /-- A BRANCH-opcode word with an excluded funct3: UnknownFunct (R119). -/
  | otherBranch (w : Word)
  /-- A LOAD-opcode word with an excluded funct3: UnknownFunct (R119). -/
  | otherLoad (w : Word)
  /-- A STORE-opcode word with an excluded funct3: UnknownFunct (R119). -/
  | otherStore (w : Word)
  /-- An OP-IMM-opcode word that is none of the seven: unsettled U2, U3 or U4 (R120). -/
  | otherOpImm (w : Word)
  /-- An OP-opcode word that is none of the ten: unsettled U5 or U6 (R120). -/
  | otherOp (w : Word)
  /-- A SYSTEM-opcode word other than ECALL: unsettled U7 (R120). -/
  | otherSystem (w : Word)
  /-- A word whose opcode is none of the ten recognized: UnknownOpcode (R118). -/
  | anyOtherOpcode (w : Word)
deriving DecidableEq, Repr

end Sys2Proof
end

