-- ==== Sys2Proof/WellFormed.lean ====
section
/-! DEFINITION. Which terms of `Instr` stand for an instruction word: a branch or jump offset has bit 0 zero (R110, R112), and
a catch-all term holds a word of its own row (R118 to R120). Written from the tables of 30_encoding.md, not from the
decoder. -/

namespace Sys2Proof

/-- The ten recognized major opcodes (R115). -/
def recognizedOpcodes : List (BitVec 7) :=
  [0x37#7, 0x17#7, 0x6F#7, 0x67#7, 0x63#7, 0x03#7, 0x23#7, 0x13#7, 0x33#7, 0x73#7]

/-- The `(funct7, funct3)` pairs of the ten register-register operations (R116). -/
def opSelections : List (BitVec 7 × BitVec 3) :=
  [(0x00#7, 0#3), (0x20#7, 0#3), (0x00#7, 1#3), (0x00#7, 2#3), (0x00#7, 3#3), (0x00#7, 4#3), (0x00#7, 5#3),
   (0x20#7, 5#3), (0x00#7, 6#3), (0x00#7, 7#3)]

/-- The check of one term. -/
def Instr.wf : Instr → Bool
  | .jal _ off => off.extractLsb' 0 1 == 0#1
  | .beq _ _ off | .bne _ _ off | .blt _ _ off | .bge _ _ off | .bltu _ _ off | .bgeu _ _ off =>
    off.extractLsb' 0 1 == 0#1
  | .otherJalr w => w.extractLsb' 0 7 == 0x67#7 && w.extractLsb' 12 3 != 0#3
  | .otherBranch w => w.extractLsb' 0 7 == 0x63#7 && [2#3, 3#3].contains (w.extractLsb' 12 3)
  | .otherLoad w => w.extractLsb' 0 7 == 0x03#7 && [1#3, 3#3, 5#3, 6#3, 7#3].contains (w.extractLsb' 12 3)
  | .otherStore w => w.extractLsb' 0 7 == 0x23#7 && [1#3, 3#3, 4#3, 5#3, 6#3, 7#3].contains (w.extractLsb' 12 3)
  | .otherOpImm w =>
    w.extractLsb' 0 7 == 0x13#7 &&
      ([2#3, 3#3].contains (w.extractLsb' 12 3)
        || (w.extractLsb' 12 3 == 1#3 && w.extractLsb' 25 7 != 0x00#7)
        || (w.extractLsb' 12 3 == 5#3 && w.extractLsb' 25 7 != 0x00#7 && w.extractLsb' 25 7 != 0x20#7))
  | .otherOp w => w.extractLsb' 0 7 == 0x33#7 && !opSelections.contains (w.extractLsb' 25 7, w.extractLsb' 12 3)
  | .otherSystem w => w.extractLsb' 0 7 == 0x73#7 && w != 0x0000_0073#32
  | .anyOtherOpcode w => !recognizedOpcodes.contains (w.extractLsb' 0 7)
  | .lui _ _ | .auipc _ _ | .jalr _ _ _ | .lb _ _ _ | .lbu _ _ _ | .lw _ _ _ | .sb _ _ _ | .sw _ _ _
  | .addi _ _ _ | .xori _ _ _ | .ori _ _ _ | .andi _ _ _ | .slli _ _ _ | .srli _ _ _ | .srai _ _ _
  | .add _ _ _ | .sub _ _ _ | .sll _ _ _ | .slt _ _ _ | .sltu _ _ _ | .xor _ _ _ | .srl _ _ _ | .sra _ _ _
  | .or _ _ _ | .and _ _ _ | .ecall => true

end Sys2Proof
end

