-- ==== Sys2Proof/Decode.lean ====
section
/-! DEFINITION. Bits to instructions and back (spec 30_encoding.md): the fields and immediates, `decode`, total on
words as R117 says, its form over bytes, and `encode`, written from the format tables R102 to R107. -/

namespace Sys2Proof

/-! ## Fields (R101) -/

def opcodeOf (w : Word) : BitVec 7 := w.extractLsb' 0 7
def rdOf (w : Word) : RegIdx := w.extractLsb' 7 5
def funct3Of (w : Word) : BitVec 3 := w.extractLsb' 12 3
def rs1Of (w : Word) : RegIdx := w.extractLsb' 15 5
def rs2Of (w : Word) : RegIdx := w.extractLsb' 20 5
def funct7Of (w : Word) : BitVec 7 := w.extractLsb' 25 7

/-! ## Immediate fields (R108 to R113), before extension to 32 bits -/

/-- `w[31:20]` (R108). -/
def immIOf (w : Word) : BitVec 12 := w.extractLsb' 20 12

/-- `{w[31:25], w[11:7]}` (R109). -/
def immSOf (w : Word) : BitVec 12 := w.extractLsb' 25 7 ++ w.extractLsb' 7 5

/-- `{w[31], w[7], w[30:25], w[11:8], 0b0}` (R110). -/
def immBOf (w : Word) : BitVec 13 :=
  w.extractLsb' 31 1 ++ w.extractLsb' 7 1 ++ w.extractLsb' 25 6 ++ w.extractLsb' 8 4 ++ 0#1

/-- `w[31:12]`, the upper 20 bits of the U immediate (R111). -/
def immUOf (w : Word) : BitVec 20 := w.extractLsb' 12 20

/-- `{w[31], w[19:12], w[20], w[30:21], 0b0}` (R112). -/
def immJOf (w : Word) : BitVec 21 :=
  w.extractLsb' 31 1 ++ w.extractLsb' 12 8 ++ w.extractLsb' 20 1 ++ w.extractLsb' 21 10 ++ 0#1

/-- `w[24:20]` (R113). -/
def shamtOf (w : Word) : BitVec 5 := w.extractLsb' 20 5

/-! ## Decode (R117) -/

/-- The six comparisons of opcode BRANCH; funct3 010 and 011 are excluded (R116, R119). -/
def decodeBranch (w : Word) : Instr :=
  if funct3Of w = 0#3 then .beq (rs1Of w) (rs2Of w) (immBOf w)
  else if funct3Of w = 1#3 then .bne (rs1Of w) (rs2Of w) (immBOf w)
  else if funct3Of w = 4#3 then .blt (rs1Of w) (rs2Of w) (immBOf w)
  else if funct3Of w = 5#3 then .bge (rs1Of w) (rs2Of w) (immBOf w)
  else if funct3Of w = 6#3 then .bltu (rs1Of w) (rs2Of w) (immBOf w)
  else if funct3Of w = 7#3 then .bgeu (rs1Of w) (rs2Of w) (immBOf w)
  else .otherBranch w

/-- The three loads of opcode LOAD (R116, R119). -/
def decodeLoad (w : Word) : Instr :=
  if funct3Of w = 0#3 then .lb (rdOf w) (rs1Of w) (immIOf w)
  else if funct3Of w = 2#3 then .lw (rdOf w) (rs1Of w) (immIOf w)
  else if funct3Of w = 4#3 then .lbu (rdOf w) (rs1Of w) (immIOf w)
  else .otherLoad w

/-- The two stores of opcode STORE (R116, R119). -/
def decodeStore (w : Word) : Instr :=
  if funct3Of w = 0#3 then .sb (rs1Of w) (rs2Of w) (immSOf w)
  else if funct3Of w = 2#3 then .sw (rs1Of w) (rs2Of w) (immSOf w)
  else .otherStore w

/-- The seven operations of opcode OP-IMM; the shifts check `w[31:25]` (R116, R120). -/
def decodeOpImm (w : Word) : Instr :=
  if funct3Of w = 0#3 then .addi (rdOf w) (rs1Of w) (immIOf w)
  else if funct3Of w = 4#3 then .xori (rdOf w) (rs1Of w) (immIOf w)
  else if funct3Of w = 6#3 then .ori (rdOf w) (rs1Of w) (immIOf w)
  else if funct3Of w = 7#3 then .andi (rdOf w) (rs1Of w) (immIOf w)
  else if funct3Of w = 1#3 ∧ funct7Of w = 0x00#7 then .slli (rdOf w) (rs1Of w) (shamtOf w)
  else if funct3Of w = 5#3 ∧ funct7Of w = 0x00#7 then .srli (rdOf w) (rs1Of w) (shamtOf w)
  else if funct3Of w = 5#3 ∧ funct7Of w = 0x20#7 then .srai (rdOf w) (rs1Of w) (shamtOf w)
  else .otherOpImm w

/-- The ten operations of opcode OP, selected by funct7 and funct3 (R116, R120). -/
def decodeOp (w : Word) : Instr :=
  if funct7Of w = 0x00#7 then
    if funct3Of w = 0#3 then .add (rdOf w) (rs1Of w) (rs2Of w)
    else if funct3Of w = 1#3 then .sll (rdOf w) (rs1Of w) (rs2Of w)
    else if funct3Of w = 2#3 then .slt (rdOf w) (rs1Of w) (rs2Of w)
    else if funct3Of w = 3#3 then .sltu (rdOf w) (rs1Of w) (rs2Of w)
    else if funct3Of w = 4#3 then .xor (rdOf w) (rs1Of w) (rs2Of w)
    else if funct3Of w = 5#3 then .srl (rdOf w) (rs1Of w) (rs2Of w)
    else if funct3Of w = 6#3 then .or (rdOf w) (rs1Of w) (rs2Of w)
    else .and (rdOf w) (rs1Of w) (rs2Of w)
  else if funct7Of w = 0x20#7 ∧ funct3Of w = 0#3 then .sub (rdOf w) (rs1Of w) (rs2Of w)
  else if funct7Of w = 0x20#7 ∧ funct3Of w = 5#3 then .sra (rdOf w) (rs1Of w) (rs2Of w)
  else .otherOp w

/-- `Decode(w)` of R117: total, one instruction per word, by opcode and then where needed by funct3 and funct7. -/
def decode (w : Word) : Instr :=
  if opcodeOf w = 0x37#7 then .lui (rdOf w) (immUOf w)
  else if opcodeOf w = 0x17#7 then .auipc (rdOf w) (immUOf w)
  else if opcodeOf w = 0x6F#7 then .jal (rdOf w) (immJOf w)
  else if opcodeOf w = 0x67#7 then
    if funct3Of w = 0#3 then .jalr (rdOf w) (rs1Of w) (immIOf w) else .otherJalr w
  else if opcodeOf w = 0x63#7 then decodeBranch w
  else if opcodeOf w = 0x03#7 then decodeLoad w
  else if opcodeOf w = 0x23#7 then decodeStore w
  else if opcodeOf w = 0x13#7 then decodeOpImm w
  else if opcodeOf w = 0x33#7 then decodeOp w
  else if opcodeOf w = 0x73#7 then
    if w = 0x0000_0073#32 then .ecall else .otherSystem w
  else .anyOtherOpcode w

/-! ## Words and bytes (R67, R72) -/

/-- `v[8k+7:8k]`, the byte a word keeps at its address plus `k` (R68, R72). -/
def byteOf (v : Word) (k : Nat) : Byte := v.extractLsb' (8 * k) 8

/-- `{b3, b2, b1, b0}`: little-endian assembly, `b0` in bits 7:0 (R67). -/
def wordOfBytes (b0 b1 b2 b3 : Byte) : Word := b3 ++ b2 ++ b1 ++ b0

/-- Why bytes cannot be decoded. Every 32-bit word decodes (R117), so the one reason is that a word is not all there. -/
inductive DecodeError where
  /-- Fewer than the four bytes every instruction has (R100). Raised by `decodeBytes` only. -/
  | truncated
deriving DecidableEq, Repr

/-- The instruction at the head of a byte list, and the bytes after it. -/
def decodeBytes : List Byte → Except DecodeError (Instr × List Byte)
  | b0 :: b1 :: b2 :: b3 :: rest => .ok (decode (wordOfBytes b0 b1 b2 b3), rest)
  | _ => .error .truncated

/-- The bytes of a word in the order memory keeps them: the low byte first (R72). -/
def bytesOfWord (v : Word) : List Byte := [byteOf v 0, byteOf v 1, byteOf v 2, byteOf v 3]

/-- What the decoder reads from a table row's word `w`, numbered as spec/opcode_table.json numbers it: the bits above
`nbits` are zero and the bytes are laid out little-endian (R72, R100). -/
def decodeTableWord (nbits w : Nat) : Option Instr :=
  match decodeBytes (bytesOfWord (BitVec.ofNat 32 (w % 2 ^ nbits))) with
  | .ok (i, _) => some i
  | .error _ => none

/-! ## Encode (R102 to R107, R116) -/

/-- R-type (R102). -/
def encodeR (funct7 : BitVec 7) (rs2 rs1 : RegIdx) (funct3 : BitVec 3) (rd : RegIdx) (opcode : BitVec 7) : Word :=
  funct7 ++ rs2 ++ rs1 ++ funct3 ++ rd ++ opcode

/-- I-type (R103). -/
def encodeI (imm : BitVec 12) (rs1 : RegIdx) (funct3 : BitVec 3) (rd : RegIdx) (opcode : BitVec 7) : Word :=
  imm ++ rs1 ++ funct3 ++ rd ++ opcode

/-- S-type (R104). -/
def encodeS (imm : BitVec 12) (rs2 rs1 : RegIdx) (funct3 : BitVec 3) (opcode : BitVec 7) : Word :=
  imm.extractLsb' 5 7 ++ rs2 ++ rs1 ++ funct3 ++ imm.extractLsb' 0 5 ++ opcode

/-- B-type (R105). -/
def encodeB (imm : BitVec 13) (rs2 rs1 : RegIdx) (funct3 : BitVec 3) (opcode : BitVec 7) : Word :=
  imm.extractLsb' 12 1 ++ imm.extractLsb' 5 6 ++ rs2 ++ rs1 ++ funct3 ++ imm.extractLsb' 1 4 ++ imm.extractLsb' 11 1
    ++ opcode

/-- U-type (R106). -/
def encodeU (imm : BitVec 20) (rd : RegIdx) (opcode : BitVec 7) : Word := imm ++ rd ++ opcode

/-- J-type (R107). -/
def encodeJ (imm : BitVec 21) (rd : RegIdx) (opcode : BitVec 7) : Word :=
  imm.extractLsb' 20 1 ++ imm.extractLsb' 1 10 ++ imm.extractLsb' 11 1 ++ imm.extractLsb' 12 8 ++ rd ++ opcode

/-- The word of a well-formed instruction. -/
def encode : Instr → Word
  | .lui rd imm => encodeU imm rd 0x37#7
  | .auipc rd imm => encodeU imm rd 0x17#7
  | .jal rd off => encodeJ off rd 0x6F#7
  | .jalr rd rs1 imm => encodeI imm rs1 0#3 rd 0x67#7
  | .beq rs1 rs2 off => encodeB off rs2 rs1 0#3 0x63#7
  | .bne rs1 rs2 off => encodeB off rs2 rs1 1#3 0x63#7
  | .blt rs1 rs2 off => encodeB off rs2 rs1 4#3 0x63#7
  | .bge rs1 rs2 off => encodeB off rs2 rs1 5#3 0x63#7
  | .bltu rs1 rs2 off => encodeB off rs2 rs1 6#3 0x63#7
  | .bgeu rs1 rs2 off => encodeB off rs2 rs1 7#3 0x63#7
  | .lb rd rs1 imm => encodeI imm rs1 0#3 rd 0x03#7
  | .lbu rd rs1 imm => encodeI imm rs1 4#3 rd 0x03#7
  | .lw rd rs1 imm => encodeI imm rs1 2#3 rd 0x03#7
  | .sb rs1 rs2 imm => encodeS imm rs2 rs1 0#3 0x23#7
  | .sw rs1 rs2 imm => encodeS imm rs2 rs1 2#3 0x23#7
  | .addi rd rs1 imm => encodeI imm rs1 0#3 rd 0x13#7
  | .xori rd rs1 imm => encodeI imm rs1 4#3 rd 0x13#7
  | .ori rd rs1 imm => encodeI imm rs1 6#3 rd 0x13#7
  | .andi rd rs1 imm => encodeI imm rs1 7#3 rd 0x13#7
  | .slli rd rs1 shamt => encodeR 0x00#7 shamt rs1 1#3 rd 0x13#7
  | .srli rd rs1 shamt => encodeR 0x00#7 shamt rs1 5#3 rd 0x13#7
  | .srai rd rs1 shamt => encodeR 0x20#7 shamt rs1 5#3 rd 0x13#7
  | .add rd rs1 rs2 => encodeR 0x00#7 rs2 rs1 0#3 rd 0x33#7
  | .sub rd rs1 rs2 => encodeR 0x20#7 rs2 rs1 0#3 rd 0x33#7
  | .sll rd rs1 rs2 => encodeR 0x00#7 rs2 rs1 1#3 rd 0x33#7
  | .slt rd rs1 rs2 => encodeR 0x00#7 rs2 rs1 2#3 rd 0x33#7
  | .sltu rd rs1 rs2 => encodeR 0x00#7 rs2 rs1 3#3 rd 0x33#7
  | .xor rd rs1 rs2 => encodeR 0x00#7 rs2 rs1 4#3 rd 0x33#7
  | .srl rd rs1 rs2 => encodeR 0x00#7 rs2 rs1 5#3 rd 0x33#7
  | .sra rd rs1 rs2 => encodeR 0x20#7 rs2 rs1 5#3 rd 0x33#7
  | .or rd rs1 rs2 => encodeR 0x00#7 rs2 rs1 6#3 rd 0x33#7
  | .and rd rs1 rs2 => encodeR 0x00#7 rs2 rs1 7#3 rd 0x33#7
  | .ecall => 0x0000_0073#32
  | .otherJalr w => w
  | .otherBranch w => w
  | .otherLoad w => w
  | .otherStore w => w
  | .otherOpImm w => w
  | .otherOp w => w
  | .otherSystem w => w
  | .anyOtherOpcode w => w

/-- The bytes of an instruction as memory keeps them (R72, R100). -/
def encodeBytes (i : Instr) : List Byte := bytesOfWord (encode i)

end Sys2Proof
end

