-- ==== Sys2Proof/Machine/State.lean ====
section
/-! DEFINITION. The machine's state as plain data (spec 10_state.md), its value at construction, and the reasons a step
or a load can stop. -/

namespace Sys2Proof.Machine

/-- The kinds of AddressFault (R42, R301). -/
inductive FaultKind where
  | fetchFault
  | loadFault
  | storeFault
deriving DecidableEq, Repr

/-- A fault record: the kind, the address of the instruction that faulted, and the address of the access (R42). -/
structure FaultRecord where
  kind : FaultKind
  pc   : Word
  addr : Word
deriving DecidableEq, Repr

/-- The run state (R41). Both halted values are absorbing (R152). -/
inductive RunState where
  | running
  | haltedClean
  | haltedFault (f : FaultRecord)
deriving DecidableEq, Repr

/-- The kinds of DecodeAnomaly (R46, R301). -/
inductive AnomalyKind where
  | unknownOpcode
  | unknownFunct
deriving DecidableEq, Repr

/-- A diagnostic event: the anomaly's kind, the address of the skipped word, and the word (R46). -/
structure DiagEvent where
  kind : AnomalyKind
  pc   : Word
  word : Word
deriving DecidableEq, Repr

/-- The seven groups of unsettled encodings (R120). -/
inductive Unsettled where
  | u1 | u2 | u3 | u4 | u5 | u6 | u7
deriving DecidableEq, Repr

/-- RAM as a list of address and byte pairs in canonical form (`Memory.wf`). -/
abbrev Memory := List Host.Cell

/-- What an unlisted address of RAM reads as: memory is "zero-initialized" (R43, R48). -/
abbrev unlistedByte : Byte := 0#8

/-- The canonical form: addresses strictly rising, and no entry equal to what an unlisted address reads as. -/
abbrev Memory.wf (m : Memory) : Prop :=
  m.Pairwise (fun c d => c.1 < d.1) ∧ ∀ c ∈ m, c.2 ≠ unlistedByte

/-- The whole machine. `regs` holds the 32 slots of R30; slot 0 is reached by no accessor (R31). `config` is the fixed
configuration, not architectural state (R49), and stands here because the step takes no other argument. -/
structure State where
  regs   : Vector Word 32
  pc     : Word
  run    : RunState
  mem    : Memory
  tx     : List Byte
  diag   : List DiagEvent
  config : Config
deriving DecidableEq, Repr

/-- The machine as constructed with configuration `c`, before the loader runs (R48, R340). -/
def State.construct (c : Config) : State where
  regs := Vector.replicate 32 0#32
  pc := 0#32
  run := .running
  mem := []
  tx := []
  diag := []
  config := c

/-- The machine right after reset: construction at the default MEM_SIZE_MIB of 16 (R10, R48, R340). -/
def State.reset : State := State.construct {}

/-- The invariant of every state a run reaches: slot 0 of the register file holds 0 (R31), memory is canonical and lists
RAM addresses only (R43, R64), and the configuration is one the spec allows (R10). -/
abbrev State.wf (s : State) : Prop :=
  s.regs[0] = 0#32 ∧ s.mem.wf ∧ (∀ c ∈ s.mem, c.1 < s.config.memSize) ∧ s.config.legal

/-- Why the machine cannot be started. The three AddressFaults of the hardware are not here: the spec gives their whole
effect, so they are next states with the run state `haltedFault` (R302 to R304). -/
inductive Fault where
  /-- Raised by `boot` alone, when the image is malformed or unreadable or a byte of it would land outside memory
  (R342): "fatal before execution begins". Safe: no state is exposed. -/
  | loadFailure
deriving DecidableEq, Repr

/-- Why the model gives a case no meaning (R160), each by a name of its own. -/
inductive Refusal where
  /-- Raised by `exec` for an instruction that has no meaning yet. Safe. -/
  | notModelled (mnemonic : String)
  /-- Raised by `step` when the PC is not a multiple of 4 (R153, D5). Safe: nothing is claimed. -/
  | misalignedFetch
  /-- Raised by JALR when bit 0 of its target is 1 (R173, D4). Safe: nothing is claimed. -/
  | jalrOddTarget
  /-- Raised by the catch-all meanings for the words of R120 (R273, D2). Safe: nothing is claimed. -/
  | unsettled (u : Unsettled)
  /-- Raised by `boot` for an ELF image whose PT_LOAD segments overlap (R341, D20). Safe: no run is given a meaning. -/
  | overlappingSegments
deriving DecidableEq, Repr

/-- What a step, a meaning or a load answers. -/
abbrev Result := Host.Outcome State Fault Refusal

/-- How a store went, and the state it left: on `outOfRange` the bytes before the failing byte are written (R68). -/
inductive WriteResult where
  | ok (s : State)
  | outOfRange (s : State)
deriving DecidableEq, Repr

end Sys2Proof.Machine
end

