-- ==== Sys2Proof/Machine/Ops.lean ====
section
/-! DEFINITION. The named operations over memory, the router, the registers and the PC (spec 20_memory.md, 40_step.md), and
the ways a step ends (60_exceptions.md). -/

namespace Sys2Proof.Machine

/-! ## The byte array (R43) -/

/-- The byte at an address of the array, whatever its bounds. -/
def Memory.read : Memory → Nat → Byte
  | [], _ => unlistedByte
  | c :: m, a => if c.1 = a then c.2 else Memory.read m a

/-- The array with no entry at `a`. -/
def Memory.erase (m : Memory) (a : Nat) : Memory := m.filter (fun c => c.1 != a)

/-- The array with the entry `(a, b)` put before the first higher address. -/
def Memory.insert : Memory → Nat → Byte → Memory
  | [], a, b => [(a, b)]
  | c :: m, a, b => if a < c.1 then (a, b) :: c :: m else c :: Memory.insert m a b

/-- `mem[a] <- b`, keeping the canonical form: a byte equal to the unlisted byte removes the entry. -/
def Memory.write (m : Memory) (a : Nat) (b : Byte) : Memory :=
  if b = unlistedByte then m.erase a else (m.erase a).insert a b

/-- The array with consecutive bytes written from `a` up. -/
def Memory.writeList (m : Memory) (a : Nat) : List Byte → Memory
  | [] => m
  | b :: bs => Memory.writeList (m.write a b) (a + 1) bs

/-- The memory leaf's bulk load for an array of `size` bytes: it "either succeeds in full or touches nothing"
(R71). -/
def Memory.loadBytes (m : Memory) (size base : Nat) (bytes : List Byte) : Option Memory :=
  if bytes = [] ∨ base + bytes.length ≤ size then some (m.writeList base bytes) else none

/-! ## The memory leaf (R64, R70) -/

/-- `MemoryReadByte(a)` (R64); `none` is OutOfRange. -/
def memoryReadByte (a : Word) (s : State) : Option Byte :=
  if a.toNat < s.config.memSize then some (s.mem.read a.toNat) else none

/-- `MemoryWriteByte(a, b)` (R64). -/
def memoryWriteByte (a : Word) (b : Byte) (s : State) : WriteResult :=
  if a.toNat < s.config.memSize then .ok { s with mem := s.mem.write a.toNat b } else .outOfRange s

/-! ## The router (R61, R65 to R68) -/

/-- The address is in the device register window, 0x1000_0000 to 0x1000_00FF (R61). -/
def inWindow (a : Word) : Bool := devBase.ule a && a.ult devEnd

/-- What the device window reads at an address of it: 1 at the status register, 0 elsewhere (R44, R65). -/
def windowByte (a : Word) : Byte := if a = statusAddr then statusValue else 0#8

/-- One transmit event: the byte is appended to `tx` (R45). -/
def transmit (b : Byte) (s : State) : State := { s with tx := s.tx ++ [b] }

/-- `RouterReadByte(a)` (R65); `none` is OutOfRange. -/
def routerReadByte (a : Word) (s : State) : Option Byte :=
  if inWindow a then some (windowByte a) else memoryReadByte a s

/-- `RouterWriteByte(a, b)` (R66). -/
def routerWriteByte (a : Word) (b : Byte) (s : State) : WriteResult :=
  if a = txAddr then .ok (transmit b s)
  else if inWindow a then .ok s
  else memoryWriteByte a b s

/-- Four byte reads at `u32(a + k)`, little-endian, failing if any fails: the shape of R67 and R70. -/
def readWordBy (readByte : Word → State → Option Byte) (a : Word) (s : State) : Option Word :=
  match readByte a s, readByte (a + 1#32) s, readByte (a + 2#32) s, readByte (a + 3#32) s with
  | some b0, some b1, some b2, some b3 => some (wordOfBytes b0 b1 b2 b3)
  | _, _, _, _ => none

/-- Byte writes in list order, stopping at the first OutOfRange and keeping the bytes before it (R68). -/
def writeBytesBy (writeByte : Word → Byte → State → WriteResult) : List (Word × Byte) → State → WriteResult
  | [], s => .ok s
  | (a, b) :: rest, s =>
    match writeByte a b s with
    | .ok t => writeBytesBy writeByte rest t
    | .outOfRange t => .outOfRange t

/-- The four byte writes of a word at `a`, in ascending order of `k`, at `u32(a + k)` (R68). -/
def wordCells (a v : Word) : List (Word × Byte) :=
  [(a, byteOf v 0), (a + 1#32, byteOf v 1), (a + 2#32, byteOf v 2), (a + 3#32, byteOf v 3)]

/-- `RouterReadWord(a)` (R67). -/
def routerReadWord (a : Word) (s : State) : Option Word := readWordBy routerReadByte a s

/-- `RouterWriteWord(a, v)`: one transmitted byte at exactly the transmit register, else byte by byte (R68). -/
def routerWriteWord (a v : Word) (s : State) : WriteResult :=
  if a = txAddr then .ok (transmit (byteOf v 0) s) else writeBytesBy routerWriteByte (wordCells a v) s

/-- The memory leaf's own word read (R70), which no engine access uses. -/
def memoryReadWord (a : Word) (s : State) : Option Word := readWordBy memoryReadByte a s

/-- The memory leaf's own word write (R70), which no engine access uses. DEDUCED (log 7): like the router's, it goes up
from the low byte and stops at the first OutOfRange. -/
def memoryWriteWord (a v : Word) (s : State) : WriteResult := writeBytesBy memoryWriteByte (wordCells a v) s

/-! ## Registers and PC (R31, R36 to R38) -/

/-- `x[i]`: slot 0 always reads as zero (R31). -/
def State.reg (s : State) (i : RegIdx) : Word := if i = 0#5 then 0#32 else s.regs[i.toNat]

/-- `x[i] <- v` through the gate that discards writes to register 0 (R31, R158). -/
def State.setReg (s : State) (i : RegIdx) (v : Word) : State :=
  if i = 0#5 then s else { s with regs := s.regs.set i.toNat v }

/-- The default next PC, `u32(pc + 4)` (R38, R157). -/
def State.pcNext (s : State) : Word := s.pc + 4#32

/-- `pc <- npc` (R159). -/
def State.setPc (s : State) (npc : Word) : State := { s with pc := npc }

/-! ## How a step ends (R15, R159, R301) -/

/-- `npc` stays `pc + 4` and nothing else is left to do. -/
def advance (s : State) : Result := .next (s.setPc s.pcNext)

/-- `npc <- t` (R159). -/
def jumpTo (t : Word) (s : State) : Result := .next (s.setPc t)

/-- `x[rd] <- v`, and `npc` stays `pc + 4` (R158, R159). -/
def writeBack (rd : RegIdx) (v : Word) (s : State) : Result := advance (s.setReg rd v)

/-- `x[rd] <- v; npc <- t`: the link and the target of JAL and JALR (R172, R173). -/
def linkAndJump (rd : RegIdx) (t : Word) (s : State) : Result := jumpTo t (s.setReg rd s.pcNext)

/-- `raise Fault(kind, addr)`: the run state records the kind, the instruction's address and the access's address; no
register or PC changes (R15, R302 to R304). This is the hardware's whole exception entry (R309); there is no return from
it (R310). -/
def raiseFault (kind : FaultKind) (addr : Word) (s : State) : Result :=
  .next { s with run := .haltedFault ⟨kind, s.pc, addr⟩ }

/-- `halt`: the run state becomes `Halted(Clean)` and the PC is not advanced (R15, R270). -/
def haltClean (s : State) : Result := .next { s with run := .haltedClean }

/-- `anomaly(kind)`: one diagnostic event, and `npc = pc + 4` (R15, R271, R272). -/
def anomaly (kind : AnomalyKind) (w : Word) (s : State) : Result :=
  advance { s with diag := s.diag ++ [⟨kind, s.pc, w⟩] }

/-- `refuse(reason)`: the model gives the case no meaning (R15, R160). -/
def refuse (reason : Refusal) (_s : State) : Result := .refused reason

/-- The end of a load: LoadFault with no register written, or the value written to `rd` (R210, R303). -/
def finishLoad (rd : RegIdx) (ea : Word) (value : Option Word) (s : State) : Result :=
  match value with
  | some v => writeBack rd v s
  | none => raiseFault .loadFault ea s

/-- The end of a store: StoreFault with the bytes already written kept, or the next instruction (R210, R304). -/
def finishStore (ea : Word) (r : WriteResult) : Result :=
  match r with
  | .ok t => advance t
  | .outOfRange t => raiseFault .storeFault ea t

/-! ## Fetch (R153, R154) -/

/-- `pc[1:0] != 0b00` (R153). -/
def pcMisaligned (s : State) : Bool := s.pc.extractLsb' 0 2 != 0#2

/-- `RouterReadWord(pc)` (R154). -/
def fetch (s : State) : Option Word := routerReadWord s.pc s

/-! ## Placing a word where the next fetch reads it -/

/-- The PC is aligned and its four bytes are RAM the router reads, so a word can be placed there. (RAM and the window both
begin and end at multiples of 4.) -/
def fetchesRam (s : State) : Bool := !pcMisaligned s && !inWindow s.pc && decide (s.pc.toNat < s.config.memSize)

/-- The state made ready to fetch a placed word: running, and at PC 0 if the PC cannot be fetched from RAM. -/
def readyToFetch (s : State) : State :=
  { s with run := .running, pc := if fetchesRam s then s.pc else 0#32 }

/-- The bytes of `w` placed in RAM at the PC, in the order the fetch reads them (R72). -/
def placeWord (w : Word) (s : State) : State := { s with mem := s.mem.writeList s.pc.toNat (bytesOfWord w) }

end Sys2Proof.Machine
end

