-- ==== Sys2Proof/Machine/Operands.lean ====
section
/-! DEFINITION. Operand values (spec 30_encoding.md R108 to R113, 43_loads_stores.md R210): the immediates extended to 32
bits, effective addresses, control-transfer targets and shift amounts. -/

namespace Sys2Proof.Machine

/-- `sext_12`: the I and S immediates (R108, R109). -/
def immI (imm : BitVec 12) : Word := imm.signExtend 32

/-- `imm_u`: the field in bits 31:12 over twelve zeros (R111). -/
def immU (imm : BitVec 20) : Word := imm ++ 0#12

/-- `sext_13`: a branch offset in bytes (R110). -/
def immB (off : BitVec 13) : Word := off.signExtend 32

/-- `sext_21`: a jump offset in bytes (R112). -/
def immJ (off : BitVec 21) : Word := off.signExtend 32

/-- The effective address of a load or store, `u32(a + imm)`: base plus displacement, the base not modified (R210). -/
def effectiveAddr (rs1 : RegIdx) (imm : BitVec 12) (s : State) : Word := s.reg rs1 + immI imm

/-- JALR's target `t`, `u32(a + imm_i)` (R173). -/
def jalrTarget (rs1 : RegIdx) (imm : BitVec 12) (s : State) : Word := s.reg rs1 + immI imm

/-- JAL's target, from the instruction's own address (R172). -/
def jalTarget (off : BitVec 21) (s : State) : Word := s.pc + immJ off

/-- A taken branch's target, from the instruction's own address (R190). -/
def branchTarget (off : BitVec 13) (s : State) : Word := s.pc + immB off

/-- A register shift's amount, `b[4:0]` (R253, D3). -/
def shiftAmount (b : Word) : Nat := (b.extractLsb' 0 5).toNat

/-- `sext_8`: LB's extension (R211). -/
def sextByte (b : Byte) : Word := b.signExtend 32

/-- `zext_8`: LBU's extension (R212). -/
def zextByte (b : Byte) : Word := b.setWidth 32

end Sys2Proof.Machine
end

