-- ==== Sys2Proof/Machine/Flags.lean ====
section
/-! DEFINITION. The conditions. The block has no flags (spec 10_state.md R40): a comparison writes a register or decides a
branch at once. -/

namespace Sys2Proof.Machine

/-- `a <s b`: two's-complement comparison (R14). -/
def ltSigned (a b : Word) : Bool := a.slt b

/-- `a <u b`: unsigned comparison (R14). -/
def ltUnsigned (a b : Word) : Bool := a.ult b

/-- `bool(c)`: 1 if `c` holds and 0 if not, as a 32-bit value (R14). -/
def boolWord (c : Bool) : Word := if c then 1#32 else 0#32

/-- `if cond then npc <- u32(pc + imm_b)`, otherwise `npc` stays `pc + 4` (R190). -/
def branchIf (cond : Bool) (off : BitVec 13) (s : State) : Result :=
  if cond then jumpTo (branchTarget off s) s else advance s

end Sys2Proof.Machine
end

