-- ==== Sys2Proof/Machine/Branch.lean ====
section
/-! DEFINITION. The six conditional branches (spec 42_branches.md). -/

namespace Sys2Proof.Machine

/-- R191: taken if `a = b`. -/
def execBeq (rs1 rs2 : RegIdx) (off : BitVec 13) (s : State) : Result := branchIf (s.reg rs1 == s.reg rs2) off s

/-- R192: taken if `a != b`. -/
def execBne (rs1 rs2 : RegIdx) (off : BitVec 13) (s : State) : Result := branchIf (s.reg rs1 != s.reg rs2) off s

/-- R193: taken if `s32(a) < s32(b)`. -/
def execBlt (rs1 rs2 : RegIdx) (off : BitVec 13) (s : State) : Result :=
  branchIf (ltSigned (s.reg rs1) (s.reg rs2)) off s

/-- R194: taken if `s32(a) >= s32(b)`. -/
def execBge (rs1 rs2 : RegIdx) (off : BitVec 13) (s : State) : Result :=
  branchIf (!ltSigned (s.reg rs1) (s.reg rs2)) off s

/-- R195: taken if `a <u b`. -/
def execBltu (rs1 rs2 : RegIdx) (off : BitVec 13) (s : State) : Result :=
  branchIf (ltUnsigned (s.reg rs1) (s.reg rs2)) off s

/-- R196: taken if `a >=u b`. -/
def execBgeu (rs1 rs2 : RegIdx) (off : BitVec 13) (s : State) : Result :=
  branchIf (!ltUnsigned (s.reg rs1) (s.reg rs2)) off s

end Sys2Proof.Machine
end

