-- ==== Sys2Proof/Machine/LoadStore.lean ====
section
/-! DEFINITION. Loads and stores (spec 43_loads_stores.md). -/

namespace Sys2Proof.Machine

/-- R211: the byte at `ea`, sign-extended. -/
def execLb (rd rs1 : RegIdx) (imm : BitVec 12) (s : State) : Result :=
  finishLoad rd (effectiveAddr rs1 imm s) ((routerReadByte (effectiveAddr rs1 imm s) s).map sextByte) s

/-- R212: the byte at `ea`, zero-extended. -/
def execLbu (rd rs1 : RegIdx) (imm : BitVec 12) (s : State) : Result :=
  finishLoad rd (effectiveAddr rs1 imm s) ((routerReadByte (effectiveAddr rs1 imm s) s).map zextByte) s

/-- R213: the word at `ea`, at any alignment. -/
def execLw (rd rs1 : RegIdx) (imm : BitVec 12) (s : State) : Result :=
  finishLoad rd (effectiveAddr rs1 imm s) (routerReadWord (effectiveAddr rs1 imm s) s) s

/-- R214: `b[7:0]` to `ea`. -/
def execSb (rs1 rs2 : RegIdx) (imm : BitVec 12) (s : State) : Result :=
  finishStore (effectiveAddr rs1 imm s) (routerWriteByte (effectiveAddr rs1 imm s) (byteOf (s.reg rs2) 0) s)

/-- R215: the word `b` to `ea`, at any alignment. -/
def execSw (rs1 rs2 : RegIdx) (imm : BitVec 12) (s : State) : Result :=
  finishStore (effectiveAddr rs1 imm s) (routerWriteWord (effectiveAddr rs1 imm s) (s.reg rs2) s)

end Sys2Proof.Machine
end

