-- ==== Sys2Proof/Machine/Op.lean ====
section
/-! DEFINITION. The ten register-register operations (spec 45_op.md). -/

namespace Sys2Proof.Machine

/-- R251: `u32(a + b)`. -/
def execAdd (rd rs1 rs2 : RegIdx) (s : State) : Result := writeBack rd (s.reg rs1 + s.reg rs2) s

/-- R252: `u32(a - b)`. -/
def execSub (rd rs1 rs2 : RegIdx) (s : State) : Result := writeBack rd (s.reg rs1 - s.reg rs2) s

/-- R253: `u32(a << b[4:0])`. -/
def execSll (rd rs1 rs2 : RegIdx) (s : State) : Result := writeBack rd (s.reg rs1 <<< shiftAmount (s.reg rs2)) s

/-- R254: `bool(s32(a) < s32(b))`. -/
def execSlt (rd rs1 rs2 : RegIdx) (s : State) : Result :=
  writeBack rd (boolWord (ltSigned (s.reg rs1) (s.reg rs2))) s

/-- R255: `bool(a <u b)`. -/
def execSltu (rd rs1 rs2 : RegIdx) (s : State) : Result :=
  writeBack rd (boolWord (ltUnsigned (s.reg rs1) (s.reg rs2))) s

/-- R256: `a ^ b`. -/
def execXor (rd rs1 rs2 : RegIdx) (s : State) : Result := writeBack rd (s.reg rs1 ^^^ s.reg rs2) s

/-- R257: `a >>u b[4:0]`. -/
def execSrl (rd rs1 rs2 : RegIdx) (s : State) : Result := writeBack rd (s.reg rs1 >>> shiftAmount (s.reg rs2)) s

/-- R258: `a >>s b[4:0]`. -/
def execSra (rd rs1 rs2 : RegIdx) (s : State) : Result :=
  writeBack rd ((s.reg rs1).sshiftRight (shiftAmount (s.reg rs2))) s

/-- R259: `a | b`. -/
def execOr (rd rs1 rs2 : RegIdx) (s : State) : Result := writeBack rd (s.reg rs1 ||| s.reg rs2) s

/-- R260: `a & b`. -/
def execAnd (rd rs1 rs2 : RegIdx) (s : State) : Result := writeBack rd (s.reg rs1 &&& s.reg rs2) s

end Sys2Proof.Machine
end

