-- ==== Sys2Proof/Machine/OpImm.lean ====
section
/-! DEFINITION. The seven register-immediate operations (spec 44_op_imm.md). -/

namespace Sys2Proof.Machine

/-- R231: `u32(a + imm_i)`. -/
def execAddi (rd rs1 : RegIdx) (imm : BitVec 12) (s : State) : Result := writeBack rd (s.reg rs1 + immI imm) s

/-- R232: `a ^ imm_i`. -/
def execXori (rd rs1 : RegIdx) (imm : BitVec 12) (s : State) : Result := writeBack rd (s.reg rs1 ^^^ immI imm) s

/-- R233: `a | imm_i`. -/
def execOri (rd rs1 : RegIdx) (imm : BitVec 12) (s : State) : Result := writeBack rd (s.reg rs1 ||| immI imm) s

/-- R234: `a & imm_i`. -/
def execAndi (rd rs1 : RegIdx) (imm : BitVec 12) (s : State) : Result := writeBack rd (s.reg rs1 &&& immI imm) s

/-- R235: `u32(a << shamt)`. -/
def execSlli (rd rs1 : RegIdx) (shamt : BitVec 5) (s : State) : Result :=
  writeBack rd (s.reg rs1 <<< shamt.toNat) s

/-- R236: `a >>u shamt`. -/
def execSrli (rd rs1 : RegIdx) (shamt : BitVec 5) (s : State) : Result :=
  writeBack rd (s.reg rs1 >>> shamt.toNat) s

/-- R237: `a >>s shamt`. -/
def execSrai (rd rs1 : RegIdx) (shamt : BitVec 5) (s : State) : Result :=
  writeBack rd ((s.reg rs1).sshiftRight shamt.toNat) s

end Sys2Proof.Machine
end

