-- ==== Sys2Proof/Machine/System.lean ====
section
/-! DEFINITION. ECALL, the decode anomalies and the unsettled words (spec 46_system_and_anomalies.md). Each catch-all meaning
takes the word itself, since a diagnostic event records it and an unsettled group is told by its fields. -/

namespace Sys2Proof.Machine

/-- R270: the clean halt; no register write, `pc` unchanged. -/
def execEcall (s : State) : Result := haltClean s

/-- R272: UnknownFunct. -/
def execOtherBranch (w : Word) (s : State) : Result := anomaly .unknownFunct w s

/-- R272: UnknownFunct; the load is never performed. -/
def execOtherLoad (w : Word) (s : State) : Result := anomaly .unknownFunct w s

/-- R272: UnknownFunct; the store is never performed. -/
def execOtherStore (w : Word) (s : State) : Result := anomaly .unknownFunct w s

/-- R271: UnknownOpcode. -/
def execAnyOtherOpcode (w : Word) (s : State) : Result := anomaly .unknownOpcode w s

/-- The group of an unsettled OP-IMM word: U3 under funct3 001, U4 under 101, U2 under 010 and 011 (R120). -/
def unsettledOpImm (w : Word) : Unsettled :=
  if funct3Of w = 1#3 then .u3 else if funct3Of w = 5#3 then .u4 else .u2

/-- The group of an unsettled OP word: U5 under funct7 0100000, U6 otherwise (R120). -/
def unsettledOp (w : Word) : Unsettled := if funct7Of w = 0x20#7 then .u5 else .u6

/-- R273: a JALR-opcode word with funct3 ≠ 000 is refused as U1. -/
def execOtherJalr (_w : Word) (s : State) : Result := refuse (.unsettled .u1) s

/-- R273: an unsettled OP-IMM word is refused as U2, U3 or U4. -/
def execOtherOpImm (w : Word) (s : State) : Result := refuse (.unsettled (unsettledOpImm w)) s

/-- R273: an unsettled OP word is refused as U5 or U6. -/
def execOtherOp (w : Word) (s : State) : Result := refuse (.unsettled (unsettledOp w)) s

/-- R273: a SYSTEM word other than ECALL is refused as U7. -/
def execOtherSystem (_w : Word) (s : State) : Result := refuse (.unsettled .u7) s

end Sys2Proof.Machine
end

