-- ==== Sys2Proof/Machine/UpperJump.lean ====
section
/-! DEFINITION. LUI, AUIPC, JAL, JALR (spec 41_upper_and_jumps.md). -/

namespace Sys2Proof.Machine

/-- R170: `x[rd] <- imm_u`. -/
def execLui (rd : RegIdx) (imm : BitVec 20) (s : State) : Result := writeBack rd (immU imm) s

/-- R171: `x[rd] <- u32(pc + imm_u)`. -/
def execAuipc (rd : RegIdx) (imm : BitVec 20) (s : State) : Result := writeBack rd (s.pc + immU imm) s

/-- R172: `x[rd] <- u32(pc + 4)`; `npc <- u32(pc + imm_j)`. -/
def execJal (rd : RegIdx) (off : BitVec 21) (s : State) : Result := linkAndJump rd (jalTarget off s) s

/-- R173: the target from the old `rs1`; an odd target is refused; then the link and the jump. -/
def execJalr (rd rs1 : RegIdx) (imm : BitVec 12) (s : State) : Result :=
  if (jalrTarget rs1 imm s).extractLsb' 0 1 = 1#1 then refuse .jalrOddTarget s
  else linkAndJump rd (jalrTarget rs1 imm s) s

end Sys2Proof.Machine
end

