-- ==== Sys2Proof/Machine/Step.lean ====
section
/-! DEFINITION. The one transition of the block (spec 40_step.md R151), and how a single instruction is placed for it. -/

namespace Sys2Proof.Machine

/-- `step()` (R151): a halted block changes nothing (R152), a misaligned PC is refused before the fetch (R153), a fetch that
meets an unmapped byte is a FetchFault (R302), and any word fetched is decoded and executed. -/
def step (s : State) : Host.Outcome State Fault Refusal :=
  if s.run ≠ .running then .next s
  else if pcMisaligned s then refuse .misalignedFetch s
  else
    match fetch s with
    | none => raiseFault .fetchFault s.pc s
    | some w => exec (decode w) s

/-- The state with the table row's word `w` stored where the next step fetches: the bits above `nbits` zero, the machine
running, and the PC kept unless no word can be fetched from RAM there (log 10). -/
def State.withFetchWord (s : State) (nbits w : Nat) : State :=
  placeWord (BitVec.ofNat 32 (w % 2 ^ nbits)) (readyToFetch s)

end Sys2Proof.Machine
end

