-- ==== Sys2Proof/Machine/Asm.lean ====
section
/-! DEFINITION. The assembler's names and forms (spec 30_encoding.md R125, R126, 10_state.md R33). They give the hardware no
behaviour: the unit of execution is the word (00_scope.md R8). -/

namespace Sys2Proof.Machine

/-- The standard ABI alias of a register (R33). -/
def abiName (i : RegIdx) : String :=
  ["zero", "ra", "sp", "gp", "tp", "t0", "t1", "t2", "s0", "s1", "a0", "a1", "a2", "a3", "a4", "a5", "a6", "a7",
   "s2", "s3", "s4", "s5", "s6", "s7", "s8", "s9", "s10", "s11", "t3", "t4", "t5", "t6"].getD i.toNat ""

/-- `x<n>` (R125). -/
def regName (i : RegIdx) : String := "x" ++ toString i.toNat

/-- `op rd, rs1, rs2` (R125). -/
def asmR (op : String) (rd rs1 rs2 : RegIdx) : String :=
  op ++ " " ++ regName rd ++ ", " ++ regName rs1 ++ ", " ++ regName rs2

/-- `op rd, rs1, imm` (R125). -/
def asmI (op : String) (rd rs1 : RegIdx) (imm : Int) : String :=
  op ++ " " ++ regName rd ++ ", " ++ regName rs1 ++ ", " ++ toString imm

/-- `op r, imm(rs1)`: a load, a store, or JALR (R125). -/
def asmMem (op : String) (r rs1 : RegIdx) (imm : Int) : String :=
  op ++ " " ++ regName r ++ ", " ++ toString imm ++ "(" ++ regName rs1 ++ ")"

/-- `op rs1, rs2, offset` (R125). -/
def asmB (op : String) (rs1 rs2 : RegIdx) (off : Int) : String :=
  op ++ " " ++ regName rs1 ++ ", " ++ regName rs2 ++ ", " ++ toString off

/-- `op rd, v`: LUI, AUIPC and JAL (R125). -/
def asmU (op : String) (rd : RegIdx) (v : Int) : String := op ++ " " ++ regName rd ++ ", " ++ toString v

/-- The assembler form of an instruction (R125); a word that is no instruction is a data word. -/
def asm : Instr → String
  | .lui rd imm => asmU "lui" rd imm.toNat
  | .auipc rd imm => asmU "auipc" rd imm.toNat
  | .jal rd off => asmU "jal" rd off.toInt
  | .jalr rd rs1 imm => asmMem "jalr" rd rs1 imm.toInt
  | .beq rs1 rs2 off => asmB "beq" rs1 rs2 off.toInt
  | .bne rs1 rs2 off => asmB "bne" rs1 rs2 off.toInt
  | .blt rs1 rs2 off => asmB "blt" rs1 rs2 off.toInt
  | .bge rs1 rs2 off => asmB "bge" rs1 rs2 off.toInt
  | .bltu rs1 rs2 off => asmB "bltu" rs1 rs2 off.toInt
  | .bgeu rs1 rs2 off => asmB "bgeu" rs1 rs2 off.toInt
  | .lb rd rs1 imm => asmMem "lb" rd rs1 imm.toInt
  | .lbu rd rs1 imm => asmMem "lbu" rd rs1 imm.toInt
  | .lw rd rs1 imm => asmMem "lw" rd rs1 imm.toInt
  | .sb rs1 rs2 imm => asmMem "sb" rs2 rs1 imm.toInt
  | .sw rs1 rs2 imm => asmMem "sw" rs2 rs1 imm.toInt
  | .addi rd rs1 imm => asmI "addi" rd rs1 imm.toInt
  | .xori rd rs1 imm => asmI "xori" rd rs1 imm.toInt
  | .ori rd rs1 imm => asmI "ori" rd rs1 imm.toInt
  | .andi rd rs1 imm => asmI "andi" rd rs1 imm.toInt
  | .slli rd rs1 shamt => asmI "slli" rd rs1 shamt.toNat
  | .srli rd rs1 shamt => asmI "srli" rd rs1 shamt.toNat
  | .srai rd rs1 shamt => asmI "srai" rd rs1 shamt.toNat
  | .add rd rs1 rs2 => asmR "add" rd rs1 rs2
  | .sub rd rs1 rs2 => asmR "sub" rd rs1 rs2
  | .sll rd rs1 rs2 => asmR "sll" rd rs1 rs2
  | .slt rd rs1 rs2 => asmR "slt" rd rs1 rs2
  | .sltu rd rs1 rs2 => asmR "sltu" rd rs1 rs2
  | .xor rd rs1 rs2 => asmR "xor" rd rs1 rs2
  | .srl rd rs1 rs2 => asmR "srl" rd rs1 rs2
  | .sra rd rs1 rs2 => asmR "sra" rd rs1 rs2
  | .or rd rs1 rs2 => asmR "or" rd rs1 rs2
  | .and rd rs1 rs2 => asmR "and" rd rs1 rs2
  | .ecall => "ecall"
  | .otherJalr w | .otherBranch w | .otherLoad w | .otherStore w | .otherOpImm w | .otherOp w | .otherSystem w
  | .anyOtherOpcode w => ".word " ++ toString w.toNat

/-- The pseudo-instructions of R126. `delta` is the symbol's address minus the address of the expansion's first
instruction, and an offset is a branch's or jump's own. -/
inductive Pseudo where
  | nop
  | li (rd : RegIdx) (imm : Word)
  | mv (rd rs : RegIdx)
  | not (rd rs : RegIdx)
  | neg (rd rs : RegIdx)
  | seqz (rd rs : RegIdx)
  | snez (rd rs : RegIdx)
  | sltz (rd rs : RegIdx)
  | sgtz (rd rs : RegIdx)
  | beqz (rs : RegIdx) (off : BitVec 13)
  | bnez (rs : RegIdx) (off : BitVec 13)
  | blez (rs : RegIdx) (off : BitVec 13)
  | bgez (rs : RegIdx) (off : BitVec 13)
  | bltz (rs : RegIdx) (off : BitVec 13)
  | bgtz (rs : RegIdx) (off : BitVec 13)
  | bgt (rs rt : RegIdx) (off : BitVec 13)
  | ble (rs rt : RegIdx) (off : BitVec 13)
  | bgtu (rs rt : RegIdx) (off : BitVec 13)
  | bleu (rs rt : RegIdx) (off : BitVec 13)
  | j (off : BitVec 21)
  | jalLink (off : BitVec 21)
  | jr (rs : RegIdx)
  | jalrLink (rs : RegIdx)
  | ret
  | call (delta : Word)
  | tail (delta : Word)
  | la (rd : RegIdx) (delta : Word)
  | lbSym (rd : RegIdx) (delta : Word)
  | lbuSym (rd : RegIdx) (delta : Word)
  | lwSym (rd : RegIdx) (delta : Word)
  | sbSym (rs rt : RegIdx) (delta : Word)
  | swSym (rs rt : RegIdx) (delta : Word)
  | fence
deriving DecidableEq, Repr

/-- `lo12 = sext_12(imm[11:0])`, as the 12-bit field (R126). -/
def lo12 (imm : Word) : BitVec 12 := imm.extractLsb' 0 12

/-- `hi20 = (imm - lo12)[31:12]` (R126). -/
def hi20 (imm : Word) : BitVec 20 := (imm - (lo12 imm).signExtend 32).extractLsb' 12 20

/-- The expansion of a pseudo-instruction (R126). The word of `fence iorw, iorw` beyond its opcode is PRESUMED (log 11). -/
def expand : Pseudo → List Instr
  | .nop => [.addi 0 0 0]
  | .li rd imm =>
    if -2048 ≤ imm.toInt ∧ imm.toInt ≤ 2047 then [.addi rd 0 (lo12 imm)]
    else [.lui rd (hi20 imm), .addi rd rd (lo12 imm)]
  | .mv rd rs => [.addi rd rs 0]
  | .not rd rs => [.xori rd rs (-1)]
  | .neg rd rs => [.sub rd 0 rs]
  | .seqz rd rs => [.otherOpImm (encodeI 1#12 rs 3#3 rd 0x13#7)]
  | .snez rd rs => [.sltu rd 0 rs]
  | .sltz rd rs => [.slt rd rs 0]
  | .sgtz rd rs => [.slt rd 0 rs]
  | .beqz rs off => [.beq rs 0 off]
  | .bnez rs off => [.bne rs 0 off]
  | .blez rs off => [.bge 0 rs off]
  | .bgez rs off => [.bge rs 0 off]
  | .bltz rs off => [.blt rs 0 off]
  | .bgtz rs off => [.blt 0 rs off]
  | .bgt rs rt off => [.blt rt rs off]
  | .ble rs rt off => [.bge rt rs off]
  | .bgtu rs rt off => [.bltu rt rs off]
  | .bleu rs rt off => [.bgeu rt rs off]
  | .j off => [.jal 0 off]
  | .jalLink off => [.jal 1 off]
  | .jr rs => [.jalr 0 rs 0]
  | .jalrLink rs => [.jalr 1 rs 0]
  | .ret => [.jalr 0 1 0]
  | .call delta => [.auipc 1 (hi20 delta), .jalr 1 1 (lo12 delta)]
  | .tail delta => [.auipc 6 (hi20 delta), .jalr 0 6 (lo12 delta)]
  | .la rd delta => [.auipc rd (hi20 delta), .addi rd rd (lo12 delta)]
  | .lbSym rd delta => [.auipc rd (hi20 delta), .lb rd rd (lo12 delta)]
  | .lbuSym rd delta => [.auipc rd (hi20 delta), .lbu rd rd (lo12 delta)]
  | .lwSym rd delta => [.auipc rd (hi20 delta), .lw rd rd (lo12 delta)]
  | .sbSym rs rt delta => [.auipc rt (hi20 delta), .sb rt rs (lo12 delta)]
  | .swSym rs rt delta => [.auipc rt (hi20 delta), .sw rt rs (lo12 delta)]
  | .fence => [.anyOtherOpcode 0x0FF0_000F#32]

/-- The instructions of an expansion, one after the other. -/
def execAll : List Instr → State → Result
  | [], s => .next s
  | i :: rest, s =>
    match exec i s with
    | .next t => execAll rest t
    | .refused r => .refused r
    | .fault f => .fault f

end Sys2Proof.Machine
end

