-- ==== Sys2Proof/Machine/Loader.lean ====
section
/-! DEFINITION. The loader's interface (spec 70_reset_and_hazards.md R341 to R346): what an image does to memory and to the PC
before the first step. Parsing a file into these terms is out of scope (00_scope.md R6). -/

namespace Sys2Proof.Machine

/-- A PT_LOAD program header (R341): its two declared addresses, "possibly-64-bit" fields, its file bytes, and its size in
memory. -/
structure Segment where
  pPaddr : Nat
  pVaddr : Nat
  bytes  : List Byte
  memsz  : Nat
deriving DecidableEq, Repr

/-- The program the host supplies: "exactly one must be supplied" (R349). -/
inductive Image where
  /-- An ELF32 image: its PT_LOAD segments and the header's entry point (R341). -/
  | elf (segments : List Segment) (entry : Word)
  /-- A raw file and the base it is copied to (R342), by default 0 (R10). -/
  | flat (bytes : List Byte) (base : Word := 0#32)
  /-- An image that is malformed or cannot be read (R342). -/
  | unreadable
deriving DecidableEq, Repr

/-- `base = u32(address field)`, the field the parameter LOADER_ELF_ADDR_FIELD names (R341, D17). -/
def Segment.base (field : ElfAddrField) (g : Segment) : Nat :=
  match field with
  | .pPaddr => g.pPaddr % 2 ^ 32
  | .pVaddr => g.pVaddr % 2 ^ 32

/-- How many bytes from its base a segment writes: the file bytes, and the zeros up to `memsz` (R341). -/
def Segment.extent (g : Segment) : Nat := max g.bytes.length g.memsz

/-- No address is written by both segments. -/
def Segment.apart (field : ElfAddrField) (g h : Segment) : Bool :=
  g.extent == 0 || h.extent == 0
    || decide (g.base field + g.extent ≤ h.base field) || decide (h.base field + h.extent ≤ g.base field)

/-- No two segments overlap (R341, D20). -/
def segmentsApart (field : ElfAddrField) : List Segment → Bool
  | [] => true
  | g :: rest => rest.all (fun h => g.apart field h) && segmentsApart field rest

/-- One segment: the file bytes at its base, then zeros up to `base + memsz - 1`, both by `load_bytes` (R341). -/
def loadSegment (field : ElfAddrField) (size : Nat) (g : Segment) (m : Memory) : Option Memory :=
  match m.loadBytes size (g.base field) g.bytes with
  | none => none
  | some m' => m'.loadBytes size (g.base field + g.bytes.length) (List.replicate (g.memsz - g.bytes.length) 0#8)

/-- Every segment in turn; the load fails if one does (R342). -/
def loadSegments (field : ElfAddrField) (size : Nat) : List Segment → Memory → Option Memory
  | [], m => some m
  | g :: rest, m =>
    match loadSegment field size g m with
    | none => none
    | some m' => loadSegments field size rest m'

/-- `initial_pc` (R343): the override if it is not 0, else the ELF entry, else 0. -/
def initialPc (p : HostParams) (img : Image) : Word :=
  if p.pcOverride ≠ 0#32 then p.pcOverride
  else
    match img with
    | .elf _ entry => entry
    | .flat _ _ => 0#32
    | .unreadable => 0#32

/-- The machine at its first step, from the memory the loader left (R343, R344). -/
def loaded (c : Config) (p : HostParams) (img : Image) (m : Option Memory) : Result :=
  match m with
  | none => .fault .loadFailure
  | some m => .next { State.construct c with mem := m, pc := initialPc p img }

/-- Construction and loading: the state at the first step, a LoadFailure, or a refusal of overlapping segments (R340 to
R344). -/
def boot (c : Config) (p : HostParams) (img : Image) : Result :=
  match img with
  | .unreadable => .fault .loadFailure
  | .flat bytes base => loaded c p img (Memory.loadBytes [] c.memSize base.toNat bytes)
  | .elf segments _ =>
    if segmentsApart p.elfAddrField segments then loaded c p img (loadSegments p.elfAddrField c.memSize segments [])
    else .refused .overlappingSegments

end Sys2Proof.Machine
end

