-- ==== Sys2Proof/Machine/RunLoop.lean ====
section
/-! DEFINITION. What the host sees of a step (spec 40_step.md R161), and the host's run loop and the ends of a run
(70_reset_and_hazards.md R347, R348). -/

namespace Sys2Proof.Machine

/-- The step result (R15, R161). -/
inductive StepResult where
  | continue
  | haltClean
  | fault (kind : FaultKind)
  | refused (reason : Refusal)
  /-- Answered by no step: a `Fault` is raised by `boot` alone. -/
  | notStarted (reason : Fault)
deriving DecidableEq, Repr

/-- What a step result reports of the run state the step left (R152, R161). -/
def resultOfRun : RunState → StepResult
  | .running => .continue
  | .haltedClean => .haltClean
  | .haltedFault f => .fault f.kind

/-- What `step()` reports (R161). -/
def stepResult (s : State) : StepResult :=
  match step s with
  | .next t => resultOfRun t.run
  | .refused r => .refused r
  | .fault f => .notStarted f

/-- The end of a run (R348), or a load that failed before it (R342). A refused run claims no state. -/
inductive RunEnd where
  | clean (s : State)
  | crashed (s : State) (f : FaultRecord)
  | outOfBudget (s : State)
  | refused (reason : Refusal)
  | notStarted (reason : Fault)
deriving DecidableEq, Repr

/-- The end of a run whose loop stopped in state `s` (R348). -/
def endOf (s : State) : RunEnd :=
  match s.run with
  | .running => .outOfBudget s
  | .haltedClean => .clean s
  | .haltedFault f => .crashed s f

/-- `run()` with a budget of calls of `step()` (R347): it stops when the budget is exhausted or the machine has halted. -/
def runLoop : Nat → State → RunEnd
  | 0, s => endOf s
  | n + 1, s =>
    if s.run = .running then
      match step s with
      | .next t => runLoop n t
      | .refused r => .refused r
      | .fault f => .notStarted f
    else endOf s

/-- How many calls of `step()` the loop makes, the halting call counted (R347, D18). -/
def callsMade : Nat → State → Nat
  | 0, _ => 0
  | n + 1, s =>
    if s.run = .running then
      match step s with
      | .next t => callsMade n t + 1
      | .refused _ => 1
      | .fault _ => 1
    else 0

/-- A whole run as the host drives it (R349): construction, loading, and the loop. -/
def hostRun (c : Config) (p : HostParams) (img : Image) : RunEnd :=
  match boot c p img with
  | .next s => runLoop p.maxSteps s
  | .refused r => .refused r
  | .fault f => .notStarted f

end Sys2Proof.Machine
end

