-- ==== Sys2Proof/Safety.lean ====
section
/-! DEFINITION. What counts as a safe run, and the terms the claims are written in. They are read off the rules of the spec
and call the machine only to read a register or a byte. -/

namespace Sys2Proof.Machine

/-! ## Safe runs -/

/-- Only a clean halt is "program finished" (R348); a crash, an exhausted budget and a refusal are not. -/
def RunEnd.finished : RunEnd → Bool
  | .clean _ => true
  | .crashed _ _ | .outOfBudget _ | .refused _ | .notStarted _ => false

/-- A run that finished and skipped no unknown word: `diag` keeps every anomaly, "so a claim can require no anomaly recorded"
(R274). -/
def RunEnd.safe : RunEnd → Bool
  | .clean s => s.diag.isEmpty
  | .crashed _ _ | .outOfBudget _ | .refused _ | .notStarted _ => false

/-! ## Classes of words (R117) -/

/-- The classes of R117. -/
inductive DecodeClass where
  | instr
  | halt
  | anomaly (kind : AnomalyKind)
  | unsettled (u : Unsettled)
deriving DecidableEq, Repr

/-- The class of an instruction term. -/
def classOf : Instr → DecodeClass
  | .ecall => .halt
  | .otherBranch _ | .otherLoad _ | .otherStore _ => .anomaly .unknownFunct
  | .anyOtherOpcode _ => .anomaly .unknownOpcode
  | .otherJalr _ => .unsettled .u1
  | .otherOpImm w => .unsettled (unsettledOpImm w)
  | .otherOp w => .unsettled (unsettledOp w)
  | .otherSystem _ => .unsettled .u7
  | .lui _ _ | .auipc _ _ | .jal _ _ | .jalr _ _ _ | .beq _ _ _ | .bne _ _ _ | .blt _ _ _ | .bge _ _ _ | .bltu _ _ _
  | .bgeu _ _ _ | .lb _ _ _ | .lbu _ _ _ | .lw _ _ _ | .sb _ _ _ | .sw _ _ _ | .addi _ _ _ | .xori _ _ _ | .ori _ _ _
  | .andi _ _ _ | .slli _ _ _ | .srli _ _ _ | .srai _ _ _ | .add _ _ _ | .sub _ _ _ | .sll _ _ _ | .slt _ _ _
  | .sltu _ _ _ | .xor _ _ _ | .srl _ _ _ | .sra _ _ _ | .or _ _ _ | .and _ _ _ => .instr

/-- Every word whose bits under `mask` are `value` decodes to the instruction `f` reads from it. -/
def EncodedAs (mask value : Word) (f : Word → Instr) : Prop := ∀ w : Word, w &&& mask = value → decode w = f w

/-! ## Addresses (R61) -/

/-- The address is in the device register window. -/
abbrev Window (a : Word) : Prop := 0x1000_0000 ≤ a.toNat ∧ a.toNat < 0x1000_0100

/-- The address is RAM the router reaches. -/
abbrev Ram (s : State) (a : Word) : Prop := ¬ Window a ∧ a.toNat < s.config.memSizeMib * 1048576

/-- The address is mapped: in the window or RAM. -/
abbrev Mapped (s : State) (a : Word) : Prop := Window a ∨ a.toNat < s.config.memSizeMib * 1048576

/-- The address `u32(a + k)` of a word access's byte (R67, R68). -/
def nth (a : Word) (k : Nat) : Word := a + BitVec.ofNat 32 k

/-! ## Instructions as readers and writers of registers (R34) -/

/-- The register an instruction writes, if any (R34). -/
def destOf : Instr → Option RegIdx
  | .lui rd _ | .auipc rd _ | .jal rd _ => some rd
  | .jalr rd _ _ | .lb rd _ _ | .lbu rd _ _ | .lw rd _ _ => some rd
  | .addi rd _ _ | .xori rd _ _ | .ori rd _ _ | .andi rd _ _ => some rd
  | .slli rd _ _ | .srli rd _ _ | .srai rd _ _ => some rd
  | .add rd _ _ | .sub rd _ _ | .sll rd _ _ | .slt rd _ _ | .sltu rd _ _ | .xor rd _ _ | .srl rd _ _ | .sra rd _ _
  | .or rd _ _ | .and rd _ _ => some rd
  | .beq _ _ _ | .bne _ _ _ | .blt _ _ _ | .bge _ _ _ | .bltu _ _ _ | .bgeu _ _ _ | .sb _ _ _ | .sw _ _ _ | .ecall
  | .otherJalr _ | .otherBranch _ | .otherLoad _ | .otherStore _ | .otherOpImm _ | .otherOp _ | .otherSystem _
  | .anyOtherOpcode _ => none

/-- The registers an instruction reads (R34). -/
def sourcesOf : Instr → List RegIdx
  | .jalr _ rs1 _ | .lb _ rs1 _ | .lbu _ rs1 _ | .lw _ rs1 _ => [rs1]
  | .addi _ rs1 _ | .xori _ rs1 _ | .ori _ rs1 _ | .andi _ rs1 _ => [rs1]
  | .slli _ rs1 _ | .srli _ rs1 _ | .srai _ rs1 _ => [rs1]
  | .beq rs1 rs2 _ | .bne rs1 rs2 _ | .blt rs1 rs2 _ | .bge rs1 rs2 _ | .bltu rs1 rs2 _ | .bgeu rs1 rs2 _ => [rs1, rs2]
  | .sb rs1 rs2 _ | .sw rs1 rs2 _ => [rs1, rs2]
  | .add _ rs1 rs2 | .sub _ rs1 rs2 | .sll _ rs1 rs2 | .slt _ rs1 rs2 | .sltu _ rs1 rs2 | .xor _ rs1 rs2
  | .srl _ rs1 rs2 | .sra _ rs1 rs2 | .or _ rs1 rs2 | .and _ rs1 rs2 => [rs1, rs2]
  | .lui _ _ | .auipc _ _ | .jal _ _ | .ecall
  | .otherJalr _ | .otherBranch _ | .otherLoad _ | .otherStore _ | .otherOpImm _ | .otherOp _ | .otherSystem _
  | .anyOtherOpcode _ => []

/-- The instruction is SB or SW. -/
def isStore : Instr → Bool
  | .sb _ _ _ | .sw _ _ _ => true
  | _ => false

/-- Where a taken control transfer goes (R172, R173, R190 to R196); `none` for an instruction that goes on to `pc + 4`. -/
def controlTarget (s : State) : Instr → Option Word
  | .jal _ off => some (BitVec.ofInt 32 (s.pc.toNat + off.toInt))
  | .jalr _ rs1 imm => some (BitVec.ofInt 32 ((s.reg rs1).toNat + imm.toInt))
  | .beq rs1 rs2 off => if s.reg rs1 = s.reg rs2 then some (BitVec.ofInt 32 (s.pc.toNat + off.toInt)) else none
  | .bne rs1 rs2 off => if s.reg rs1 ≠ s.reg rs2 then some (BitVec.ofInt 32 (s.pc.toNat + off.toInt)) else none
  | .blt rs1 rs2 off =>
    if (s.reg rs1).toInt < (s.reg rs2).toInt then some (BitVec.ofInt 32 (s.pc.toNat + off.toInt)) else none
  | .bge rs1 rs2 off =>
    if (s.reg rs2).toInt ≤ (s.reg rs1).toInt then some (BitVec.ofInt 32 (s.pc.toNat + off.toInt)) else none
  | .bltu rs1 rs2 off =>
    if (s.reg rs1).toNat < (s.reg rs2).toNat then some (BitVec.ofInt 32 (s.pc.toNat + off.toInt)) else none
  | .bgeu rs1 rs2 off =>
    if (s.reg rs2).toNat ≤ (s.reg rs1).toNat then some (BitVec.ofInt 32 (s.pc.toNat + off.toInt)) else none
  | _ => none

/-- The addresses of the bytes an instruction loads or stores, from the effective address up (R210 to R215). -/
def accessed (s : State) : Instr → List Word
  | .lb _ rs1 imm | .lbu _ rs1 imm | .sb rs1 _ imm => [BitVec.ofInt 32 ((s.reg rs1).toNat + imm.toInt)]
  | .lw _ rs1 imm | .sw rs1 _ imm => (List.range 4).map (nth (BitVec.ofInt 32 ((s.reg rs1).toNat + imm.toInt)))
  | _ => []

/-- The instruction the next step runs is `i`: the block runs, its PC is aligned, and the word at the PC decodes to `i` (R151,
R153 to R155). -/
def RunsNext (s : State) (i : Instr) : Prop :=
  s.run = .running ∧ s.pc.toNat % 4 = 0 ∧ ∃ w, routerReadWord s.pc s = some w ∧ decode w = i

/-- The diagnostic events a step at `s` of the word `w` records (R46, R271, R272). -/
def eventsOf (s : State) (w : Word) : List DiagEvent :=
  match classOf (decode w) with
  | .anomaly kind => [⟨kind, s.pc, w⟩]
  | _ => []

/-! ## What a state change leaves alone -/

/-- Every general register reads as before. -/
def SameRegs (s t : State) : Prop := ∀ i, t.reg i = s.reg i

/-- Every byte of memory reads as before, through the router and in the array under it. -/
def SameBytes (s t : State) : Prop := (∀ a, routerReadByte a t = routerReadByte a s) ∧ t.mem = s.mem

/-- The run state, the transmit stream, the diagnostic list and the configuration are as before. -/
def SameHostView (s t : State) : Prop := t.run = s.run ∧ t.tx = s.tx ∧ t.diag = s.diag ∧ t.config = s.config

/-- The one effect is `x[rd] <- v; npc <- npc`: x0 reads 0, the other registers and everything else are as before. -/
def WritesOnly (rd : RegIdx) (v npc : Word) (s t : State) : Prop :=
  t.pc = npc ∧ (∀ i, t.reg i = if i = 0#5 then 0#32 else if i = rd then v else s.reg i)
    ∧ SameBytes s t ∧ SameHostView s t

/-- The one effect is `npc <- npc`. -/
def MovesPcOnly (npc : Word) (s t : State) : Prop := t.pc = npc ∧ SameRegs s t ∧ SameBytes s t ∧ SameHostView s t

/-- The one effect is the run state `r`: the PC stays too. -/
def HaltsOnly (r : RunState) (s t : State) : Prop :=
  t.run = r ∧ t.pc = s.pc ∧ SameRegs s t ∧ SameBytes s t ∧ t.tx = s.tx ∧ t.diag = s.diag ∧ t.config = s.config

/-- Memory, window and transmit stream after `n` bytes of `v` went to `ea` and up, byte by byte (R66, R68): every other
address reads as before, each stored byte that is RAM reads back, a window byte reads as before, RAM under the window
is untouched, and a byte at the transmit register is appended to `tx`. -/
def StoredBytes (ea v : Word) (n : Nat) (s t : State) : Prop :=
  (∀ a, (∀ k, k < n → a ≠ nth ea k) → routerReadByte a t = routerReadByte a s)
    ∧ (∀ k, k < n → ¬ Window (nth ea k) → routerReadByte (nth ea k) t = some (v.extractLsb' (8 * k) 8))
    ∧ (∀ k, k < n → Window (nth ea k) → routerReadByte (nth ea k) t = routerReadByte (nth ea k) s)
    ∧ (∀ m : Nat, (∀ k, k < n → Window (nth ea k) ∨ m ≠ (nth ea k).toNat) → t.mem.read m = s.mem.read m)
    ∧ t.tx = s.tx ++ ((List.range n).filter (fun k => nth ea k = 0x1000_0000#32)).map (fun k => v.extractLsb' (8 * k) 8)
    ∧ t.diag = s.diag ∧ t.config = s.config

/-- What the next fetch does at a target (R153, R302): it is refused if the target is not a multiple of 4, and is a FetchFault
if the target is aligned and not mapped. -/
def NextFetchChecked (t : State) : Prop :=
  t.run = .running →
    (t.pc.toNat % 4 ≠ 0 → step t = .refused .misalignedFetch)
      ∧ (t.pc.toNat % 4 = 0 → ¬ Mapped t t.pc →
          step t = .next { t with run := .haltedFault ⟨.fetchFault, t.pc, t.pc⟩ })

/-! ## Invariants of the records a run keeps -/

/-- Every diagnostic event is of an aligned word that is an anomaly of the event's kind (R46, R271, R272). -/
def DiagSound (s : State) : Prop :=
  ∀ e ∈ s.diag, e.pc.toNat % 4 = 0 ∧ classOf (decode e.word) = .anomaly e.kind

/-- A fault record names the instruction the PC still stands at, at an aligned address, and a FetchFault's access is the PC
(R37, R42). -/
def FaultRecordSound (s : State) : Prop :=
  ∀ f, s.run = .haltedFault f → f.pc = s.pc ∧ s.pc.toNat % 4 = 0 ∧ (f.kind = .fetchFault → f.addr = s.pc)

end Sys2Proof.Machine
end

