-- ==== Sys2Proof/Certificates/Slice0/Obligations.lean ====
section
/-! DEFINITION. The statements about the model, each with the rule of the spec it formalises. Values are written in
integer arithmetic and bit fields in `extractLsb'`, not in the model's own helpers, so that a wrong helper refutes them. -/

open Sys2Proof Sys2Proof.Machine

/-! ## Encoding (30_encoding.md) -/

/-- Decoding the word of a well-formed instruction gives the instruction back, for every operand value. -/
def Obligations.DecodeOfEncode : Prop := ∀ i : Instr, i.wf = true → decode (encode i) = i

/-- Every word decodes to a well-formed instruction whose word it is: no bit of an encoding is dropped (R121), and two words
that decode to the same instruction are the same word. -/
def Obligations.EncodeOfDecode : Prop :=
  (∀ w : Word, (decode w).wf = true ∧ encode (decode w) = w) ∧ ∀ w w' : Word, decode w = decode w' → w = w'

/-- The class of every word that is no instruction, by opcode, funct3 and funct7: UnknownOpcode (R118), UnknownFunct (R119)
and the seven unsettled groups (R120, the spec's decision D2). -/
def Obligations.UnlistedWordsClassified : Prop :=
  ∀ w : Word,
    (classOf (decode w) = .anomaly .unknownOpcode ↔
      w.extractLsb' 0 7 ∉ [0x37#7, 0x17#7, 0x6F#7, 0x67#7, 0x63#7, 0x03#7, 0x23#7, 0x13#7, 0x33#7, 0x73#7])
    ∧ (classOf (decode w) = .anomaly .unknownFunct ↔
        (w.extractLsb' 0 7 = 0x63#7 ∧ w.extractLsb' 12 3 ∈ [2#3, 3#3])
          ∨ (w.extractLsb' 0 7 = 0x03#7 ∧ w.extractLsb' 12 3 ∈ [1#3, 5#3, 3#3, 6#3, 7#3])
          ∨ (w.extractLsb' 0 7 = 0x23#7 ∧ w.extractLsb' 12 3 ∈ [1#3, 3#3, 4#3, 5#3, 6#3, 7#3]))
    ∧ (classOf (decode w) = .unsettled .u1 ↔ w.extractLsb' 0 7 = 0x67#7 ∧ w.extractLsb' 12 3 ≠ 0#3)
    ∧ (classOf (decode w) = .unsettled .u2 ↔ w.extractLsb' 0 7 = 0x13#7 ∧ w.extractLsb' 12 3 ∈ [2#3, 3#3])
    ∧ (classOf (decode w) = .unsettled .u3 ↔
        w.extractLsb' 0 7 = 0x13#7 ∧ w.extractLsb' 12 3 = 1#3 ∧ w.extractLsb' 25 7 ≠ 0x00#7)
    ∧ (classOf (decode w) = .unsettled .u4 ↔
        w.extractLsb' 0 7 = 0x13#7 ∧ w.extractLsb' 12 3 = 5#3 ∧ w.extractLsb' 25 7 ∉ [0x00#7, 0x20#7])
    ∧ (classOf (decode w) = .unsettled .u5 ↔
        w.extractLsb' 0 7 = 0x33#7 ∧ w.extractLsb' 25 7 = 0x20#7 ∧ w.extractLsb' 12 3 ∉ [0#3, 5#3])
    ∧ (classOf (decode w) = .unsettled .u6 ↔
        w.extractLsb' 0 7 = 0x33#7 ∧ w.extractLsb' 25 7 ∉ [0x00#7, 0x20#7])
    ∧ (classOf (decode w) = .unsettled .u7 ↔ w.extractLsb' 0 7 = 0x73#7 ∧ w ≠ 0x0000_0073#32)

/-- R114: in each of the five immediate formats, encoding a value and decoding it reproduces the signed value over the
format's full range, the most negative value among them. -/
def Obligations.ImmediateRoundTrip : Prop :=
  (∀ (n : Int) (rd rs1 : RegIdx), -2048 ≤ n → n ≤ 2047 →
    (immI (immIOf (encode (.addi rd rs1 (BitVec.ofInt 12 n))))).toInt = n)
  ∧ (∀ (n : Int) (rs1 rs2 : RegIdx), -2048 ≤ n → n ≤ 2047 →
    (immI (immSOf (encode (.sw rs1 rs2 (BitVec.ofInt 12 n))))).toInt = n)
  ∧ (∀ (n : Int) (rs1 rs2 : RegIdx), -4096 ≤ n → n ≤ 4094 → n % 2 = 0 →
    (immB (immBOf (encode (.beq rs1 rs2 (BitVec.ofInt 13 n))))).toInt = n)
  ∧ (∀ (n : Int) (rd : RegIdx), -2 ^ 31 ≤ n → n ≤ 2 ^ 31 - 4096 → n % 4096 = 0 →
    (immU (immUOf (encode (.lui rd (BitVec.ofInt 20 (n / 4096)))))).toInt = n)
  ∧ (∀ (n : Int) (rd : RegIdx), -1048576 ≤ n → n ≤ 1048574 → n % 2 = 0 →
    (immJ (immJOf (encode (.jal rd (BitVec.ofInt 21 n))))).toInt = n)

/-- Words written out bit by bit from the tables of 30_encoding.md decode to the instructions they stand for. -/
def Obligations.WrittenWordsDecode : Prop :=
  decode 0b00010010001101000101_00101_0110111#32 = .lui 5 0x12345
  ∧ decode 0b1_1111111100_1_11111111_00000_1101111#32 = .jal 0 (-8)
  ∧ decode 0b1_111111_00110_00101_001_1110_1_1100011#32 = .bne 5 6 (-4)
  ∧ decode 0b000000000001_00101_010_00110_0000011#32 = .lw 6 5 1
  ∧ decode 0b1111111_00110_00101_010_11110_0100011#32 = .sw 5 6 (-2)
  ∧ decode 0b0100000_00100_00110_101_00101_0010011#32 = .srai 5 6 4
  ∧ decode 0b0100000_00111_00110_000_00101_0110011#32 = .sub 5 6 7
  ∧ decode 0b000000000000_00000_000_00000_1110011#32 = .ecall
  ∧ decode 0b0000000_00000_00101_001_00110_0000011#32 = .otherLoad 0x0002_9303#32

/-- An instruction is the four bytes of its word, low byte first (R72, R100): decoding them gives it back and leaves the bytes
after them, and fewer than four bytes are no instruction. -/
def Obligations.BytesDecodeLittleEndian : Prop :=
  (∀ (i : Instr) (rest : List Byte), i.wf = true → decodeBytes (encodeBytes i ++ rest) = .ok (i, rest))
  ∧ (∀ (w : Word) (rest : List Byte),
      decodeBytes (w.extractLsb' 0 8 :: w.extractLsb' 8 8 :: w.extractLsb' 16 8 :: w.extractLsb' 24 8 :: rest)
        = .ok (decode w, rest))
  ∧ ∀ bs : List Byte, bs.length < 4 → decodeBytes bs = .error .truncated

/-! ## State (10_state.md) -/

/-- R32, and the write to register 0: a read gives the last value written, or 0 at construction; x0 reads 0 whatever is
written to it. -/
def Obligations.RegisterReadsLastWrite : Prop :=
  (∀ (s : State) (i j : RegIdx) (v : Word),
    (s.setReg i v).reg j = if j = 0#5 then 0#32 else if j = i then v else s.reg j)
  ∧ ∀ (c : Config) (i : RegIdx), (State.construct c).reg i = 0#32

/-- Every piece of state at construction, and at the first step after any load that succeeds (R48). That a byte of RAM under
the device window holds 0 there is the model's (log 13), and so is that a segment covers the larger of its file and memory
sizes (log 9). -/
def Obligations.ConstructionValues : Prop :=
  (∀ c : Config,
    (∀ i, (State.construct c).reg i = 0#32) ∧ (State.construct c).pc = 0#32
      ∧ (∀ a : Word, Ram (State.construct c) a → routerReadByte a (State.construct c) = some 0#8)
      ∧ (∀ m : Nat, (State.construct c).mem.read m = 0#8)
      ∧ (State.construct c).run = .running ∧ (State.construct c).tx = [] ∧ (State.construct c).diag = [])
  ∧ (∀ (c : Config) (p : HostParams) (img : Image) (s : State), boot c p img = .next s →
    (∀ i, s.reg i = 0#32) ∧ s.pc = initialPc p img ∧ s.run = .running ∧ s.tx = [] ∧ s.diag = [] ∧ s.config = c
      ∧ ∀ m : Nat,
          (match img with
            | .elf segments _ =>
              ∀ g ∈ segments, m < g.base p.elfAddrField ∨ g.base p.elfAddrField + g.extent ≤ m
            | .flat bytes base => m < base.toNat ∨ base.toNat + bytes.length ≤ m
            | .unreadable => True) →
          s.mem.read m = 0#8)

/-! ## The step (40_step.md, 60_exceptions.md) -/

/-- A step of a halted block changes no state and returns the same result again (R152, the spec's decision D8). -/
def Obligations.HaltedStepChangesNothing : Prop :=
  ∀ s : State, s.run ≠ .running →
    step s = .next s
      ∧ (s.run = .haltedClean → stepResult s = .haltClean)
      ∧ (∀ f, s.run = .haltedFault f → stepResult s = .fault f.kind)

/-- A running block whose PC is not a multiple of 4 is refused before anything is fetched (R153, the spec's decision D5). -/
def Obligations.MisalignedFetchRefused : Prop :=
  ∀ s : State, s.run = .running → s.pc.toNat % 4 ≠ 0 → step s = .refused .misalignedFetch

/-- R302: a fetch that meets an unmapped byte halts with a FetchFault record and changes nothing else; the step reports
`Fault(FetchFault)` (R161). -/
def Obligations.FetchFaultHalts : Prop :=
  ∀ s : State, s.run = .running → s.pc.toNat % 4 = 0 → (∃ k, k < 4 ∧ ¬ Mapped s (nth s.pc k)) →
    (∃ t, step s = .next t ∧ HaltsOnly (.haltedFault ⟨.fetchFault, s.pc, s.pc⟩) s t) ∧ stepResult s = .fault .fetchFault

/-- A step of a running block at an aligned PC whose four bytes can be read runs the instruction their word, assembled
little-endian, decodes to: for a well-formed instruction whose bytes stand at the PC, that instruction. -/
def Obligations.StepRunsDecodedInstruction : Prop :=
  (∀ (s : State) (b0 b1 b2 b3 : Byte), s.run = .running → s.pc.toNat % 4 = 0 →
    routerReadByte s.pc s = some b0 → routerReadByte (nth s.pc 1) s = some b1 →
    routerReadByte (nth s.pc 2) s = some b2 → routerReadByte (nth s.pc 3) s = some b3 →
    step s = exec (decode (b3 ++ b2 ++ b1 ++ b0)) s)
  ∧ ∀ (s : State) (i : Instr), s.run = .running → s.pc.toNat % 4 = 0 → i.wf = true →
    (∀ k, k < 4 → routerReadByte (nth s.pc k) s = (encodeBytes i)[k]?) → step s = exec i s

/-- The state the host places a table word in runs exactly that word next, and differs from the given one in memory at the
four placed bytes, in being running, and in the PC only where the PC could not be fetched from RAM. -/
def Obligations.PlacedWordRunsNext : Prop :=
  ∀ (s : State) (nbits w : Nat), 1 ≤ s.config.memSizeMib → nbits ≤ 32 →
    ∃ i, decodeTableWord nbits w = some i
      ∧ step (s.withFetchWord nbits w) = exec i (s.withFetchWord nbits w)
      ∧ SameRegs s (s.withFetchWord nbits w) ∧ (s.withFetchWord nbits w).tx = s.tx
      ∧ (s.withFetchWord nbits w).diag = s.diag ∧ (s.withFetchWord nbits w).config = s.config
      ∧ (s.withFetchWord nbits w).run = .running
      ∧ (s.pc.toNat % 4 = 0 → Ram s s.pc → (s.withFetchWord nbits w).pc = s.pc)
      ∧ ∀ m : Nat, (∀ k, k < 4 → m ≠ (s.withFetchWord nbits w).pc.toNat + k) →
          (s.withFetchWord nbits w).mem.read m = s.mem.read m

/-- Exactly when a step is refused, and why (R153, R160, R173, R273): no step answers a `Fault`. -/
def Obligations.StepRefusesExactly : Prop :=
  (∀ (s : State) (f : Fault), step s ≠ .fault f)
  ∧ ∀ (s : State) (r : Refusal), step s = .refused r ↔
      s.run = .running ∧
        ((s.pc.toNat % 4 ≠ 0 ∧ r = .misalignedFetch)
          ∨ (s.pc.toNat % 4 = 0 ∧ ∃ w, routerReadWord s.pc s = some w ∧
              ((∃ u, classOf (decode w) = .unsettled u ∧ r = .unsettled u)
                ∨ (r = .jalrOddTarget ∧ ∃ rd rs1 imm, decode w = .jalr rd rs1 imm
                    ∧ (((s.reg rs1).toNat : Int) + imm.toInt) % 2 = 1))))

/-- The PC after a step that runs (R37): unchanged by a halt or a fault (for a fault, the spec's decision D6), and otherwise the
control target or `pc + 4`. -/
def Obligations.PcAfterStep : Prop :=
  ∀ s t : State, s.run = .running → step s = .next t →
    (t.run ≠ .running → t.pc = s.pc)
      ∧ (t.run = .running → ∃ w, routerReadWord s.pc s = some w
          ∧ t.pc = (controlTarget s (decode w)).getD (BitVec.ofNat 32 (s.pc.toNat + 4)))

/-- R309: a halting event changes the run state, and for SW the bytes written before the failing one, and nothing else. -/
def Obligations.HaltEntryChangesRunStateOnly : Prop :=
  ∀ s t : State, s.run = .running → step s = .next t → t.run ≠ .running →
    t.pc = s.pc ∧ SameRegs s t ∧ t.diag = s.diag ∧ t.config = s.config
      ∧ ((t.mem = s.mem ∧ t.tx = s.tx)
          ∨ ∃ w rs1 rs2 imm, routerReadWord s.pc s = some w ∧ decode w = .sw rs1 rs2 imm
              ∧ ∃ n, n < 4 ∧ StoredBytes (BitVec.ofInt 32 ((s.reg rs1).toNat + imm.toInt)) (s.reg rs2) n s t)

/-- Registers change only as R34 says: an instruction's `rd` alone, and none of them when it faults, halts or is an anomaly. -/
def Obligations.OnlyRdIsWritten : Prop :=
  ∀ (i : Instr) (s t : State), exec i s = .next t →
    (∀ r, destOf i ≠ some r → t.reg r = s.reg r) ∧ (s.run = .running → t.run ≠ .running → SameRegs s t)

/-- An instruction reads no register outside R34's table: from two states alike but for the other registers it ends alike,
with the same value in the register it writes. -/
def Obligations.OnlySourcesAreRead : Prop :=
  ∀ (i : Instr) (s s' : State), s.run = .running → s'.run = .running → s'.pc = s.pc → s'.mem = s.mem → s'.tx = s.tx →
    s'.diag = s.diag → s'.config = s.config → (∀ r ∈ sourcesOf i, s'.reg r = s.reg r) →
    (∀ reason, exec i s = .refused reason → exec i s' = .refused reason)
    ∧ ∀ t, exec i s = .next t → ∃ t', exec i s' = .next t' ∧ t'.pc = t.pc ∧ t'.run = t.run ∧ t'.mem = t.mem
        ∧ t'.tx = t.tx ∧ t'.diag = t.diag ∧ t'.config = t.config
        ∧ (t.run = .running → ∀ r, destOf i = some r → t'.reg r = t.reg r)

/-- Memory and the transmit stream change only when the fetched word is SB or SW; the configuration never changes. -/
def Obligations.OnlyStoresChangeMemory : Prop :=
  ∀ s t : State, step s = .next t →
    t.config = s.config ∧
      ((t.mem ≠ s.mem ∨ t.tx ≠ s.tx) → ∃ w, routerReadWord s.pc s = some w ∧ isStore (decode w) = true)

/-- R45: `tx` is empty at construction, a write to the transmit register appends its byte and never fails, and a step leaves
`tx` alone or appends one byte. -/
def Obligations.TransmitAppendsOneByte : Prop :=
  (∀ c, (State.construct c).tx = [])
  ∧ (∀ (b : Byte) (s : State), ∃ t, routerWriteByte 0x1000_0000#32 b s = .ok t ∧ t.tx = s.tx ++ [b])
  ∧ ∀ s t : State, step s = .next t → t.tx = s.tx ∨ ∃ b : Byte, t.tx = s.tx ++ [b]

/-- `diag` is empty at construction, and a step appends one event for a decode anomaly and none otherwise (R46). -/
def Obligations.DiagRecordsEachAnomaly : Prop :=
  (∀ c, (State.construct c).diag = [])
  ∧ ∀ s t : State, s.run = .running → step s = .next t →
      t.diag = s.diag ++ (match routerReadWord s.pc s with | some w => eventsOf s w | none => [])

/-- A step raises at most one event: it never both halts and records an anomaly (R307). -/
def Obligations.OneEventPerStep : Prop :=
  ∀ s t : State, step s = .next t → (t.run = s.run ∨ t.diag = s.diag) ∧ t.diag.length ≤ s.diag.length + 1

/-! ## Invariants -/

/-- The state right after reset, which is construction at the default MEM_SIZE_MIB of 16 (the model's choice, log 1), and the
state after any load into a legal configuration meet the invariant. -/
def Obligations.ResetIsWellFormed : Prop :=
  State.reset = State.construct { memSizeMib := 16 } ∧ State.reset.wf
  ∧ ∀ (c : Config) (p : HostParams) (img : Image) (s : State), c.legal → boot c p img = .next s → s.wf

/-- Every step keeps the invariant: slot 0 holds 0 (R31), memory stays canonical and within RAM (R43), and the configuration
stays legal (R10). That a slot 0 is kept at all is the model's (log 3). -/
def Obligations.StepKeepsWellFormed : Prop := ∀ s t : State, s.wf → step s = .next t → t.wf

/-- Every step keeps the soundness of the diagnostic list: each event is of an aligned word that is an anomaly of its kind. -/
def Obligations.StepKeepsDiagSound : Prop := ∀ s t : State, DiagSound s → step s = .next t → DiagSound t

/-- Every step keeps the soundness of the fault record: it names the instruction the PC stands at (R42). -/
def Obligations.StepKeepsFaultRecordSound : Prop :=
  ∀ s t : State, FaultRecordSound s → step s = .next t → FaultRecordSound t

/-! ## Upper immediates and jumps (41_upper_and_jumps.md) -/

/-- R170 and R171: LUI and AUIPC, their encodings and their results. -/
def Obligations.UpperImmediateResults : Prop :=
  EncodedAs 0x0000_007F 0x0000_0037 (fun w => .lui (w.extractLsb' 7 5) (w.extractLsb' 12 20))
  ∧ EncodedAs 0x0000_007F 0x0000_0017 (fun w => .auipc (w.extractLsb' 7 5) (w.extractLsb' 12 20))
  ∧ (∀ rd imm s, ∃ t, exec (.lui rd imm) s = .next t
      ∧ WritesOnly rd (BitVec.ofNat 32 (imm.toNat * 4096)) (s.pc + 4) s t)
  ∧ ∀ rd imm s, ∃ t, exec (.auipc rd imm) s = .next t
      ∧ WritesOnly rd (BitVec.ofNat 32 (s.pc.toNat + imm.toNat * 4096)) (s.pc + 4) s t

/-- R172: JAL, its encoding, its link and target, and what the next fetch does at the target. -/
def Obligations.JalResult : Prop :=
  EncodedAs 0x0000_007F 0x0000_006F (fun w => .jal (w.extractLsb' 7 5)
    (w.extractLsb' 31 1 ++ w.extractLsb' 12 8 ++ w.extractLsb' 20 1 ++ w.extractLsb' 21 10 ++ 0#1))
  ∧ ∀ rd off s, ∃ t, exec (.jal rd off) s = .next t
      ∧ WritesOnly rd (s.pc + 4) (BitVec.ofInt 32 (s.pc.toNat + off.toInt)) s t ∧ NextFetchChecked t

/-- JALR (R173): its encoding, its result at an even target, from the old `rs1`, and its refusal at an odd one (both the spec's
decision D4). -/
def Obligations.JalrResult : Prop :=
  EncodedAs 0x0000_707F 0x0000_0067 (fun w => .jalr (w.extractLsb' 7 5) (w.extractLsb' 15 5) (w.extractLsb' 20 12))
  ∧ (∀ w : Word, w.extractLsb' 0 7 = 0x67#7 → w.extractLsb' 12 3 ≠ 0#3 → classOf (decode w) = .unsettled .u1)
  ∧ ∀ rd rs1 imm s,
      ((((s.reg rs1).toNat : Int) + imm.toInt) % 2 = 0 → ∃ t, exec (.jalr rd rs1 imm) s = .next t
        ∧ WritesOnly rd (s.pc + 4) (BitVec.ofInt 32 ((s.reg rs1).toNat + imm.toInt)) s t ∧ NextFetchChecked t)
      ∧ ((((s.reg rs1).toNat : Int) + imm.toInt) % 2 = 1 → exec (.jalr rd rs1 imm) s = .refused .jalrOddTarget)

/-! ## Branches (42_branches.md) -/

/-- What a branch rule says of one branch: its encoding under `0x0000_707F`, the target where the condition holds, `pc + 4`
where it does not, and what the next fetch does there. -/
def Sys2Proof.Machine.BranchRule (mk : RegIdx → RegIdx → BitVec 13 → Instr) (word : Word) (cond : Word → Word → Prop) :
    Prop :=
  EncodedAs 0x0000_707F word (fun w => mk (w.extractLsb' 15 5) (w.extractLsb' 20 5)
    (w.extractLsb' 31 1 ++ w.extractLsb' 7 1 ++ w.extractLsb' 25 6 ++ w.extractLsb' 8 4 ++ 0#1))
  ∧ ∀ rs1 rs2 off s, ∃ t, exec (mk rs1 rs2 off) s = .next t
      ∧ (cond (s.reg rs1) (s.reg rs2) → MovesPcOnly (BitVec.ofInt 32 (s.pc.toNat + off.toInt)) s t)
      ∧ (¬ cond (s.reg rs1) (s.reg rs2) → MovesPcOnly (s.pc + 4) s t)
      ∧ NextFetchChecked t

/-- R190 to R196: the six branches, and the excluded funct3 values. -/
def Obligations.BranchResults : Prop :=
  BranchRule Instr.beq 0x0000_0063 (fun a b => a = b)
  ∧ BranchRule Instr.bne 0x0000_1063 (fun a b => a ≠ b)
  ∧ BranchRule Instr.blt 0x0000_4063 (fun a b => a.toInt < b.toInt)
  ∧ BranchRule Instr.bge 0x0000_5063 (fun a b => b.toInt ≤ a.toInt)
  ∧ BranchRule Instr.bltu 0x0000_6063 (fun a b => a.toNat < b.toNat)
  ∧ BranchRule Instr.bgeu 0x0000_7063 (fun a b => b.toNat ≤ a.toNat)
  ∧ ∀ w : Word, w.extractLsb' 0 7 = 0x63#7 → w.extractLsb' 12 3 ∈ [2#3, 3#3] →
      classOf (decode w) = .anomaly .unknownFunct

/-! ## Loads and stores (43_loads_stores.md) -/

/-- R211 and R212: LB and LBU. Where the effective address is mapped they write the byte read there, sign- or zero-extended;
where it is not they halt with a LoadFault. The step reports `Continue` or `Fault(LoadFault)` (R161). -/
def Obligations.LoadByteResults : Prop :=
  EncodedAs 0x0000_707F 0x0000_0003 (fun w => .lb (w.extractLsb' 7 5) (w.extractLsb' 15 5) (w.extractLsb' 20 12))
  ∧ EncodedAs 0x0000_707F 0x0000_4003 (fun w => .lbu (w.extractLsb' 7 5) (w.extractLsb' 15 5) (w.extractLsb' 20 12))
  ∧ ∀ (rd rs1 : RegIdx) (imm : BitVec 12) (s : State) (ea : Word),
      ea = BitVec.ofInt 32 ((s.reg rs1).toNat + imm.toInt) →
      (Mapped s ea → ∃ b, routerReadByte ea s = some b
        ∧ (∃ t, exec (.lb rd rs1 imm) s = .next t ∧ WritesOnly rd (BitVec.ofInt 32 b.toInt) (s.pc + 4) s t)
        ∧ ∃ t, exec (.lbu rd rs1 imm) s = .next t ∧ WritesOnly rd (BitVec.ofNat 32 b.toNat) (s.pc + 4) s t)
      ∧ (¬ Mapped s ea →
        (∃ t, exec (.lb rd rs1 imm) s = .next t ∧ HaltsOnly (.haltedFault ⟨.loadFault, s.pc, ea⟩) s t)
        ∧ ∃ t, exec (.lbu rd rs1 imm) s = .next t ∧ HaltsOnly (.haltedFault ⟨.loadFault, s.pc, ea⟩) s t)
      ∧ (RunsNext s (.lb rd rs1 imm) ∨ RunsNext s (.lbu rd rs1 imm) →
        (Mapped s ea → stepResult s = .continue) ∧ (¬ Mapped s ea → stepResult s = .fault .loadFault))

/-- R213: LW, at any alignment. Where its four bytes are mapped it writes their little-endian word; where one is not it halts
with a LoadFault. The step reports `Continue` or `Fault(LoadFault)` (R161). -/
def Obligations.LoadWordResult : Prop :=
  EncodedAs 0x0000_707F 0x0000_2003 (fun w => .lw (w.extractLsb' 7 5) (w.extractLsb' 15 5) (w.extractLsb' 20 12))
  ∧ ∀ (rd rs1 : RegIdx) (imm : BitVec 12) (s : State) (ea : Word),
      ea = BitVec.ofInt 32 ((s.reg rs1).toNat + imm.toInt) →
      ((∀ k, k < 4 → Mapped s (nth ea k)) →
        ∃ b0 b1 b2 b3, routerReadByte ea s = some b0 ∧ routerReadByte (nth ea 1) s = some b1
          ∧ routerReadByte (nth ea 2) s = some b2 ∧ routerReadByte (nth ea 3) s = some b3
          ∧ ∃ t, exec (.lw rd rs1 imm) s = .next t ∧ WritesOnly rd (b3 ++ b2 ++ b1 ++ b0) (s.pc + 4) s t)
      ∧ ((∃ k, k < 4 ∧ ¬ Mapped s (nth ea k)) →
        ∃ t, exec (.lw rd rs1 imm) s = .next t ∧ HaltsOnly (.haltedFault ⟨.loadFault, s.pc, ea⟩) s t)
      ∧ (RunsNext s (.lw rd rs1 imm) →
        ((∀ k, k < 4 → Mapped s (nth ea k)) → stepResult s = .continue)
          ∧ ((∃ k, k < 4 ∧ ¬ Mapped s (nth ea k)) → stepResult s = .fault .loadFault))

/-- R214: SB. Where the effective address is mapped it stores the low byte of `rs2` there, or transmits it, or has no effect in
the rest of the window; where it is not it halts with a StoreFault and nothing is written. The step reports
`Continue` or `Fault(StoreFault)` (R161). -/
def Obligations.StoreByteResult : Prop :=
  EncodedAs 0x0000_707F 0x0000_0023 (fun w => .sb (w.extractLsb' 15 5) (w.extractLsb' 20 5)
    (w.extractLsb' 25 7 ++ w.extractLsb' 7 5))
  ∧ ∀ (rs1 rs2 : RegIdx) (imm : BitVec 12) (s : State) (ea : Word),
      ea = BitVec.ofInt 32 ((s.reg rs1).toNat + imm.toInt) →
      (Mapped s ea → ∃ t, exec (.sb rs1 rs2 imm) s = .next t
        ∧ t.pc = s.pc + 4 ∧ t.run = s.run ∧ SameRegs s t ∧ StoredBytes ea (s.reg rs2) 1 s t)
      ∧ (¬ Mapped s ea → ∃ t, exec (.sb rs1 rs2 imm) s = .next t
        ∧ HaltsOnly (.haltedFault ⟨.storeFault, s.pc, ea⟩) s t)
      ∧ (RunsNext s (.sb rs1 rs2 imm) →
        (Mapped s ea → stepResult s = .continue) ∧ (¬ Mapped s ea → stepResult s = .fault .storeFault))

/-- R215: SW, at any alignment. Where its four bytes are mapped it stores them, low byte first, with a byte at the transmit
register transmitted; where byte `n` is the first that is not, bytes 0 to `n - 1` stay written and it halts with a
StoreFault. The step reports `Continue` or `Fault(StoreFault)` (R161). -/
def Obligations.StoreWordResult : Prop :=
  EncodedAs 0x0000_707F 0x0000_2023 (fun w => .sw (w.extractLsb' 15 5) (w.extractLsb' 20 5)
    (w.extractLsb' 25 7 ++ w.extractLsb' 7 5))
  ∧ ∀ (rs1 rs2 : RegIdx) (imm : BitVec 12) (s : State) (ea : Word),
      ea = BitVec.ofInt 32 ((s.reg rs1).toNat + imm.toInt) →
      ((∀ k, k < 4 → Mapped s (nth ea k)) → ∃ t, exec (.sw rs1 rs2 imm) s = .next t
        ∧ t.pc = s.pc + 4 ∧ t.run = s.run ∧ SameRegs s t ∧ StoredBytes ea (s.reg rs2) 4 s t)
      ∧ (∀ n, n < 4 → (∀ k, k < n → Mapped s (nth ea k)) → ¬ Mapped s (nth ea n) →
        ∃ t, exec (.sw rs1 rs2 imm) s = .next t ∧ t.pc = s.pc ∧ SameRegs s t
          ∧ t.run = .haltedFault ⟨.storeFault, s.pc, ea⟩ ∧ StoredBytes ea (s.reg rs2) n s t)
      ∧ (RunsNext s (.sw rs1 rs2 imm) →
        ((∀ k, k < 4 → Mapped s (nth ea k)) → stepResult s = .continue)
          ∧ ((∃ k, k < 4 ∧ ¬ Mapped s (nth ea k)) → stepResult s = .fault .storeFault))

/-! ## Register-immediate operations (44_op_imm.md) -/

/-- R231 to R234: ADDI, XORI, ORI and ANDI, with the immediate sign-extended. -/
def Obligations.OpImmResults : Prop :=
  EncodedAs 0x0000_707F 0x0000_0013 (fun w => .addi (w.extractLsb' 7 5) (w.extractLsb' 15 5) (w.extractLsb' 20 12))
  ∧ EncodedAs 0x0000_707F 0x0000_4013 (fun w => .xori (w.extractLsb' 7 5) (w.extractLsb' 15 5) (w.extractLsb' 20 12))
  ∧ EncodedAs 0x0000_707F 0x0000_6013 (fun w => .ori (w.extractLsb' 7 5) (w.extractLsb' 15 5) (w.extractLsb' 20 12))
  ∧ EncodedAs 0x0000_707F 0x0000_7013 (fun w => .andi (w.extractLsb' 7 5) (w.extractLsb' 15 5) (w.extractLsb' 20 12))
  ∧ ∀ rd rs1 imm s,
      (∃ t, exec (.addi rd rs1 imm) s = .next t
        ∧ WritesOnly rd (BitVec.ofInt 32 ((s.reg rs1).toNat + imm.toInt)) (s.pc + 4) s t)
      ∧ (∃ t, exec (.xori rd rs1 imm) s = .next t
        ∧ WritesOnly rd (s.reg rs1 ^^^ BitVec.ofInt 32 imm.toInt) (s.pc + 4) s t)
      ∧ (∃ t, exec (.ori rd rs1 imm) s = .next t
        ∧ WritesOnly rd (s.reg rs1 ||| BitVec.ofInt 32 imm.toInt) (s.pc + 4) s t)
      ∧ ∃ t, exec (.andi rd rs1 imm) s = .next t
        ∧ WritesOnly rd (s.reg rs1 &&& BitVec.ofInt 32 imm.toInt) (s.pc + 4) s t

/-- SLLI, SRLI and SRAI (R235 to R237) by `w[24:20]` (the spec's decision D3), and the words their encodings leave unsettled
(U3, U4). -/
def Obligations.ShiftImmediateResults : Prop :=
  EncodedAs 0xFE00_707F 0x0000_1013 (fun w => .slli (w.extractLsb' 7 5) (w.extractLsb' 15 5) (w.extractLsb' 20 5))
  ∧ EncodedAs 0xFE00_707F 0x0000_5013 (fun w => .srli (w.extractLsb' 7 5) (w.extractLsb' 15 5) (w.extractLsb' 20 5))
  ∧ EncodedAs 0xFE00_707F 0x4000_5013 (fun w => .srai (w.extractLsb' 7 5) (w.extractLsb' 15 5) (w.extractLsb' 20 5))
  ∧ (∀ w : Word, w.extractLsb' 0 7 = 0x13#7 → w.extractLsb' 12 3 = 1#3 → w.extractLsb' 25 7 ≠ 0x00#7 →
      classOf (decode w) = .unsettled .u3)
  ∧ (∀ w : Word, w.extractLsb' 0 7 = 0x13#7 → w.extractLsb' 12 3 = 5#3 → w.extractLsb' 25 7 ≠ 0x00#7 →
      w.extractLsb' 25 7 ≠ 0x20#7 → classOf (decode w) = .unsettled .u4)
  ∧ ∀ rd rs1 shamt s,
      (∃ t, exec (.slli rd rs1 shamt) s = .next t
        ∧ WritesOnly rd (BitVec.ofNat 32 ((s.reg rs1).toNat * 2 ^ shamt.toNat)) (s.pc + 4) s t)
      ∧ (∃ t, exec (.srli rd rs1 shamt) s = .next t
        ∧ WritesOnly rd (BitVec.ofNat 32 ((s.reg rs1).toNat / 2 ^ shamt.toNat)) (s.pc + 4) s t)
      ∧ ∃ t, exec (.srai rd rs1 shamt) s = .next t
        ∧ WritesOnly rd (BitVec.ofInt 32 ((s.reg rs1).toInt / 2 ^ shamt.toNat)) (s.pc + 4) s t

/-! ## Register-register operations (45_op.md) -/

/-- R251, R252, R256, R259 and R260: ADD, SUB, XOR, OR and AND. -/
def Obligations.ArithmeticLogicResults : Prop :=
  EncodedAs 0xFE00_707F 0x0000_0033 (fun w => .add (w.extractLsb' 7 5) (w.extractLsb' 15 5) (w.extractLsb' 20 5))
  ∧ EncodedAs 0xFE00_707F 0x4000_0033 (fun w => .sub (w.extractLsb' 7 5) (w.extractLsb' 15 5) (w.extractLsb' 20 5))
  ∧ EncodedAs 0xFE00_707F 0x0000_4033 (fun w => .xor (w.extractLsb' 7 5) (w.extractLsb' 15 5) (w.extractLsb' 20 5))
  ∧ EncodedAs 0xFE00_707F 0x0000_6033 (fun w => .or (w.extractLsb' 7 5) (w.extractLsb' 15 5) (w.extractLsb' 20 5))
  ∧ EncodedAs 0xFE00_707F 0x0000_7033 (fun w => .and (w.extractLsb' 7 5) (w.extractLsb' 15 5) (w.extractLsb' 20 5))
  ∧ ∀ rd rs1 rs2 s,
      (∃ t, exec (.add rd rs1 rs2) s = .next t
        ∧ WritesOnly rd (BitVec.ofNat 32 ((s.reg rs1).toNat + (s.reg rs2).toNat)) (s.pc + 4) s t)
      ∧ (∃ t, exec (.sub rd rs1 rs2) s = .next t
        ∧ WritesOnly rd (BitVec.ofInt 32 (((s.reg rs1).toNat : Int) - ((s.reg rs2).toNat : Int))) (s.pc + 4) s t)
      ∧ (∃ t, exec (.xor rd rs1 rs2) s = .next t ∧ WritesOnly rd (s.reg rs1 ^^^ s.reg rs2) (s.pc + 4) s t)
      ∧ (∃ t, exec (.or rd rs1 rs2) s = .next t ∧ WritesOnly rd (s.reg rs1 ||| s.reg rs2) (s.pc + 4) s t)
      ∧ ∃ t, exec (.and rd rs1 rs2) s = .next t ∧ WritesOnly rd (s.reg rs1 &&& s.reg rs2) (s.pc + 4) s t

/-- SLL, SRL and SRA (R253, R257, R258) by the low five bits of `rs2` (the spec's decision D3). -/
def Obligations.RegisterShiftResults : Prop :=
  EncodedAs 0xFE00_707F 0x0000_1033 (fun w => .sll (w.extractLsb' 7 5) (w.extractLsb' 15 5) (w.extractLsb' 20 5))
  ∧ EncodedAs 0xFE00_707F 0x0000_5033 (fun w => .srl (w.extractLsb' 7 5) (w.extractLsb' 15 5) (w.extractLsb' 20 5))
  ∧ EncodedAs 0xFE00_707F 0x4000_5033 (fun w => .sra (w.extractLsb' 7 5) (w.extractLsb' 15 5) (w.extractLsb' 20 5))
  ∧ ∀ rd rs1 rs2 s,
      (∃ t, exec (.sll rd rs1 rs2) s = .next t
        ∧ WritesOnly rd (BitVec.ofNat 32 ((s.reg rs1).toNat * 2 ^ ((s.reg rs2).toNat % 32))) (s.pc + 4) s t)
      ∧ (∃ t, exec (.srl rd rs1 rs2) s = .next t
        ∧ WritesOnly rd (BitVec.ofNat 32 ((s.reg rs1).toNat / 2 ^ ((s.reg rs2).toNat % 32))) (s.pc + 4) s t)
      ∧ ∃ t, exec (.sra rd rs1 rs2) s = .next t
        ∧ WritesOnly rd (BitVec.ofInt 32 ((s.reg rs1).toInt / 2 ^ ((s.reg rs2).toNat % 32))) (s.pc + 4) s t

/-- R254 and R255: SLT and SLTU write 1 or 0. -/
def Obligations.CompareResults : Prop :=
  EncodedAs 0xFE00_707F 0x0000_2033 (fun w => .slt (w.extractLsb' 7 5) (w.extractLsb' 15 5) (w.extractLsb' 20 5))
  ∧ EncodedAs 0xFE00_707F 0x0000_3033 (fun w => .sltu (w.extractLsb' 7 5) (w.extractLsb' 15 5) (w.extractLsb' 20 5))
  ∧ ∀ rd rs1 rs2 s,
      (∃ t, exec (.slt rd rs1 rs2) s = .next t
        ∧ WritesOnly rd (if (s.reg rs1).toInt < (s.reg rs2).toInt then 1#32 else 0#32) (s.pc + 4) s t)
      ∧ ∃ t, exec (.sltu rd rs1 rs2) s = .next t
        ∧ WritesOnly rd (if (s.reg rs1).toNat < (s.reg rs2).toNat then 1#32 else 0#32) (s.pc + 4) s t

/-! ## System call, anomalies, unsettled words (46_system_and_anomalies.md) -/

/-- R270: the word 0x0000_0073, and no other SYSTEM word, is ECALL; it halts cleanly whatever the state holds, leaves the PC at
its own address, reports `HaltClean`, and the block never resumes. -/
def Obligations.EcallHaltsCleanly : Prop :=
  EncodedAs 0xFFFF_FFFF 0x0000_0073 (fun _ => .ecall)
  ∧ (∀ w : Word, w.extractLsb' 0 7 = 0x73#7 → w ≠ 0x0000_0073#32 → classOf (decode w) = .unsettled .u7)
  ∧ (∀ s : State, ∃ t, exec .ecall s = .next t ∧ HaltsOnly .haltedClean s t ∧ step t = .next t)
  ∧ ∀ s : State, s.run = .running → s.pc.toNat % 4 = 0 → routerReadWord s.pc s = some 0x0000_0073#32 →
      stepResult s = .haltClean

/-- What an anomaly rule says: one event in `diag`, `npc = pc + 4`, and nothing else; the run goes on. -/
def Sys2Proof.Machine.SkipsWith (kind : AnomalyKind) (w : Word) (s t : State) : Prop :=
  t.diag = s.diag ++ [⟨kind, s.pc, w⟩] ∧ t.pc = s.pc + 4 ∧ SameRegs s t ∧ SameBytes s t ∧ t.run = s.run ∧ t.tx = s.tx
    ∧ t.config = s.config

/-- R271: a word whose opcode is none of the ten is skipped with an UnknownOpcode event. -/
def Obligations.UnknownOpcodeSkips : Prop :=
  (∀ w : Word,
    w.extractLsb' 0 7 ∉ [0x37#7, 0x17#7, 0x6F#7, 0x67#7, 0x63#7, 0x03#7, 0x23#7, 0x13#7, 0x33#7, 0x73#7] →
    decode w = .anyOtherOpcode w)
  ∧ (∀ (w : Word) (s : State), ∃ t, exec (.anyOtherOpcode w) s = .next t ∧ SkipsWith .unknownOpcode w s t)
  ∧ ∀ (w : Word) (s : State), s.run = .running → s.pc.toNat % 4 = 0 → routerReadWord s.pc s = some w →
      classOf (decode w) = .anomaly .unknownOpcode → stepResult s = .continue

/-- R272: a BRANCH, LOAD or STORE word with an excluded funct3 is skipped with an UnknownFunct event; no access is made. -/
def Obligations.UnknownFunctSkips : Prop :=
  (∀ w : Word, w.extractLsb' 0 7 = 0x63#7 → w.extractLsb' 12 3 ∈ [2#3, 3#3] → decode w = .otherBranch w)
  ∧ (∀ w : Word, w.extractLsb' 0 7 = 0x03#7 → w.extractLsb' 12 3 ∈ [1#3, 3#3, 5#3, 6#3, 7#3] →
      decode w = .otherLoad w)
  ∧ (∀ w : Word, w.extractLsb' 0 7 = 0x23#7 → w.extractLsb' 12 3 ∈ [1#3, 3#3, 4#3, 5#3, 6#3, 7#3] →
      decode w = .otherStore w)
  ∧ (∀ (w : Word) (s : State),
      (∃ t, exec (.otherBranch w) s = .next t ∧ SkipsWith .unknownFunct w s t)
      ∧ (∃ t, exec (.otherLoad w) s = .next t ∧ SkipsWith .unknownFunct w s t)
      ∧ ∃ t, exec (.otherStore w) s = .next t ∧ SkipsWith .unknownFunct w s t)
  ∧ ∀ (w : Word) (s : State), s.run = .running → s.pc.toNat % 4 = 0 → routerReadWord s.pc s = some w →
      classOf (decode w) = .anomaly .unknownFunct → stepResult s = .continue

/-- The unsettled words are refused, each under its group (R273, the spec's decision D2). -/
def Obligations.UnsettledWordsRefused : Prop :=
  (∀ (w : Word) (s : State), exec (.otherJalr w) s = .refused (.unsettled .u1))
  ∧ (∀ (w : Word) (s : State), w.extractLsb' 12 3 ∈ [2#3, 3#3] → exec (.otherOpImm w) s = .refused (.unsettled .u2))
  ∧ (∀ (w : Word) (s : State), w.extractLsb' 12 3 = 1#3 → exec (.otherOpImm w) s = .refused (.unsettled .u3))
  ∧ (∀ (w : Word) (s : State), w.extractLsb' 12 3 = 5#3 → exec (.otherOpImm w) s = .refused (.unsettled .u4))
  ∧ (∀ (w : Word) (s : State), w.extractLsb' 25 7 = 0x20#7 → exec (.otherOp w) s = .refused (.unsettled .u5))
  ∧ (∀ (w : Word) (s : State), w.extractLsb' 25 7 ≠ 0x20#7 → exec (.otherOp w) s = .refused (.unsettled .u6))
  ∧ (∀ (w : Word) (s : State), exec (.otherSystem w) s = .refused (.unsettled .u7))
  ∧ ∀ (w : Word) (s : State) (u : Unsettled), s.run = .running → s.pc.toNat % 4 = 0 →
      routerReadWord s.pc s = some w → classOf (decode w) = .unsettled u →
      step s = .refused (.unsettled u) ∧ stepResult s = .refused (.unsettled u)

/-! ## Memory and the router (20_memory.md) -/

/-- R65: the router's byte read over the whole address space. -/
def Obligations.RouterReadsByte : Prop :=
  ∀ (a : Word) (s : State),
    (a = 0x1000_0004#32 → routerReadByte a s = some 0x01#8)
    ∧ (Window a → a ≠ 0x1000_0004#32 → routerReadByte a s = some 0x00#8)
    ∧ (¬ Window a → routerReadByte a s = memoryReadByte a s)
    ∧ (Ram s a → routerReadByte a s = some (s.mem.read a.toNat))
    ∧ (¬ Mapped s a → routerReadByte a s = none)

/-- The router's word read (R67): four byte reads at `u32(a + k)`, assembled little-endian, failing if any fails. That the
addresses wrap is the spec's decision D7. -/
def Obligations.RouterReadsWord : Prop :=
  ∀ (a : Word) (s : State),
    ((∃ k, k < 4 ∧ routerReadByte (nth a k) s = none) → routerReadWord a s = none)
    ∧ ∀ b0 b1 b2 b3, routerReadByte a s = some b0 → routerReadByte (nth a 1) s = some b1 →
        routerReadByte (nth a 2) s = some b2 → routerReadByte (nth a 3) s = some b3 →
        routerReadWord a s = some (b3 ++ b2 ++ b1 ++ b0)

/-- R64 and R66: the memory leaf's byte access and the router's byte write over the whole address space. -/
def Obligations.RouterWritesByte : Prop :=
  ∀ (a : Word) (b : Byte) (s : State),
    (a.toNat < s.config.memSizeMib * 1048576 →
      memoryReadByte a s = some (s.mem.read a.toNat)
      ∧ ∃ t, memoryWriteByte a b s = .ok t ∧ t = { s with mem := t.mem }
          ∧ ∀ m, t.mem.read m = if m = a.toNat then b else s.mem.read m)
    ∧ (s.config.memSizeMib * 1048576 ≤ a.toNat →
      memoryReadByte a s = none ∧ memoryWriteByte a b s = .outOfRange s)
    ∧ (a = 0x1000_0000#32 → routerWriteByte a b s = .ok { s with tx := s.tx ++ [b] })
    ∧ (Window a → a ≠ 0x1000_0000#32 → routerWriteByte a b s = .ok s)
    ∧ (¬ Window a → routerWriteByte a b s = memoryWriteByte a b s)

/-- The word-store special case cannot be told apart from the byte-wise path (R69): at every address, with every value and in
every state, the four byte writes in ascending order, stopping at the first that fails, do the same. -/
def Obligations.WordStoreIsBytewise : Prop :=
  ∀ (a v : Word) (s : State),
    routerWriteWord a v s =
      match routerWriteByte a (v.extractLsb' 0 8) s with
      | .outOfRange t0 => .outOfRange t0
      | .ok t0 =>
        match routerWriteByte (nth a 1) (v.extractLsb' 8 8) t0 with
        | .outOfRange t1 => .outOfRange t1
        | .ok t1 =>
          match routerWriteByte (nth a 2) (v.extractLsb' 16 8) t1 with
          | .outOfRange t2 => .outOfRange t2
          | .ok t2 => routerWriteByte (nth a 3) (v.extractLsb' 24 8) t2

/-- Mixed-width accesses to RAM see the same bytes (R73, which the spec derives from R64, R67 and R68). -/
def Obligations.MixedWidthAccessesAgree : Prop :=
  (∀ (s : State) (a : Word) (b : Byte) (k : Nat) (v : Word), k < 4 →
    (∀ j, j < 4 → Ram s (nth (a - BitVec.ofNat 32 k) j)) → routerReadWord (a - BitVec.ofNat 32 k) s = some v →
    ∃ t v', routerWriteByte a b s = .ok t ∧ routerReadWord (a - BitVec.ofNat 32 k) t = some v'
      ∧ v'.extractLsb' (8 * k) 8 = b ∧ ∀ j, j < 4 → j ≠ k → v'.extractLsb' (8 * j) 8 = v.extractLsb' (8 * j) 8)
  ∧ ∀ (s : State) (a v : Word), (∀ j, j < 4 → Ram s (nth a j)) →
    ∃ t, routerWriteWord a v s = .ok t ∧ routerReadWord a t = some v
      ∧ ∀ k, k < 4 → routerReadByte (nth a k) t = some (v.extractLsb' (8 * k) 8)

/-- A store is seen by every later fetch (R83): after SB, or SW at any alignment, completes, a running block that fetches from
RAM runs the word whose bytes are the stored ones where they overlap the fetched word, and the earlier ones elsewhere. -/
def Obligations.FetchSeesEarlierStore : Prop :=
  ∀ (i : Instr) (n : Nat) (rs1 rs2 : RegIdx) (imm : BitVec 12) (s t u : State) (ea : Word),
    (i = .sb rs1 rs2 imm ∧ n = 1) ∨ (i = .sw rs1 rs2 imm ∧ n = 4) →
    ea = BitVec.ofInt 32 ((s.reg rs1).toNat + imm.toInt) → (∀ j, j < n → Mapped s (nth ea j)) →
    exec i s = .next t → u.mem = t.mem → u.config = t.config → u.run = .running → u.pc.toNat % 4 = 0 → Ram s u.pc →
    ∃ w, step u = exec (decode w) u ∧ ∀ k, k < 4 →
      (∀ j, j < n → nth u.pc k = nth ea j → w.extractLsb' (8 * k) 8 = (s.reg rs2).extractLsb' (8 * j) 8)
      ∧ ((∀ j, j < n → nth u.pc k ≠ nth ea j) → routerReadByte (nth u.pc k) s = some (w.extractLsb' (8 * k) 8))

/-- RAM bytes under the window cannot be reached by the engine; what they hold changes no access to the window, and no
router write changes them (R63, which the spec derives from R61, R65, R66 and R71). -/
def Obligations.WindowShadowsRam : Prop :=
  (∀ (a : Word) (s : State) (m : Memory), Window a → routerReadByte a { s with mem := m } = routerReadByte a s)
  ∧ (∀ (a : Word) (b : Byte) (s : State) (n : Nat), 0x1000_0000 ≤ n → n < 0x1000_0100 →
      ∃ t, (routerWriteByte a b s = .ok t ∨ routerWriteByte a b s = .outOfRange t) ∧ t.mem.read n = s.mem.read n)

/-- The bulk load fails if any byte would land outside the array, and otherwise copies every byte and no more (R71). That an
empty buffer succeeds at every base is the model's reading (log 12). -/
def Obligations.BulkLoadAllOrNothing : Prop :=
  ∀ (m : Memory) (size base : Nat) (bytes : List Byte),
    ((∃ k, k < bytes.length ∧ size ≤ base + k) → m.loadBytes size base bytes = none)
    ∧ ((∀ k, k < bytes.length → base + k < size) → ∃ m', m.loadBytes size base bytes = some m'
        ∧ (∀ k b, bytes[k]? = some b → m'.read (base + k) = b)
        ∧ ∀ a, a < base ∨ base + bytes.length ≤ a → m'.read a = m.read a)

/-! ## Loading and the run loop (70_reset_and_hazards.md) -/

/-- R343: the initial PC. -/
def Obligations.InitialPcChosen : Prop :=
  (∀ (p : HostParams) (img : Image), p.pcOverride ≠ 0#32 → initialPc p img = p.pcOverride)
  ∧ (∀ (p : HostParams) (segments : List Segment) (entry : Word), p.pcOverride = 0#32 →
      initialPc p (.elf segments entry) = entry)
  ∧ (∀ (p : HostParams) (bytes : List Byte) (base : Word), p.pcOverride = 0#32 → initialPc p (.flat bytes base) = 0#32)
  ∧ (∀ (c : Config) (p : HostParams) (img : Image) (s : State), boot c p img = .next s →
      s.pc = initialPc p img ∧ (s.pc.toNat % 4 ≠ 0 → step s = .refused .misalignedFetch))

/-- Flat loading and its failure (R342): the file's bytes stand at the base, and a file that would extend past MEM_SIZE is a
LoadFailure. That an empty file loads at every base is the model's reading (log 12). -/
def Obligations.FlatImageLoads : Prop :=
  ∀ (c : Config) (p : HostParams) (bytes : List Byte) (base : Word),
    ((∃ k, k < bytes.length ∧ c.memSizeMib * 1048576 ≤ base.toNat + k) →
      boot c p (.flat bytes base) = .fault .loadFailure)
    ∧ ((∀ k, k < bytes.length → base.toNat + k < c.memSizeMib * 1048576) →
      ∃ s, boot c p (.flat bytes base) = .next s ∧ ∀ k b, bytes[k]? = some b → s.mem.read (base.toNat + k) = b)

/-- ELF loading (R341): segments that share an address are refused; a segment with a byte outside memory is a LoadFailure;
otherwise each segment's file bytes stand at its base and zeros follow them up to its memory size. The model's: overlap is
looked for first, so an image with both faults is refused (log 6); a segment larger in the file than in memory keeps all its
file bytes (log 9); an empty segment loads at every base (log 12). -/
def Obligations.ElfImageLoads : Prop :=
  ∀ (c : Config) (p : HostParams) (segments : List Segment) (entry : Word),
    let within := fun (g : Segment) (a : Nat) => g.base p.elfAddrField ≤ a ∧ a < g.base p.elfAddrField + g.extent
    (¬ segments.Pairwise (fun g h => ∀ a, ¬ (within g a ∧ within h a)) →
      boot c p (.elf segments entry) = .refused .overlappingSegments)
    ∧ (segments.Pairwise (fun g h => ∀ a, ¬ (within g a ∧ within h a)) →
        (∃ g ∈ segments, ∃ a, within g a ∧ c.memSizeMib * 1048576 ≤ a) →
        boot c p (.elf segments entry) = .fault .loadFailure)
    ∧ (segments.Pairwise (fun g h => ∀ a, ¬ (within g a ∧ within h a)) →
        (∀ g ∈ segments, ∀ a, within g a → a < c.memSizeMib * 1048576) →
        ∃ s, boot c p (.elf segments entry) = .next s
          ∧ ∀ g ∈ segments, ∀ k, k < g.extent → s.mem.read (g.base p.elfAddrField + k) = g.bytes.getD k 0#8)

/-- The host's loop (R347, R348) ends as the same number of calls of `step()` made one after the other would, a halted
machine being left alone; it makes no more calls than its budget, and all of them when it ends out of budget. -/
def Obligations.RunLoopMatchesSteps : Prop :=
  ∀ (n : Nat) (s : State),
    (∀ t, Host.Core.run Sys2Proof.core n s = .next t → runLoop n s = endOf t)
    ∧ (∀ r, Host.Core.run Sys2Proof.core n s = .refused r → runLoop n s = .refused r)
    ∧ (∀ f, Host.Core.run Sys2Proof.core n s ≠ .fault f)
    ∧ callsMade n s ≤ n ∧ (∀ t, runLoop n s = .outOfBudget t → callsMade n s = n ∧ t.run = .running)

/-! ## Pseudo-instructions (30_encoding.md R126) -/

/-- `li rd, imm` loads any 32-bit value and changes nothing else, in one or two instructions. R126 gives the expansion; that it
runs its instructions one after the other, without fetching them, is the model's (log 14). -/
def Obligations.LoadImmediateExpansion : Prop :=
  ∀ (rd : RegIdx) (imm : Word) (s : State), ∃ t, execAll (expand (.li rd imm)) s = .next t
    ∧ WritesOnly rd imm (s.pc + BitVec.ofNat 32 (4 * (expand (.li rd imm)).length)) s t

/-- `call` reaches any even target and links to the instruction after it, and is refused at an odd one; `la` forms any
address. R126 gives the expansions; that they run without fetching, and that a symbol stands as its distance from the first
instruction, is the model's (log 14). -/
def Obligations.PcRelativeExpansions : Prop :=
  ∀ (delta : Word) (s : State),
    ((s.pc.toNat + delta.toNat) % 2 = 0 → ∃ t, execAll (expand (.call delta)) s = .next t
      ∧ WritesOnly 1#5 (s.pc + 8) (s.pc + delta) s t)
    ∧ ((s.pc.toNat + delta.toNat) % 2 = 1 → execAll (expand (.call delta)) s = .refused .jalrOddTarget)
    ∧ ∀ rd : RegIdx, ∃ t, execAll (expand (.la rd delta)) s = .next t
      ∧ WritesOnly rd (s.pc + delta) (s.pc + 8) s t

/-! ## The step result (40_step.md R161) -/

/-- What every step reports (R161, R318): an instruction that completes and an anomaly report `Continue`, ECALL `HaltClean`, an
access that meets an unmapped byte the fault's kind, and a refused case its reason (the spec's decisions D2, D4, D5). -/
def Obligations.StepReportsHowItEnds : Prop :=
  (∀ (s : State) (i : Instr), RunsNext s i →
    (classOf i = .instr → (∀ a ∈ accessed s i, Mapped s a) →
      (∀ rd rs1 imm, i = .jalr rd rs1 imm → (((s.reg rs1).toNat : Int) + imm.toInt) % 2 = 0) → stepResult s = .continue)
    ∧ ((∃ a ∈ accessed s i, ¬ Mapped s a) →
        stepResult s = .fault (if isStore i then .storeFault else .loadFault))
    ∧ (∀ rd rs1 imm, i = .jalr rd rs1 imm → (((s.reg rs1).toNat : Int) + imm.toInt) % 2 = 1 →
        stepResult s = .refused .jalrOddTarget)
    ∧ (classOf i = .halt → stepResult s = .haltClean)
    ∧ (∀ kind, classOf i = .anomaly kind → stepResult s = .continue)
    ∧ ∀ u, classOf i = .unsettled u → stepResult s = .refused (.unsettled u))
  ∧ ∀ s : State, s.run = .running →
      (s.pc.toNat % 4 ≠ 0 → stepResult s = .refused .misalignedFetch)
      ∧ (s.pc.toNat % 4 = 0 → (∃ k, k < 4 ∧ ¬ Mapped s (nth s.pc k)) → stepResult s = .fault .fetchFault)
end

