-- ==== Sys2Proof/Laws/Arith.lean ====
section
/-! SUPPORT. The model's word operations as the integer arithmetic of R14: exact results, narrowed modulo 2^32. -/

namespace Sys2Proof.Machine

theorem ofInt_add_toInt {n : Nat} (a : Word) (x : BitVec n) :
    BitVec.ofInt 32 (a.toNat + x.toInt) = a + x.signExtend 32 := by
  rw [BitVec.ofInt_add, BitVec.ofInt_natCast, BitVec.ofNat_toNat, BitVec.setWidth_eq]
  rfl

theorem ofNat_add_four (a : Word) : BitVec.ofNat 32 (a.toNat + 4) = a + 4#32 := by
  rw [BitVec.ofNat_add, BitVec.ofNat_toNat, BitVec.setWidth_eq]

/-- `imm_u` is the field times 4096 (R111). -/
theorem immU_eq (imm : BitVec 20) : immU imm = BitVec.ofNat 32 (imm.toNat * 4096) := by
  apply BitVec.eq_of_toNat_eq
  have := imm.isLt
  rw [immU, BitVec.toNat_append, Nat.shiftLeft_eq, BitVec.toNat_ofNat (x := imm.toNat * 4096)]
  show imm.toNat * 4096 ||| 0 = _
  rw [Nat.or_zero]; omega

theorem auipc_eq (pc : Word) (imm : BitVec 20) :
    BitVec.ofNat 32 (pc.toNat + imm.toNat * 4096) = pc + immU imm := by
  rw [immU_eq, BitVec.ofNat_add, BitVec.ofNat_toNat, BitVec.setWidth_eq]

/-- Bit 0 of a sum is the sum's parity (R173). -/
theorem bit_zero_eq_parity (a : Word) (imm : BitVec 12) :
    (a + immI imm).extractLsb' 0 1 = 1#1 ↔ ((a.toNat : Int) + imm.toInt) % 2 = 1 := by
  rw [immI, ← ofInt_add_toInt]
  generalize (a.toNat : Int) + imm.toInt = n
  rw [← BitVec.toNat_inj]
  simp only [BitVec.extractLsb'_toNat, BitVec.toNat_ofInt, Nat.shiftRight_zero, BitVec.toNat_ofNat]
  omega

theorem ltSigned_eq (a b : Word) : ltSigned a b = decide (a.toInt < b.toInt) := rfl

theorem ltUnsigned_eq (a b : Word) : ltUnsigned a b = decide (a.toNat < b.toNat) := rfl

theorem boolWord_ltSigned (a b : Word) : boolWord (ltSigned a b) = if a.toInt < b.toInt then 1#32 else 0#32 := by
  simp [boolWord, ltSigned_eq]

theorem boolWord_ltUnsigned (a b : Word) : boolWord (ltUnsigned a b) = if a.toNat < b.toNat then 1#32 else 0#32 := by
  simp only [boolWord, ltUnsigned_eq, decide_eq_true_eq]

theorem shiftAmount_eq (b : Word) : shiftAmount b = b.toNat % 32 := by
  simp [shiftAmount, BitVec.extractLsb'_toNat]

theorem shiftLeft_eq (a : Word) (n : Nat) : a <<< n = BitVec.ofNat 32 (a.toNat * 2 ^ n) := by
  apply BitVec.eq_of_toNat_eq
  rw [BitVec.toNat_shiftLeft, BitVec.toNat_ofNat, Nat.shiftLeft_eq]

theorem shiftRight_eq (a : Word) (n : Nat) : a >>> n = BitVec.ofNat 32 (a.toNat / 2 ^ n) := by
  apply BitVec.eq_of_toNat_eq
  rw [BitVec.toNat_ushiftRight, BitVec.toNat_ofNat, Nat.shiftRight_eq_div_pow]
  exact (Nat.mod_eq_of_lt (Nat.lt_of_le_of_lt (Nat.div_le_self _ _) a.isLt)).symm

theorem sshiftRight_eq (a : Word) (n : Nat) : a.sshiftRight n = BitVec.ofInt 32 (a.toInt / 2 ^ n) := by
  rw [BitVec.sshiftRight, Int.shiftRight_eq_div_pow]
  norm_cast

theorem sub_eq (a b : Word) : BitVec.ofInt 32 ((a.toNat : Int) - (b.toNat : Int)) = a - b := by
  rw [Int.sub_eq_add_neg, BitVec.ofInt_add, BitVec.ofInt_neg, BitVec.ofInt_natCast, BitVec.ofInt_natCast,
    BitVec.sub_eq_add_neg]
  simp

theorem add_eq (a b : Word) : BitVec.ofNat 32 (a.toNat + b.toNat) = a + b := by
  rw [BitVec.ofNat_add]; simp

theorem sextByte_eq (b : Byte) : sextByte b = BitVec.ofInt 32 b.toInt := rfl

theorem zextByte_eq (b : Byte) : zextByte b = BitVec.ofNat 32 b.toNat := (BitVec.ofNat_toNat 32 b).symm

end Sys2Proof.Machine
end

