-- ==== Sys2Proof/Laws/Decode.lean ====
section
/-! SUPPORT. The bit fields of encoded words: every field a format lays down reads back, and a word's fields laid down again
give the word. -/

namespace Sys2Proof

variable (f7 op : BitVec 7) (f3 : BitVec 3) (rd rs1 rs2 : RegIdx)

/-! ## Fields of R words -/

theorem opcodeOf_encodeR : opcodeOf (encodeR f7 rs2 rs1 f3 rd op) = op := by
  simp only [opcodeOf, encodeR, BitVec.extractLsb'_append_eq_ite]; simp
theorem rdOf_encodeR : rdOf (encodeR f7 rs2 rs1 f3 rd op) = rd := by
  simp only [rdOf, encodeR, BitVec.extractLsb'_append_eq_ite]; simp
theorem funct3Of_encodeR : funct3Of (encodeR f7 rs2 rs1 f3 rd op) = f3 := by
  simp only [funct3Of, encodeR, BitVec.extractLsb'_append_eq_ite]; simp
theorem rs1Of_encodeR : rs1Of (encodeR f7 rs2 rs1 f3 rd op) = rs1 := by
  simp only [rs1Of, encodeR, BitVec.extractLsb'_append_eq_ite]; simp
theorem rs2Of_encodeR : rs2Of (encodeR f7 rs2 rs1 f3 rd op) = rs2 := by
  simp only [rs2Of, encodeR, BitVec.extractLsb'_append_eq_ite]; simp
theorem shamtOf_encodeR : shamtOf (encodeR f7 rs2 rs1 f3 rd op) = rs2 := rs2Of_encodeR f7 op f3 rd rs1 rs2
theorem funct7Of_encodeR : funct7Of (encodeR f7 rs2 rs1 f3 rd op) = f7 := by
  simp only [funct7Of, encodeR, BitVec.extractLsb'_append_eq_ite]; simp

/-! ## Fields of I words -/

theorem opcodeOf_encodeI (imm : BitVec 12) : opcodeOf (encodeI imm rs1 f3 rd op) = op := by
  simp only [opcodeOf, encodeI, BitVec.extractLsb'_append_eq_ite]; simp
theorem rdOf_encodeI (imm : BitVec 12) : rdOf (encodeI imm rs1 f3 rd op) = rd := by
  simp only [rdOf, encodeI, BitVec.extractLsb'_append_eq_ite]; simp
theorem funct3Of_encodeI (imm : BitVec 12) : funct3Of (encodeI imm rs1 f3 rd op) = f3 := by
  simp only [funct3Of, encodeI, BitVec.extractLsb'_append_eq_ite]; simp
theorem rs1Of_encodeI (imm : BitVec 12) : rs1Of (encodeI imm rs1 f3 rd op) = rs1 := by
  simp only [rs1Of, encodeI, BitVec.extractLsb'_append_eq_ite]; simp
theorem immIOf_encodeI (imm : BitVec 12) : immIOf (encodeI imm rs1 f3 rd op) = imm := by
  simp only [immIOf, encodeI, BitVec.extractLsb'_append_eq_ite]; simp

/-! ## Fields of S words -/

theorem opcodeOf_encodeS (imm : BitVec 12) : opcodeOf (encodeS imm rs2 rs1 f3 op) = op := by
  simp only [opcodeOf, encodeS, BitVec.extractLsb'_append_eq_ite]; simp
theorem funct3Of_encodeS (imm : BitVec 12) : funct3Of (encodeS imm rs2 rs1 f3 op) = f3 := by
  simp only [funct3Of, encodeS, BitVec.extractLsb'_append_eq_ite]; simp
theorem rs1Of_encodeS (imm : BitVec 12) : rs1Of (encodeS imm rs2 rs1 f3 op) = rs1 := by
  simp only [rs1Of, encodeS, BitVec.extractLsb'_append_eq_ite]; simp
theorem rs2Of_encodeS (imm : BitVec 12) : rs2Of (encodeS imm rs2 rs1 f3 op) = rs2 := by
  simp only [rs2Of, encodeS, BitVec.extractLsb'_append_eq_ite]; simp

/-! ## Fields of B words -/

theorem opcodeOf_encodeB (off : BitVec 13) : opcodeOf (encodeB off rs2 rs1 f3 op) = op := by
  simp only [opcodeOf, encodeB, BitVec.extractLsb'_append_eq_ite]; simp
theorem funct3Of_encodeB (off : BitVec 13) : funct3Of (encodeB off rs2 rs1 f3 op) = f3 := by
  simp only [funct3Of, encodeB, BitVec.extractLsb'_append_eq_ite]; simp
theorem rs1Of_encodeB (off : BitVec 13) : rs1Of (encodeB off rs2 rs1 f3 op) = rs1 := by
  simp only [rs1Of, encodeB, BitVec.extractLsb'_append_eq_ite]; simp
theorem rs2Of_encodeB (off : BitVec 13) : rs2Of (encodeB off rs2 rs1 f3 op) = rs2 := by
  simp only [rs2Of, encodeB, BitVec.extractLsb'_append_eq_ite]; simp

/-! ## Fields of U and J words -/

theorem opcodeOf_encodeU (imm : BitVec 20) : opcodeOf (encodeU imm rd op) = op := by
  simp only [opcodeOf, encodeU, BitVec.extractLsb'_append_eq_ite]; simp
theorem rdOf_encodeU (imm : BitVec 20) : rdOf (encodeU imm rd op) = rd := by
  simp only [rdOf, encodeU, BitVec.extractLsb'_append_eq_ite]; simp
theorem immUOf_encodeU (imm : BitVec 20) : immUOf (encodeU imm rd op) = imm := by
  simp only [immUOf, encodeU, BitVec.extractLsb'_append_eq_ite]; simp

theorem opcodeOf_encodeJ (off : BitVec 21) : opcodeOf (encodeJ off rd op) = op := by
  simp only [opcodeOf, encodeJ, BitVec.extractLsb'_append_eq_ite]; simp
theorem rdOf_encodeJ (off : BitVec 21) : rdOf (encodeJ off rd op) = rd := by
  simp only [rdOf, encodeJ, BitVec.extractLsb'_append_eq_ite]; simp

/-! ## Joining neighbouring fields -/

/-- Two neighbouring fields side by side are the field that covers both. -/
theorem extract_join {n : Nat} (x : BitVec n) (start low high : Nat) :
    x.extractLsb' (start + low) high ++ x.extractLsb' start low = x.extractLsb' start (high + low) :=
  BitVec.extractLsb'_append_extractLsb'_eq_extractLsb' rfl

/-- The bits a mask selects are the value's (the encodings' form `w & mask = value`). -/
theorem extract_of_and {w mask v : Word} {start len : Nat} (h : w &&& mask = v)
    (hm : mask.extractLsb' start len = BitVec.allOnes len) : w.extractLsb' start len = v.extractLsb' start len := by
  rw [← h, BitVec.extractLsb'_and, hm, BitVec.and_allOnes]

/-- A word is its four bytes, low byte first (R67, R72). -/
theorem wordOfBytes_bytes (w : Word) :
    wordOfBytes (w.extractLsb' 0 8) (w.extractLsb' 8 8) (w.extractLsb' 16 8) (w.extractLsb' 24 8) = w := by
  simp only [wordOfBytes]
  rw [extract_join w 16 8 8, extract_join w 8 8 16, extract_join w 0 8 24]
  exact BitVec.extractLsb'_eq_self

/-- The bytes of an assembled word are the bytes it was assembled from. -/
theorem bytes_wordOfBytes (b0 b1 b2 b3 : Byte) :
    (wordOfBytes b0 b1 b2 b3).extractLsb' 0 8 = b0 ∧ (wordOfBytes b0 b1 b2 b3).extractLsb' 8 8 = b1
      ∧ (wordOfBytes b0 b1 b2 b3).extractLsb' 16 8 = b2 ∧ (wordOfBytes b0 b1 b2 b3).extractLsb' 24 8 = b3 := by
  simp only [wordOfBytes, BitVec.extractLsb'_append_eq_ite]; simp

theorem immSOf_encodeS (imm : BitVec 12) : immSOf (encodeS imm rs2 rs1 f3 op) = imm := by
  simp only [immSOf, encodeS, BitVec.extractLsb'_append_eq_ite]
  simp
  have := extract_join imm 0 5 7
  simp only [Nat.zero_add, BitVec.extractLsb'_eq_self] at this
  exact this

theorem immBOf_encodeB (off : BitVec 13) (h : off.extractLsb' 0 1 = 0#1) : immBOf (encodeB off rs2 rs1 f3 op) = off := by
  simp only [immBOf, encodeB, BitVec.extractLsb'_append_eq_ite]
  simp
  rw [← h, extract_join off 11 1 1, extract_join off 5 6 2, extract_join off 1 4 8, extract_join off 0 1 12]
  exact BitVec.extractLsb'_eq_self

theorem immJOf_encodeJ (off : BitVec 21) (h : off.extractLsb' 0 1 = 0#1) : immJOf (encodeJ off rd op) = off := by
  simp only [immJOf, encodeJ, BitVec.extractLsb'_append_eq_ite]
  simp
  rw [← h, extract_join off 12 8 1, extract_join off 11 1 9, extract_join off 1 10 10, extract_join off 0 1 20]
  exact BitVec.extractLsb'_eq_self

/-! ## Laying a word's own fields down again -/

variable (w : Word)

theorem encodeR_fields : encodeR (funct7Of w) (rs2Of w) (rs1Of w) (funct3Of w) (rdOf w) (opcodeOf w) = w := by
  simp only [encodeR, funct7Of, rs2Of, rs1Of, funct3Of, rdOf, opcodeOf]
  rw [extract_join w 20 5 7, extract_join w 15 5 12, extract_join w 12 3 17, extract_join w 7 5 20, extract_join w 0 7 25]
  exact BitVec.extractLsb'_eq_self

theorem encodeI_fields : encodeI (immIOf w) (rs1Of w) (funct3Of w) (rdOf w) (opcodeOf w) = w := by
  simp only [encodeI, immIOf, rs1Of, funct3Of, rdOf, opcodeOf]
  rw [extract_join w 15 5 12, extract_join w 12 3 17, extract_join w 7 5 20, extract_join w 0 7 25]
  exact BitVec.extractLsb'_eq_self

theorem encodeS_fields : encodeS (immSOf w) (rs2Of w) (rs1Of w) (funct3Of w) (opcodeOf w) = w := by
  simp only [encodeS, immSOf, rs2Of, rs1Of, funct3Of, opcodeOf, BitVec.extractLsb'_append_eq_ite]
  simp
  rw [extract_join w 20 5 7, extract_join w 15 5 12, extract_join w 12 3 17, extract_join w 7 5 20, extract_join w 0 7 25]
  exact BitVec.extractLsb'_eq_self

theorem encodeB_fields : encodeB (immBOf w) (rs2Of w) (rs1Of w) (funct3Of w) (opcodeOf w) = w := by
  simp only [encodeB, immBOf, rs2Of, rs1Of, funct3Of, opcodeOf, BitVec.extractLsb'_append_eq_ite]
  simp
  rw [extract_join w 25 6 1, extract_join w 20 5 7, extract_join w 15 5 12, extract_join w 12 3 17, extract_join w 8 4 20,
    extract_join w 7 1 24, extract_join w 0 7 25]
  exact BitVec.extractLsb'_eq_self

theorem encodeU_fields : encodeU (immUOf w) (rdOf w) (opcodeOf w) = w := by
  simp only [encodeU, immUOf, rdOf, opcodeOf]
  rw [extract_join w 7 5 20, extract_join w 0 7 25]
  exact BitVec.extractLsb'_eq_self

theorem encodeJ_fields : encodeJ (immJOf w) (rdOf w) (opcodeOf w) = w := by
  simp only [encodeJ, immJOf, rdOf, opcodeOf, BitVec.extractLsb'_append_eq_ite]
  simp
  rw [extract_join w 21 10 1, extract_join w 20 1 11, extract_join w 12 8 12, extract_join w 7 5 20, extract_join w 0 7 25]
  exact BitVec.extractLsb'_eq_self

/-- A branch offset has bit 0 zero (R110). -/
theorem immBOf_even : (immBOf w).extractLsb' 0 1 = 0#1 := by
  simp only [immBOf, BitVec.extractLsb'_append_eq_ite]; simp

/-- A jump offset has bit 0 zero (R112). -/
theorem immJOf_even : (immJOf w).extractLsb' 0 1 = 0#1 := by
  simp only [immJOf, BitVec.extractLsb'_append_eq_ite]; simp

end Sys2Proof
end

