-- ==== Sys2Proof/Laws/State.lean ====
section
/-! SUPPORT. One lemma per field per update, so that no later proof unfolds a record update. -/

namespace Sys2Proof.Machine

variable (s : State) (v w : Word) (i : RegIdx) (b : Byte) (c : Config)

/-! ## setPc -/

@[simp] theorem State.setPc_regs : (s.setPc v).regs = s.regs := rfl
@[simp] theorem State.setPc_pc : (s.setPc v).pc = v := rfl
@[simp] theorem State.setPc_run : (s.setPc v).run = s.run := rfl
@[simp] theorem State.setPc_mem : (s.setPc v).mem = s.mem := rfl
@[simp] theorem State.setPc_tx : (s.setPc v).tx = s.tx := rfl
@[simp] theorem State.setPc_diag : (s.setPc v).diag = s.diag := rfl
@[simp] theorem State.setPc_config : (s.setPc v).config = s.config := rfl

/-! ## setReg -/

@[simp] theorem State.setReg_pc : (s.setReg i v).pc = s.pc := by unfold State.setReg; split <;> rfl
@[simp] theorem State.setReg_run : (s.setReg i v).run = s.run := by unfold State.setReg; split <;> rfl
@[simp] theorem State.setReg_mem : (s.setReg i v).mem = s.mem := by unfold State.setReg; split <;> rfl
@[simp] theorem State.setReg_tx : (s.setReg i v).tx = s.tx := by unfold State.setReg; split <;> rfl
@[simp] theorem State.setReg_diag : (s.setReg i v).diag = s.diag := by unfold State.setReg; split <;> rfl
@[simp] theorem State.setReg_config : (s.setReg i v).config = s.config := by unfold State.setReg; split <;> rfl

/-! ## transmit -/

@[simp] theorem transmit_regs : (transmit b s).regs = s.regs := rfl
@[simp] theorem transmit_pc : (transmit b s).pc = s.pc := rfl
@[simp] theorem transmit_run : (transmit b s).run = s.run := rfl
@[simp] theorem transmit_mem : (transmit b s).mem = s.mem := rfl
@[simp] theorem transmit_tx : (transmit b s).tx = s.tx ++ [b] := rfl
@[simp] theorem transmit_diag : (transmit b s).diag = s.diag := rfl
@[simp] theorem transmit_config : (transmit b s).config = s.config := rfl

/-! ## readyToFetch and placeWord -/

@[simp] theorem readyToFetch_regs : (readyToFetch s).regs = s.regs := rfl
@[simp] theorem readyToFetch_pc : (readyToFetch s).pc = if fetchesRam s then s.pc else 0#32 := rfl
@[simp] theorem readyToFetch_run : (readyToFetch s).run = .running := rfl
@[simp] theorem readyToFetch_mem : (readyToFetch s).mem = s.mem := rfl
@[simp] theorem readyToFetch_tx : (readyToFetch s).tx = s.tx := rfl
@[simp] theorem readyToFetch_diag : (readyToFetch s).diag = s.diag := rfl
@[simp] theorem readyToFetch_config : (readyToFetch s).config = s.config := rfl

@[simp] theorem placeWord_regs : (placeWord w s).regs = s.regs := rfl
@[simp] theorem placeWord_pc : (placeWord w s).pc = s.pc := rfl
@[simp] theorem placeWord_run : (placeWord w s).run = s.run := rfl
@[simp] theorem placeWord_mem : (placeWord w s).mem = s.mem.writeList s.pc.toNat (bytesOfWord w) := rfl
@[simp] theorem placeWord_tx : (placeWord w s).tx = s.tx := rfl
@[simp] theorem placeWord_diag : (placeWord w s).diag = s.diag := rfl
@[simp] theorem placeWord_config : (placeWord w s).config = s.config := rfl

/-! ## construct -/

@[simp] theorem State.construct_pc : (State.construct c).pc = 0#32 := rfl
@[simp] theorem State.construct_run : (State.construct c).run = .running := rfl
@[simp] theorem State.construct_mem : (State.construct c).mem = [] := rfl
@[simp] theorem State.construct_tx : (State.construct c).tx = [] := rfl
@[simp] theorem State.construct_diag : (State.construct c).diag = [] := rfl
@[simp] theorem State.construct_config : (State.construct c).config = c := rfl

/-! ## Registers (R31, R32) -/

/-- A register read after a write through the gate. -/
theorem State.reg_setReg (j : RegIdx) :
    (s.setReg i v).reg j = if j = 0#5 then 0#32 else if j = i then v else s.reg j := by
  unfold State.reg State.setReg
  by_cases hj : j = 0#5
  · simp [hj]
  by_cases hi : i = 0#5
  · subst hi; simp [hj]
  by_cases hij : j = i
  · subst hij; simp [hj]
  · have : i.toNat ≠ j.toNat := fun h => hij (BitVec.eq_of_toNat_eq h.symm)
    simp [hj, hi, hij, this]

/-- Slot 0 is reached by no write (R31). -/
@[simp] theorem State.setReg_slot_zero : (s.setReg i v).regs[0] = s.regs[0] := by
  unfold State.setReg
  split
  · rfl
  · next h =>
    have : i.toNat ≠ 0 := fun h' => h (BitVec.eq_of_toNat_eq h')
    simp [this]

/-- x0 always reads 0 (R31). -/
@[simp] theorem State.reg_zero : s.reg 0#5 = 0#32 := by simp [State.reg]

/-- A read depends on the register slots alone. -/
theorem State.reg_congr {s t : State} (h : t.regs = s.regs) (i : RegIdx) : t.reg i = s.reg i := by
  simp [State.reg, h]

/-- Every register reads 0 at construction (R48). -/
theorem State.reg_construct : (State.construct c).reg i = 0#32 := by
  simp [State.reg, State.construct]

@[simp] theorem State.setPc_reg : (s.setPc v).reg i = s.reg i := rfl

end Sys2Proof.Machine
end

