-- ==== Sys2Proof/Laws/Memory.lean ====
section
/-! SUPPORT. The laws of the byte array: a read after a write, that every operation keeps the canonical form, and the bulk
load. -/

namespace Sys2Proof.Machine

variable (m : Memory) (a n : Nat) (b : Byte)

@[simp] theorem Memory.read_nil : Memory.read [] a = 0#8 := rfl

theorem Memory.read_erase : (m.erase a).read n = if n = a then 0#8 else m.read n := by
  induction m with
  | nil => simp [Memory.erase, Memory.read]
  | cons c m ih =>
    simp only [Memory.erase, List.filter_cons] at ih ⊢
    by_cases h : c.1 = a
    · simp only [h, bne_self_eq_false, Bool.false_eq_true, ↓reduceIte, ih, Memory.read]
      split <;> simp_all [eq_comm]
    · simp only [bne_iff_ne, ne_eq, h, not_false_eq_true, ↓reduceIte, Memory.read, ih]
      split <;> split <;> simp_all

theorem Memory.read_insert (h : ∀ c ∈ m, c.1 ≠ a) :
    (m.insert a b).read n = if n = a then b else m.read n := by
  induction m with
  | nil => simp [Memory.insert, Memory.read, eq_comm]
  | cons c m ih =>
    have hc : c.1 ≠ a := h c (by simp)
    have ih := ih (fun d hd => h d (by simp [hd]))
    simp only [Memory.insert]
    split
    · simp [Memory.read, eq_comm]
    · simp only [Memory.read, ih]
      split <;> split <;> simp_all

theorem Memory.mem_erase {c : Host.Cell} : c ∈ m.erase a ↔ c ∈ m ∧ c.1 ≠ a := by
  simp [Memory.erase]

theorem Memory.mem_insert {c : Host.Cell} : c ∈ m.insert a b ↔ c = (a, b) ∨ c ∈ m := by
  induction m with
  | nil => simp [Memory.insert]
  | cons d m ih =>
    simp only [Memory.insert]
    split
    · simp
    · simp only [List.mem_cons, ih]; tauto

/-- Read after write: the byte written at its address, and every other address as before. -/
theorem Memory.read_write : (m.write a b).read n = if n = a then b else m.read n := by
  unfold Memory.write
  split
  · next h => rw [Memory.read_erase, h]
  · rw [Memory.read_insert _ _ _ _ (fun c hc => ((Memory.mem_erase m a).1 hc).2), Memory.read_erase]
    split <;> rfl

/-- What a write can list: the address written, or what was listed. -/
theorem Memory.mem_write {c : Host.Cell} (h : c ∈ m.write a b) : c.1 = a ∨ c ∈ m := by
  unfold Memory.write at h
  split at h
  · exact .inr ((Memory.mem_erase m a).1 h).1
  · rcases (Memory.mem_insert _ a b).1 h with rfl | h
    · exact .inl rfl
    · exact .inr ((Memory.mem_erase m a).1 h).1

/-- A write keeps the canonical form. -/
theorem Memory.wf_write (h : m.wf) : (m.write a b).wf := by
  have he : (m.erase a).wf :=
    ⟨h.1.filter _, fun c hc => h.2 c ((Memory.mem_erase m a).1 hc).1⟩
  unfold Memory.write
  split
  · exact he
  next hb =>
    refine ⟨?_, fun c hc => ?_⟩
    · have hne : ∀ c ∈ m.erase a, c.1 ≠ a := fun c hc => ((Memory.mem_erase m a).1 hc).2
      have hs := he.1
      generalize m.erase a = l at hne hs
      induction l with
      | nil => simp [Memory.insert]
      | cons c l ih =>
        rw [List.pairwise_cons] at hs
        simp only [Memory.insert]
        split
        · next hlt =>
          refine List.pairwise_cons.2 ⟨fun d hd => ?_, List.pairwise_cons.2 hs⟩
          rcases List.mem_cons.1 hd with rfl | hd
          · exact hlt
          · exact hlt.trans (hs.1 d hd)
        · next hge =>
          refine List.pairwise_cons.2 ⟨fun d hd => ?_, ih (fun d hd => hne d (by simp [hd])) hs.2⟩
          rcases (Memory.mem_insert l a b).1 hd with rfl | hd
          · have := hne c (by simp)
            show c.1 < a
            omega
          · exact hs.1 d hd
    · rcases (Memory.mem_insert _ a b).1 hc with rfl | hc
      · exact hb
      · exact he.2 c hc

/-! ## Runs of bytes -/

theorem Memory.read_writeList (bs : List Byte) :
    (m.writeList a bs).read n = if a ≤ n ∧ n < a + bs.length then bs.getD (n - a) 0#8 else m.read n := by
  induction bs generalizing m a with
  | nil => simp [Memory.writeList]
  | cons b bs ih =>
    simp only [Memory.writeList, ih, Memory.read_write, List.length_cons]
    by_cases h : a + 1 ≤ n
    · have h1 : n - a = (n - (a + 1)) + 1 := by omega
      have h2 : ¬ n = a := by omega
      by_cases h3 : n < a + 1 + bs.length
      · rw [if_pos ⟨h, h3⟩, if_pos (by omega), h1]; simp
      · rw [if_neg (by omega), if_neg h2, if_neg (by omega)]
    · rw [if_neg (by omega)]
      by_cases h2 : n = a
      · subst h2; rw [if_pos rfl, if_pos (by omega)]; simp
      · rw [if_neg h2, if_neg (by omega)]

theorem Memory.wf_writeList (bs : List Byte) (h : m.wf) : (m.writeList a bs).wf := by
  induction bs generalizing m a with
  | nil => exact h
  | cons b bs ih => exact ih _ _ (Memory.wf_write m a b h)

theorem Memory.mem_writeList (bs : List Byte) {c : Host.Cell} (h : c ∈ m.writeList a bs) :
    (a ≤ c.1 ∧ c.1 < a + bs.length) ∨ c ∈ m := by
  induction bs generalizing m a with
  | nil => exact .inr h
  | cons b bs ih =>
    rcases ih _ _ h with h | h
    · left; simp only [List.length_cons]; omega
    · rcases Memory.mem_write m a b h with h | h
      · left; simp only [List.length_cons]; omega
      · exact .inr h

/-- The bulk load succeeds exactly when no byte lands outside (R71). -/
theorem Memory.loadBytes_eq (size base : Nat) (bs : List Byte) :
    m.loadBytes size base bs =
      if ∀ k, k < bs.length → base + k < size then some (m.writeList base bs) else none := by
  unfold Memory.loadBytes
  congr 1
  cases bs with
  | nil => simp
  | cons b bs =>
    simp only [reduceCtorEq, List.length_cons, false_or, eq_iff_iff]
    constructor
    · intro h k hk; omega
    · intro h; have := h bs.length (by omega); omega

/-- What a bulk load that succeeds leaves: every property a run of writes keeps. -/
theorem Memory.wf_loadBytes {m' : Memory} {size base : Nat} {bs : List Byte} (h : m.wf)
    (hm : ∀ c ∈ m, c.1 < size) (hl : m.loadBytes size base bs = some m') : m'.wf ∧ ∀ c ∈ m', c.1 < size := by
  rw [Memory.loadBytes_eq] at hl
  split at hl
  · next hk =>
    cases hl
    refine ⟨Memory.wf_writeList m base bs h, fun c hc => ?_⟩
    rcases Memory.mem_writeList m base bs hc with hc | hc
    · have := hk (c.1 - base) (by omega); omega
    · exact hm c hc
  · cases hl

end Sys2Proof.Machine
end

