-- ==== Sys2Proof/Laws/Router.lean ====
section
/-! SUPPORT. The router's accesses over the three kinds of address (R61), and everything a store can do, said once. -/

namespace Sys2Proof.Machine

variable {s t : State} {a : Word} {b : Byte}

/-! ## The address map -/

@[simp] theorem inWindow_iff : inWindow a = true ↔ Window a := by
  simp only [inWindow, Bool.and_eq_true, BitVec.ule_eq_decide, BitVec.ult_eq_decide, decide_eq_true_eq]
  exact Iff.rfl

theorem inWindow_eq (a : Word) : inWindow a = decide (Window a) := by
  rw [Bool.eq_iff_iff]; simp

theorem memSize_eq (c : Config) : c.memSize = c.memSizeMib * 1048576 := rfl

theorem window_txAddr : Window txAddr := by decide

/-! ## Reads -/

theorem routerReadByte_window (h : Window a) : routerReadByte a s = some (windowByte a) := by
  simp [routerReadByte, h]

theorem routerReadByte_not_window (h : ¬ Window a) : routerReadByte a s = memoryReadByte a s := by
  simp only [routerReadByte, inWindow_eq, h, decide_false, Bool.false_eq_true, ↓reduceIte]

theorem routerReadByte_ram (h : Ram s a) : routerReadByte a s = some (s.mem.read a.toNat) := by
  rw [routerReadByte_not_window h.1]; simp [memoryReadByte, memSize_eq, h.2]

theorem routerReadByte_unmapped (h : ¬ Mapped s a) : routerReadByte a s = none := by
  simp only [Mapped, not_or] at h
  rw [routerReadByte_not_window h.1]; simp only [memoryReadByte, memSize_eq, h.2, ↓reduceIte]

theorem routerReadByte_isSome : (routerReadByte a s).isSome ↔ Mapped s a := by
  by_cases hw : Window a
  · rw [routerReadByte_window hw]; exact iff_of_true rfl (.inl hw)
  by_cases hr : a.toNat < s.config.memSizeMib * 1048576
  · rw [routerReadByte_ram ⟨hw, hr⟩]; exact iff_of_true rfl (.inr hr)
  · have : ¬ Mapped s a := not_or.2 ⟨hw, hr⟩
    simp only [routerReadByte_unmapped this, this, Option.isSome_none, Bool.false_eq_true]

/-- A byte read depends on memory and the configuration alone. -/
theorem routerReadByte_congr (hm : t.mem = s.mem) (hc : t.config = s.config) (a : Word) :
    routerReadByte a t = routerReadByte a s := by
  simp [routerReadByte, memoryReadByte, hm, hc]

theorem routerReadWord_congr (hm : t.mem = s.mem) (hc : t.config = s.config) (a : Word) :
    routerReadWord a t = routerReadWord a s := by
  simp [routerReadWord, readWordBy, routerReadByte_congr hm hc]

theorem routerReadWord_eq_some {v : Word} : routerReadWord a s = some v ↔
    ∃ b0 b1 b2 b3, routerReadByte a s = some b0 ∧ routerReadByte (a + 1#32) s = some b1 ∧ routerReadByte (a + 2#32) s = some b2
      ∧ routerReadByte (a + 3#32) s = some b3 ∧ v = wordOfBytes b0 b1 b2 b3 := by
  unfold routerReadWord readWordBy
  split
  · next b0 b1 b2 b3 h0 h1 h2 h3 => simp [h0, h1, h2, h3, eq_comm]
  · next h =>
    simp only [reduceCtorEq, false_iff]
    rintro ⟨b0, b1, b2, b3, h0, h1, h2, h3, -⟩
    exact h b0 b1 b2 b3 h0 h1 h2 h3

/-- A word read succeeds exactly when its four bytes are mapped. -/
theorem routerReadWord_isSome : (routerReadWord a s).isSome ↔ ∀ k, k < 4 → Mapped s (nth a k) := by
  have e0 : nth a 0 = a := by simp [nth]
  have : (∀ k, k < 4 → Mapped s (nth a k)) ↔
      Mapped s a ∧ Mapped s (a + 1#32) ∧ Mapped s (a + 2#32) ∧ Mapped s (a + 3#32) := by
    constructor
    · intro h
      exact ⟨e0 ▸ h 0 (by omega), h 1 (by omega), h 2 (by omega), h 3 (by omega)⟩
    · rintro ⟨h0, h1, h2, h3⟩ k hk
      match k, hk with
      | 0, _ => exact e0.symm ▸ h0
      | 1, _ => exact h1
      | 2, _ => exact h2
      | 3, _ => exact h3
  rw [this]
  simp only [← routerReadByte_isSome]
  unfold routerReadWord readWordBy
  split
  · next h0 h1 h2 h3 => simp [h0, h1, h2, h3]
  · next h =>
    simp only [Option.isSome_none, Bool.false_eq_true, false_iff, Option.isSome_iff_exists]
    rintro ⟨⟨b0, h0⟩, ⟨b1, h1⟩, ⟨b2, h2⟩, b3, h3⟩
    exact h b0 b1 b2 b3 h0 h1 h2 h3

theorem routerReadWord_eq_none : routerReadWord a s = none ↔ ∃ k, k < 4 ∧ ¬ Mapped s (nth a k) := by
  rw [← Option.not_isSome_iff_eq_none, routerReadWord_isSome]
  push Not
  rfl

/-! ## The bytes of a word access -/

@[simp] theorem nth_zero : nth a 0 = a := by simp [nth]

/-- An aligned word's addresses do not wrap. -/
theorem nth_toNat (h : a.toNat % 4 = 0) {k : Nat} (hk : k < 4) : (nth a k).toNat = a.toNat + k := by
  have := a.isLt
  simp only [nth, BitVec.toNat_add, BitVec.toNat_ofNat]
  omega

/-- An aligned word lies in one region, since RAM and the window begin and end at multiples of 4. -/
theorem ram_nth (h : a.toNat % 4 = 0) (hr : Ram s a) {k : Nat} (hk : k < 4) : Ram s (nth a k) := by
  obtain ⟨h1, h2⟩ := hr
  have := nth_toNat h hk
  simp only [Window] at *
  refine ⟨fun hw => h1 ?_, ?_⟩ <;> omega

/-- A byte of a word that was read (R73). -/
theorem routerReadByte_of_word {v : Word} (h : routerReadWord a s = some v) {k : Nat} (hk : k < 4) :
    routerReadByte (nth a k) s = some (v.extractLsb' (8 * k) 8) := by
  obtain ⟨b0, b1, b2, b3, h0, h1, h2, h3, rfl⟩ := routerReadWord_eq_some.1 h
  have := bytes_wordOfBytes b0 b1 b2 b3
  match k, hk with
  | 0, _ => rw [nth_zero, h0, this.1]
  | 1, _ => exact h1.trans (congrArg some this.2.1.symm)
  | 2, _ => exact h2.trans (congrArg some this.2.2.1.symm)
  | 3, _ => exact h3.trans (congrArg some this.2.2.2.symm)

/-- Four bytes that read as a word's bytes read as the word. -/
theorem routerReadWord_of_bytes {v : Word} (h : ∀ k, k < 4 → routerReadByte (nth a k) s = some (v.extractLsb' (8 * k) 8)) :
    routerReadWord a s = some v :=
  routerReadWord_eq_some.2 ⟨_, _, _, _, nth_zero (a := a) ▸ h 0 (by omega), h 1 (by omega), h 2 (by omega), h 3 (by omega),
    (wordOfBytes_bytes v).symm⟩

/-! ## Writes: everything a byte write can do (R66) -/

theorem routerWriteByte_cases (a : Word) (b : Byte) (s : State) :
    (a = txAddr ∧ routerWriteByte a b s = .ok (transmit b s))
    ∨ (Window a ∧ a ≠ txAddr ∧ routerWriteByte a b s = .ok s)
    ∨ (Ram s a ∧ a ≠ txAddr ∧ routerWriteByte a b s = .ok { s with mem := s.mem.write a.toNat b })
    ∨ (¬ Mapped s a ∧ a ≠ txAddr ∧ routerWriteByte a b s = .outOfRange s) := by
  by_cases ht : a = txAddr
  · exact .inl ⟨ht, by simp [routerWriteByte, ht]⟩
  by_cases hw : Window a
  · exact .inr (.inl ⟨hw, ht, by simp [routerWriteByte, ht, hw]⟩)
  by_cases hr : a.toNat < s.config.memSizeMib * 1048576
  · refine .inr (.inr (.inl ⟨⟨hw, hr⟩, ht, ?_⟩))
    simp only [routerWriteByte, ht, ↓reduceIte, inWindow_eq, hw, decide_false, Bool.false_eq_true, memoryWriteByte,
      memSize_eq, hr]
  · refine .inr (.inr (.inr ⟨not_or.2 ⟨hw, hr⟩, ht, ?_⟩))
    simp only [routerWriteByte, ht, ↓reduceIte, inWindow_eq, hw, decide_false, Bool.false_eq_true, memoryWriteByte,
      memSize_eq, hr]

/-- What no write of the router changes. -/
structure SameButMemory (s t : State) : Prop where
  regs : t.regs = s.regs
  pc : t.pc = s.pc
  run : t.run = s.run
  diag : t.diag = s.diag
  config : t.config = s.config

theorem SameButMemory.refl (s : State) : SameButMemory s s := ⟨rfl, rfl, rfl, rfl, rfl⟩

theorem SameButMemory.trans {u : State} (h : SameButMemory s t) (h' : SameButMemory t u) : SameButMemory s u :=
  ⟨h'.regs.trans h.regs, h'.pc.trans h.pc, h'.run.trans h.run, h'.diag.trans h.diag, h'.config.trans h.config⟩

theorem SameButMemory.mapped (h : SameButMemory s t) (a : Word) : Mapped t a ↔ Mapped s a := by
  simp only [Mapped, h.config]

/-- No byte written: the first of `StoredBytes`. -/
theorem StoredBytes.zero (ea v : Word) (s : State) : StoredBytes ea v 0 s s :=
  ⟨fun _ _ => rfl, fun _ h => by omega, fun _ h => by omega, fun _ _ => rfl, by simp, rfl, rfl⟩

theorem nth_inj {k j : Nat} (hk : k < 4) (hj : j < 4) : nth a k = nth a j ↔ k = j := by
  constructor
  · intro h
    have h : (nth a k).toNat = (nth a j).toNat := by rw [h]
    simp only [nth, BitVec.toNat_add, BitVec.toNat_ofNat] at h
    have := a.isLt
    omega
  · rintro rfl; rfl

/-- One more byte written: the byte-wise path goes on over a mapped address. -/
theorem StoredBytes.succ {ea v : Word} {n : Nat} (h : StoredBytes ea v n s t) (hn : n < 4)
    (hm : Mapped s (nth ea n)) :
    ∃ u, routerWriteByte (nth ea n) (byteOf v n) t = .ok u ∧ StoredBytes ea v (n + 1) s u ∧ SameButMemory t u := by
  obtain ⟨h1, h2, h3, h4, h5, h6, h7⟩ := h
  have hne : ∀ k, k < n → nth ea k ≠ nth ea n := fun k hk he => by
    have := (nth_inj (by omega) hn).1 he; omega
  have hrange : (List.range (n + 1)).filter (fun k => nth ea k = 0x1000_0000#32)
      = (List.range n).filter (fun k => nth ea k = 0x1000_0000#32)
        ++ if nth ea n = 0x1000_0000#32 then [n] else [] := by
    rw [List.range_succ, List.filter_append]; simp [List.filter_cons]
  rcases routerWriteByte_cases (nth ea n) (byteOf v n) t with ⟨ht, he⟩ | ⟨hw, ht, he⟩ | ⟨hr, ht, he⟩ | ⟨hu, -, -⟩
  · refine ⟨_, he, ⟨?_, ?_, ?_, ?_, ?_, h6, h7⟩, ⟨rfl, rfl, rfl, rfl, rfl⟩⟩
    · intro a ha
      rw [routerReadByte_congr (transmit_mem _ _) (transmit_config _ _)]
      exact h1 a (fun k hk => ha k (by omega))
    · intro k hk hkw
      rw [routerReadByte_congr (transmit_mem _ _) (transmit_config _ _)]
      have : k ≠ n := by rintro rfl; exact hkw (ht ▸ window_txAddr)
      exact h2 k (by omega) hkw
    · intro k hk hkw
      rw [routerReadByte_window hkw, routerReadByte_window hkw]
    · intro m hm; exact h4 m (fun k hk => hm k (by omega))
    · rw [hrange, transmit_tx, h5, List.map_append, ← List.append_assoc]
      simp [ht, byteOf]
  · refine ⟨_, he, ⟨?_, ?_, ?_, ?_, ?_, h6, h7⟩, SameButMemory.refl _⟩
    · intro a ha; exact h1 a (fun k hk => ha k (by omega))
    · intro k hk hkw
      have : k ≠ n := by rintro rfl; exact hkw hw
      exact h2 k (by omega) hkw
    · intro k hk hkw
      rw [routerReadByte_window hkw, routerReadByte_window hkw]
    · intro m hm; exact h4 m (fun k hk => hm k (by omega))
    · rw [hrange, h5]; simp [ht]
  · have hrs : Ram s (nth ea n) := by simpa only [Ram, h7] using hr
    have hread : ∀ a : Word, ¬ Window a → a ≠ nth ea n →
        routerReadByte a { t with mem := t.mem.write (nth ea n).toNat (byteOf v n) } = routerReadByte a t := by
      intro a haw hane
      have : a.toNat ≠ (nth ea n).toNat := fun h => hane (BitVec.eq_of_toNat_eq h)
      rw [routerReadByte_not_window haw, routerReadByte_not_window haw]
      simp only [memoryReadByte, Memory.read_write, this, ↓reduceIte]
    refine ⟨_, he, ⟨?_, ?_, ?_, ?_, ?_, h6, h7⟩, ⟨rfl, rfl, rfl, rfl, rfl⟩⟩
    · intro a ha
      by_cases haw : Window a
      · rw [routerReadByte_window haw, routerReadByte_window haw]
      · rw [hread a haw (ha n (by omega))]
        exact h1 a (fun k hk => ha k (by omega))
    · intro k hk hkw
      by_cases hkn : k = n
      · subst hkn
        rw [routerReadByte_ram (s := { t with mem := t.mem.write (nth ea k).toNat (byteOf v k) }) hr]
        simp [Memory.read_write, byteOf]
      · rw [hread _ hkw (hne k (by omega))]
        exact h2 k (by omega) hkw
    · intro k hk hkw
      rw [routerReadByte_window hkw, routerReadByte_window hkw]
    · intro m hm
      have : m ≠ (nth ea n).toNat := (hm n (by omega)).resolve_left hr.1
      simp only [Memory.read_write, this, ↓reduceIte]
      exact h4 m (fun k hk => hm k (by omega))
    · rw [hrange]; simp [h5, ht]
  · exact absurd (by simpa only [Mapped, h7] using hm) hu

/-- A byte write to an unmapped address fails and changes nothing. -/
theorem routerWriteByte_unmapped (h : ¬ Mapped s a) : routerWriteByte a b s = .outOfRange s := by
  rcases routerWriteByte_cases a b s with ⟨ht, -⟩ | ⟨hw, -, -⟩ | ⟨hr, -, -⟩ | ⟨-, -, he⟩
  · exact absurd (.inl (ht ▸ window_txAddr)) h
  · exact absurd (.inl hw) h
  · exact absurd (.inr hr.2) h
  · exact he

/-- The byte-wise path of a word store, with the cells written `nth a k`. -/
theorem wordCells_eq (a v : Word) :
    wordCells a v = [(nth a 0, byteOf v 0), (nth a 1, byteOf v 1), (nth a 2, byteOf v 2), (nth a 3, byteOf v 3)] := by
  simp [wordCells, nth]

/-- Where all four bytes are mapped the byte-wise path writes them all. -/
theorem writeBytes_all {v : Word} (h : ∀ k, k < 4 → Mapped s (nth a k)) :
    ∃ t, writeBytesBy routerWriteByte (wordCells a v) s = .ok t ∧ StoredBytes a v 4 s t ∧ SameButMemory s t := by
  obtain ⟨t0, e0, h0, r0⟩ := (StoredBytes.zero a v s).succ (by omega) (h 0 (by omega))
  obtain ⟨t1, e1, h1, r1⟩ := h0.succ (by omega) (h 1 (by omega))
  obtain ⟨t2, e2, h2, r2⟩ := h1.succ (by omega) (h 2 (by omega))
  obtain ⟨t3, e3, h3, r3⟩ := h2.succ (by omega) (h 3 (by omega))
  exact ⟨t3, by simp only [wordCells_eq, writeBytesBy, e0, e1, e2, e3], h3, ((r0.trans r1).trans r2).trans r3⟩

/-- Where byte `n` is the first that is not mapped, the byte-wise path stops there and keeps the bytes before it. -/
theorem writeBytes_partial {v : Word} {n : Nat} (hn : n < 4) (h : ∀ k, k < n → Mapped s (nth a k))
    (hu : ¬ Mapped s (nth a n)) :
    ∃ t, writeBytesBy routerWriteByte (wordCells a v) s = .outOfRange t ∧ StoredBytes a v n s t ∧ SameButMemory s t := by
  have stop : ∀ {t : State} {b : Byte}, SameButMemory s t → routerWriteByte (nth a n) b t = .outOfRange t :=
    fun hr => routerWriteByte_unmapped (fun hm => hu ((hr.mapped _).1 hm))
  match n, hn with
  | 0, _ =>
    exact ⟨s, by simp only [wordCells_eq, writeBytesBy, stop (SameButMemory.refl s)], StoredBytes.zero a v s,
      SameButMemory.refl s⟩
  | 1, _ =>
    obtain ⟨t0, e0, h0, r0⟩ := (StoredBytes.zero a v s).succ (by omega) (h 0 (by omega))
    exact ⟨t0, by simp only [wordCells_eq, writeBytesBy, e0, stop r0], h0, r0⟩
  | 2, _ =>
    obtain ⟨t0, e0, h0, r0⟩ := (StoredBytes.zero a v s).succ (by omega) (h 0 (by omega))
    obtain ⟨t1, e1, h1, r1⟩ := h0.succ (by omega) (h 1 (by omega))
    exact ⟨t1, by simp only [wordCells_eq, writeBytesBy, e0, e1, stop (r0.trans r1)], h1, r0.trans r1⟩
  | 3, _ =>
    obtain ⟨t0, e0, h0, r0⟩ := (StoredBytes.zero a v s).succ (by omega) (h 0 (by omega))
    obtain ⟨t1, e1, h1, r1⟩ := h0.succ (by omega) (h 1 (by omega))
    obtain ⟨t2, e2, h2, r2⟩ := h1.succ (by omega) (h 2 (by omega))
    exact ⟨t2, by simp only [wordCells_eq, writeBytesBy, e0, e1, e2, stop ((r0.trans r1).trans r2)], h2,
      (r0.trans r1).trans r2⟩

/-- Either all four bytes of an address are mapped, or one of them is the first that is not. -/
theorem first_unmapped (s : State) (a : Word) :
    (∀ k, k < 4 → Mapped s (nth a k)) ∨ ∃ n, n < 4 ∧ (∀ k, k < n → Mapped s (nth a k)) ∧ ¬ Mapped s (nth a n) := by
  by_cases h : ∃ n, n < 4 ∧ ¬ Mapped s (nth a n)
  · right
    have hf := Nat.find_spec h
    exact ⟨Nat.find h, hf.1, fun k hk => by
      by_contra hm
      exact Nat.find_min h hk ⟨by omega, hm⟩, hf.2⟩
  · left
    push Not at h
    exact h

/-- The word store's special case does what the byte-wise path does (R69). -/
theorem routerWriteWord_eq (a v : Word) (s : State) :
    routerWriteWord a v s = writeBytesBy routerWriteByte (wordCells a v) s := by
  unfold routerWriteWord
  split
  · next h =>
    subst h
    have h1 : txAddr + 1#32 ≠ txAddr := by decide
    have h2 : txAddr + 2#32 ≠ txAddr := by decide
    have h3 : txAddr + 3#32 ≠ txAddr := by decide
    have w1 : inWindow (txAddr + 1#32) = true := by decide
    have w2 : inWindow (txAddr + 2#32) = true := by decide
    have w3 : inWindow (txAddr + 3#32) = true := by decide
    simp only [wordCells, writeBytesBy, routerWriteByte, ↓reduceIte, h1, h2, h3, w1, w2, w3]
  · rfl

/-- Everything a word store can do (R68). -/
theorem routerWriteWord_cases (a v : Word) (s : State) :
    (∃ t, routerWriteWord a v s = .ok t ∧ (∀ k, k < 4 → Mapped s (nth a k)) ∧ StoredBytes a v 4 s t
        ∧ SameButMemory s t)
    ∨ ∃ t n, n < 4 ∧ routerWriteWord a v s = .outOfRange t ∧ (∀ k, k < n → Mapped s (nth a k))
        ∧ ¬ Mapped s (nth a n) ∧ StoredBytes a v n s t ∧ SameButMemory s t := by
  rw [routerWriteWord_eq]
  rcases first_unmapped s a with h | ⟨n, hn, h, hu⟩
  · obtain ⟨t, e, hs, hr⟩ := writeBytes_all (v := v) h
    exact .inl ⟨t, e, h, hs, hr⟩
  · obtain ⟨t, e, hs, hr⟩ := writeBytes_partial (v := v) hn h hu
    exact .inr ⟨t, n, hn, e, h, hu, hs, hr⟩

/-! ## Canonical memory is kept by every write -/

/-- Memory is canonical and lists RAM addresses only. -/
abbrev MemOk (s : State) : Prop := s.mem.wf ∧ ∀ c ∈ s.mem, c.1 < s.config.memSize

theorem memOk_routerWriteByte (h : MemOk s) (he : routerWriteByte a b s = .ok t ∨ routerWriteByte a b s = .outOfRange t) :
    MemOk t := by
  rcases routerWriteByte_cases a b s with ⟨-, e⟩ | ⟨-, -, e⟩ | ⟨hr, -, e⟩ | ⟨-, -, e⟩ <;> rw [e] at he <;>
    rcases he with he | he <;> cases he
  · exact h
  · exact h
  · refine ⟨Memory.wf_write _ _ _ h.1, fun c hc => ?_⟩
    rcases Memory.mem_write _ _ _ hc with hc | hc
    · rw [hc]; exact hr.2
    · exact h.2 c hc
  · exact h

theorem memOk_writeBytes (cells : List (Word × Byte)) (h : MemOk s)
    (he : writeBytesBy routerWriteByte cells s = .ok t ∨ writeBytesBy routerWriteByte cells s = .outOfRange t) :
    MemOk t := by
  induction cells generalizing s with
  | nil =>
    rcases he with he | he <;> cases he
    exact h
  | cons c cells ih =>
    obtain ⟨a, b⟩ := c
    simp only [writeBytesBy] at he
    split at he
    · next u hu => exact ih (memOk_routerWriteByte h (.inl hu)) he
    · next u hu =>
      rcases he with he | he <;> cases he
      exact memOk_routerWriteByte h (.inr hu)

theorem memOk_routerWriteWord {v : Word} (h : MemOk s)
    (he : routerWriteWord a v s = .ok t ∨ routerWriteWord a v s = .outOfRange t) : MemOk t := by
  rw [routerWriteWord_eq] at he
  exact memOk_writeBytes _ h he

end Sys2Proof.Machine
end

