-- ==== Sys2Proof/Laws/Exec.lean ====
section
/-! SUPPORT. Everything `exec` can do, said once: the inversion lemma that later proofs cite instead of unfolding the 41
meanings, and the effect of the shared endings. -/

namespace Sys2Proof.Machine

variable {i : Instr} {s t : State}

/-! ## The shared endings -/

theorem writeBack_eq (rd : RegIdx) (v : Word) (s : State) :
    writeBack rd v s = .next ((s.setReg rd v).setPc (s.pc + 4#32)) := by
  simp [writeBack, advance, State.pcNext]

theorem linkAndJump_eq (rd : RegIdx) (t : Word) (s : State) :
    linkAndJump rd t s = .next ((s.setReg rd (s.pc + 4#32)).setPc t) := rfl

/-- The write-back gate and the PC update together are `WritesOnly` (R158, R159). -/
theorem writesOnly_setReg (rd : RegIdx) (v npc : Word) (s : State) :
    WritesOnly rd v npc s ((s.setReg rd v).setPc npc) :=
  ⟨rfl, fun i => by rw [State.setPc_reg, State.reg_setReg], ⟨routerReadByte_congr (by simp) (by simp), by simp⟩,
    by simp, by simp, by simp, by simp⟩

theorem writeBack_spec (rd : RegIdx) (v : Word) (s : State) :
    ∃ t, writeBack rd v s = .next t ∧ WritesOnly rd v (s.pc + 4#32) s t :=
  ⟨_, writeBack_eq rd v s, writesOnly_setReg ..⟩

theorem linkAndJump_spec (rd : RegIdx) (npc : Word) (s : State) :
    ∃ t, linkAndJump rd npc s = .next t ∧ WritesOnly rd (s.pc + 4#32) npc s t :=
  ⟨_, rfl, writesOnly_setReg ..⟩

theorem movesPcOnly_setPc (npc : Word) (s : State) : MovesPcOnly npc s (s.setPc npc) :=
  ⟨rfl, fun _ => rfl, ⟨routerReadByte_congr rfl rfl, rfl⟩, rfl, rfl, rfl, rfl⟩

theorem haltsOnly_run (r : RunState) (s : State) : HaltsOnly r s { s with run := r } :=
  ⟨rfl, rfl, fun _ => rfl, ⟨routerReadByte_congr rfl rfl, rfl⟩, rfl, rfl, rfl⟩

/-! ## Every way an instruction ends -/

/-- The ends of `exec i s`, each with the instructions that end so. -/
inductive ExecEnds (i : Instr) (s : State) : Result → Prop where
  | wrote (rd : RegIdx) (v : Word) (hd : destOf i = some rd) (hc : classOf i = .instr) (hs : isStore i = false) :
    ExecEnds i s (.next ((s.setReg rd v).setPc ((controlTarget s i).getD (s.pc + 4#32))))
  | moved (hd : destOf i = none) (hc : classOf i = .instr) (hs : isStore i = false) :
    ExecEnds i s (.next (s.setPc ((controlTarget s i).getD (s.pc + 4#32))))
  | loadFault (ea : Word) (hc : classOf i = .instr) (hs : isStore i = false) :
    ExecEnds i s (.next { s with run := .haltedFault ⟨.loadFault, s.pc, ea⟩ })
  | storedByte (rs1 rs2 : RegIdx) (imm : BitVec 12) (u : State) (hi : i = .sb rs1 rs2 imm)
    (he : routerWriteByte (effectiveAddr rs1 imm s) (byteOf (s.reg rs2) 0) s = .ok u)
    (hb : StoredBytes (effectiveAddr rs1 imm s) (s.reg rs2) 1 s u) (hr : SameButMemory s u) :
    ExecEnds i s (.next (u.setPc (s.pc + 4#32)))
  | storedWord (rs1 rs2 : RegIdx) (imm : BitVec 12) (u : State) (hi : i = .sw rs1 rs2 imm)
    (he : routerWriteWord (effectiveAddr rs1 imm s) (s.reg rs2) s = .ok u)
    (hb : StoredBytes (effectiveAddr rs1 imm s) (s.reg rs2) 4 s u) (hr : SameButMemory s u) :
    ExecEnds i s (.next (u.setPc (s.pc + 4#32)))
  | byteStoreFault (rs1 rs2 : RegIdx) (imm : BitVec 12) (hi : i = .sb rs1 rs2 imm) :
    ExecEnds i s (.next { s with run := .haltedFault ⟨.storeFault, s.pc, effectiveAddr rs1 imm s⟩ })
  | wordStoreFault (rs1 rs2 : RegIdx) (imm : BitVec 12) (u : State) (n : Nat) (hi : i = .sw rs1 rs2 imm) (hn : n < 4)
    (he : routerWriteWord (effectiveAddr rs1 imm s) (s.reg rs2) s = .outOfRange u)
    (hb : StoredBytes (effectiveAddr rs1 imm s) (s.reg rs2) n s u) (hr : SameButMemory s u) :
    ExecEnds i s (.next { u with run := .haltedFault ⟨.storeFault, s.pc, effectiveAddr rs1 imm s⟩ })
  | halted (hi : i = .ecall) : ExecEnds i s (.next { s with run := .haltedClean })
  | skipped (kind : AnomalyKind) (w : Word) (hc : classOf i = .anomaly kind) (hw : encode i = w) :
    ExecEnds i s (.next (({ s with diag := s.diag ++ [⟨kind, s.pc, w⟩] } : State).setPc (s.pc + 4#32)))
  | oddTarget (rd rs1 : RegIdx) (imm : BitVec 12) (hi : i = .jalr rd rs1 imm)
    (ho : (((s.reg rs1).toNat : Int) + imm.toInt) % 2 = 1) : ExecEnds i s (.refused .jalrOddTarget)
  | unsettled (u : Unsettled) (hc : classOf i = .unsettled u) : ExecEnds i s (.refused (.unsettled u))

theorem wrote_of_writeBack (rd : RegIdx) (v : Word) (hd : destOf i = some rd) (hc : classOf i = .instr)
    (hs : isStore i = false) (ht : controlTarget s i = none) : ExecEnds i s (writeBack rd v s) := by
  rw [writeBack_eq]
  have := ExecEnds.wrote (s := s) rd v hd hc hs
  rwa [ht] at this

theorem wrote_of_linkAndJump (rd : RegIdx) (t : Word) (hd : destOf i = some rd) (hc : classOf i = .instr)
    (hs : isStore i = false) (ht : controlTarget s i = some t) : ExecEnds i s (linkAndJump rd t s) := by
  rw [linkAndJump_eq]
  have := ExecEnds.wrote (s := s) rd (s.pc + 4#32) hd hc hs
  rwa [ht] at this

theorem moved_of_branchIf (cond : Bool) (off : BitVec 13) (hd : destOf i = none) (hc : classOf i = .instr)
    (hs : isStore i = false) (ht : controlTarget s i = if cond then some (branchTarget off s) else none) :
    ExecEnds i s (branchIf cond off s) := by
  have := ExecEnds.moved (s := s) hd hc hs
  rw [ht] at this
  cases cond <;> exact this

theorem ends_of_finishLoad (rd : RegIdx) (ea : Word) (v : Option Word) (hd : destOf i = some rd)
    (hc : classOf i = .instr) (hs : isStore i = false) (ht : controlTarget s i = none) :
    ExecEnds i s (finishLoad rd ea v s) := by
  cases v with
  | none => exact .loadFault ea hc hs
  | some v => exact wrote_of_writeBack rd v hd hc hs ht

/-- Everything a byte store can do. -/
theorem execSb_cases (rs1 rs2 : RegIdx) (imm : BitVec 12) (s : State) :
    ExecEnds (.sb rs1 rs2 imm) s (execSb rs1 rs2 imm s) := by
  unfold execSb
  by_cases hm : Mapped s (effectiveAddr rs1 imm s)
  · have e0 : nth (effectiveAddr rs1 imm s) 0 = effectiveAddr rs1 imm s := by simp [nth]
    obtain ⟨u, he, hb, hr⟩ := (StoredBytes.zero (effectiveAddr rs1 imm s) (s.reg rs2) s).succ (by omega) (e0.symm ▸ hm)
    rw [e0] at he
    rw [he]
    have := ExecEnds.storedByte rs1 rs2 imm u rfl he hb hr
    rw [← hr.pc] at this
    exact this
  · rw [routerWriteByte_unmapped hm]
    exact .byteStoreFault rs1 rs2 imm rfl

/-- Everything a word store can do. -/
theorem execSw_cases (rs1 rs2 : RegIdx) (imm : BitVec 12) (s : State) :
    ExecEnds (.sw rs1 rs2 imm) s (execSw rs1 rs2 imm s) := by
  unfold execSw
  rcases routerWriteWord_cases (effectiveAddr rs1 imm s) (s.reg rs2) s with
    ⟨u, he, -, hb, hr⟩ | ⟨u, n, hn, he, -, -, hb, hr⟩
  · rw [he]
    have := ExecEnds.storedWord rs1 rs2 imm u rfl he hb hr
    rw [← hr.pc] at this
    exact this
  · rw [he]
    have := ExecEnds.wordStoreFault rs1 rs2 imm u n rfl hn he hb hr
    rw [← hr.pc] at this
    exact this

theorem execJalr_cases (rd rs1 : RegIdx) (imm : BitVec 12) (s : State) :
    ExecEnds (.jalr rd rs1 imm) s (execJalr rd rs1 imm s) := by
  unfold execJalr
  split
  · next h => exact .oddTarget rd rs1 imm rfl ((bit_zero_eq_parity _ _).1 h)
  · refine wrote_of_linkAndJump _ _ rfl rfl rfl ?_
    exact congrArg some (ofInt_add_toInt _ _)

/-- Every instruction ends in one of the ways of `ExecEnds`. -/
theorem exec_ends (i : Instr) (s : State) : ExecEnds i s (exec i s) := by
  cases i with
  | lui rd imm => exact wrote_of_writeBack _ _ rfl rfl rfl rfl
  | auipc rd imm => exact wrote_of_writeBack _ _ rfl rfl rfl rfl
  | jal rd off => exact wrote_of_linkAndJump _ _ rfl rfl rfl (congrArg some (ofInt_add_toInt _ _))
  | jalr rd rs1 imm => exact execJalr_cases ..
  | beq rs1 rs2 off =>
    exact moved_of_branchIf _ _ rfl rfl rfl (by simp [controlTarget, ofInt_add_toInt, branchTarget, immB])
  | bne rs1 rs2 off =>
    exact moved_of_branchIf _ _ rfl rfl rfl (by simp [controlTarget, ofInt_add_toInt, branchTarget, immB])
  | blt rs1 rs2 off =>
    exact moved_of_branchIf _ _ rfl rfl rfl (by simp [controlTarget, ofInt_add_toInt, branchTarget, immB, ltSigned_eq])
  | bge rs1 rs2 off =>
    exact moved_of_branchIf _ _ rfl rfl rfl
      (by simp only [controlTarget, ofInt_add_toInt, branchTarget, immB, ltSigned_eq, ← Int.not_lt]; simp)
  | bltu rs1 rs2 off =>
    exact moved_of_branchIf _ _ rfl rfl rfl
      (by simp only [controlTarget, ofInt_add_toInt, branchTarget, immB, ltUnsigned_eq, decide_eq_true_eq])
  | bgeu rs1 rs2 off =>
    exact moved_of_branchIf _ _ rfl rfl rfl
      (by simp only [controlTarget, ofInt_add_toInt, branchTarget, immB, ltUnsigned_eq, ← Nat.not_lt, Bool.not_eq_true',
        decide_eq_false_iff_not])
  | lb rd rs1 imm => exact ends_of_finishLoad _ _ _ rfl rfl rfl rfl
  | lbu rd rs1 imm => exact ends_of_finishLoad _ _ _ rfl rfl rfl rfl
  | lw rd rs1 imm => exact ends_of_finishLoad _ _ _ rfl rfl rfl rfl
  | sb rs1 rs2 imm => exact execSb_cases ..
  | sw rs1 rs2 imm => exact execSw_cases ..
  | addi rd rs1 imm => exact wrote_of_writeBack _ _ rfl rfl rfl rfl
  | xori rd rs1 imm => exact wrote_of_writeBack _ _ rfl rfl rfl rfl
  | ori rd rs1 imm => exact wrote_of_writeBack _ _ rfl rfl rfl rfl
  | andi rd rs1 imm => exact wrote_of_writeBack _ _ rfl rfl rfl rfl
  | slli rd rs1 shamt => exact wrote_of_writeBack _ _ rfl rfl rfl rfl
  | srli rd rs1 shamt => exact wrote_of_writeBack _ _ rfl rfl rfl rfl
  | srai rd rs1 shamt => exact wrote_of_writeBack _ _ rfl rfl rfl rfl
  | add rd rs1 rs2 => exact wrote_of_writeBack _ _ rfl rfl rfl rfl
  | sub rd rs1 rs2 => exact wrote_of_writeBack _ _ rfl rfl rfl rfl
  | sll rd rs1 rs2 => exact wrote_of_writeBack _ _ rfl rfl rfl rfl
  | slt rd rs1 rs2 => exact wrote_of_writeBack _ _ rfl rfl rfl rfl
  | sltu rd rs1 rs2 => exact wrote_of_writeBack _ _ rfl rfl rfl rfl
  | xor rd rs1 rs2 => exact wrote_of_writeBack _ _ rfl rfl rfl rfl
  | srl rd rs1 rs2 => exact wrote_of_writeBack _ _ rfl rfl rfl rfl
  | sra rd rs1 rs2 => exact wrote_of_writeBack _ _ rfl rfl rfl rfl
  | or rd rs1 rs2 => exact wrote_of_writeBack _ _ rfl rfl rfl rfl
  | and rd rs1 rs2 => exact wrote_of_writeBack _ _ rfl rfl rfl rfl
  | ecall => exact .halted rfl
  | otherJalr w => exact .unsettled _ rfl
  | otherBranch w => exact .skipped .unknownFunct w (by rfl) (by rfl)
  | otherLoad w => exact .skipped .unknownFunct w (by rfl) (by rfl)
  | otherStore w => exact .skipped .unknownFunct w (by rfl) (by rfl)
  | otherOpImm w => exact .unsettled _ rfl
  | otherOp w => exact .unsettled _ rfl
  | otherSystem w => exact .unsettled _ rfl
  | anyOtherOpcode w => exact .skipped .unknownOpcode w (by rfl) (by rfl)

end Sys2Proof.Machine
end

