-- ==== Sys2Proof/Laws/Step.lean ====
section
/-! SUPPORT. The four ways a step goes, said once, and what the decoder hands the anomaly meanings. -/

namespace Sys2Proof.Machine

variable {s t : State}

/-- `pc[1:0]` is `pc` modulo 4 (R153). -/
theorem pcMisaligned_iff (s : State) : pcMisaligned s = true ↔ s.pc.toNat % 4 ≠ 0 := by
  have : s.pc.extractLsb' 0 2 = 0#2 ↔ s.pc.toNat % 4 = 0 := by
    rw [← BitVec.toNat_inj]; simp [BitVec.extractLsb'_toNat]
  simp only [pcMisaligned, bne_iff_ne, ne_eq, this]

theorem step_halted (h : s.run ≠ .running) : step s = .next s := by simp [step, h]

theorem step_misaligned (h : s.run = .running) (hp : s.pc.toNat % 4 ≠ 0) : step s = .refused .misalignedFetch := by
  simp [step, h, (pcMisaligned_iff s).2 hp, refuse]

theorem step_fetchFault (h : s.run = .running) (hp : s.pc.toNat % 4 = 0) (hw : routerReadWord s.pc s = none) :
    step s = .next { s with run := .haltedFault ⟨.fetchFault, s.pc, s.pc⟩ } := by
  have : pcMisaligned s = false := by
    rw [← Bool.not_eq_true, pcMisaligned_iff]; exact not_not.2 hp
  simp [step, h, this, fetch, hw, raiseFault]

theorem step_runs {w : Word} (h : s.run = .running) (hp : s.pc.toNat % 4 = 0) (hw : routerReadWord s.pc s = some w) :
    step s = exec (decode w) s := by
  have : pcMisaligned s = false := by
    rw [← Bool.not_eq_true, pcMisaligned_iff]; exact not_not.2 hp
  simp [step, h, this, fetch, hw]

/-- Everything a step can do (R151). -/
theorem step_cases (s : State) :
    (s.run ≠ .running ∧ step s = .next s)
    ∨ (s.run = .running ∧ s.pc.toNat % 4 ≠ 0 ∧ step s = .refused .misalignedFetch)
    ∨ (s.run = .running ∧ s.pc.toNat % 4 = 0 ∧ routerReadWord s.pc s = none
        ∧ step s = .next { s with run := .haltedFault ⟨.fetchFault, s.pc, s.pc⟩ })
    ∨ (s.run = .running ∧ s.pc.toNat % 4 = 0 ∧ ∃ w, routerReadWord s.pc s = some w ∧ step s = exec (decode w) s) := by
  by_cases h : s.run = .running
  · by_cases hp : s.pc.toNat % 4 = 0
    · cases hw : routerReadWord s.pc s with
      | none => exact .inr (.inr (.inl ⟨h, hp, rfl, step_fetchFault h hp hw⟩))
      | some w => exact .inr (.inr (.inr ⟨h, hp, w, rfl, step_runs h hp hw⟩))
    · exact .inr (.inl ⟨h, hp, step_misaligned h hp⟩)
  · exact .inl ⟨h, step_halted h⟩

/-- A step that runs and answers next either halts at the fetch or ends as its instruction ends. -/
theorem step_next_cases (h : step s = .next t) :
    (s.run ≠ .running ∧ t = s)
    ∨ (s.run = .running ∧ s.pc.toNat % 4 = 0 ∧ routerReadWord s.pc s = none
        ∧ t = { s with run := .haltedFault ⟨.fetchFault, s.pc, s.pc⟩ })
    ∨ (s.run = .running ∧ s.pc.toNat % 4 = 0 ∧ ∃ w, routerReadWord s.pc s = some w
        ∧ ExecEnds (decode w) s (.next t)) := by
  rcases step_cases s with ⟨hr, he⟩ | ⟨hr, hp, he⟩ | ⟨hr, hp, hw, he⟩ | ⟨hr, hp, w, hw, he⟩ <;> rw [he] at h
  · cases h; exact .inl ⟨hr, rfl⟩
  · cases h
  · cases h; exact .inr (.inl ⟨hr, hp, hw, rfl⟩)
  · exact .inr (.inr ⟨hr, hp, w, hw, h ▸ exec_ends _ _⟩)

/-! ## What a step reports -/

/-- The instruction that runs next is what the step executes. -/
theorem RunsNext.step_eq {i : Instr} (h : RunsNext s i) : step s = exec i s := by
  obtain ⟨hr, hp, w, hw, rfl⟩ := h
  exact step_runs hr hp hw

/-- A step that answers a next state reports that state's run state. -/
theorem stepResult_of_next (h : step s = .next t) : stepResult s = resultOfRun t.run := by rw [stepResult, h]

/-- A refused step reports its reason. -/
theorem stepResult_of_refused {r : Refusal} (h : step s = .refused r) : stepResult s = .refused r := by rw [stepResult, h]

/-! ## Placing a word for the next fetch -/

theorem fetchesRam_iff (s : State) : fetchesRam s = true ↔ s.pc.toNat % 4 = 0 ∧ Ram s s.pc := by
  have := pcMisaligned_iff s
  simp only [fetchesRam, Bool.and_eq_true, Bool.not_eq_true', ← Bool.not_eq_true, this, inWindow_iff,
    decide_eq_true_eq, not_not, and_assoc]
  exact Iff.rfl

/-- A word placed at an aligned RAM address is what the next fetch reads. -/
theorem fetch_placeWord (w : Word) (h : s.pc.toNat % 4 = 0) (hr : Ram s s.pc) :
    routerReadWord s.pc (placeWord w s) = some w := by
  refine routerReadWord_of_bytes fun k hk => ?_
  rw [routerReadByte_ram (ram_nth (s := placeWord w s) h hr hk), placeWord_mem, Memory.read_writeList, nth_toNat h hk,
    if_pos ⟨by omega, by simp only [bytesOfWord, List.length_cons, List.length_nil]; omega⟩, Nat.add_sub_cancel_left]
  match k, hk with
  | 0, _ => rfl
  | 1, _ => rfl
  | 2, _ => rfl
  | 3, _ => rfl

/-! ## Running many steps -/

/-- The host's `run`, one step at a time. -/
theorem run_succ (n : Nat) (s : Sys2Proof.core.State) :
    Host.Core.run Sys2Proof.core (n + 1) s =
      match Sys2Proof.core.step s with
      | .next t => Host.Core.run Sys2Proof.core n t
      | .fault f => .fault f
      | .refused r => .refused r := by
  rw [Host.Core.run]
  cases Sys2Proof.core.step s <;> rfl

/-! ## What the decoder hands the anomaly meanings -/

/-- A property of what a word decodes to is shown branch by branch of the decoder. -/
theorem decode_ite {P : Instr → Prop} {c : Prop} [Decidable c] {i j : Instr} (hi : c → P i) (hj : ¬ c → P j) :
    P (if c then i else j) := by
  split
  · exact hi ‹_›
  · exact hj ‹_›

/-- A word that decodes to an anomaly stands in the term itself, so the diagnostic event records it (R46). -/
theorem encode_of_anomaly {w : Word} {kind : AnomalyKind} (h : classOf (decode w) = .anomaly kind) :
    encode (decode w) = w := by
  revert h
  have leaf : ∀ {c : Prop} [Decidable c] {i j : Instr}, (classOf i = .anomaly kind → encode i = w) →
      (classOf j = .anomaly kind → encode j = w) →
      (classOf (if c then i else j) = .anomaly kind → encode (if c then i else j) = w) := by
    intro c _ i j hi hj
    exact decode_ite (P := fun i => classOf i = .anomaly kind → encode i = w) (fun _ => hi) (fun _ => hj)
  unfold decode decodeBranch decodeLoad decodeStore decodeOpImm decodeOp
  repeat' apply leaf
  all_goals first | exact fun _ => rfl | (intro h; cases h)

end Sys2Proof.Machine
end

