-- ==== Sys2Proof/Laws/Asm.lean ====
section
/-! SUPPORT. The split of a 32-bit value that the two-instruction expansions rest on (R126). -/

namespace Sys2Proof.Machine

/-- `hi20` over twelve zeros and the sign-extended `lo12` add up to the value. -/
theorem hi20_add_lo12 (imm : Word) : immU (hi20 imm) + immI (lo12 imm) = imm := by
  have key : immU (hi20 imm) = imm - immI (lo12 imm) := by
    show hi20 imm ++ 0#12 = imm - immI (lo12 imm)
    unfold hi20
    rw [show (lo12 imm).signExtend 32 = immI (lo12 imm) from rfl]
    have hz : (imm - immI (lo12 imm)).extractLsb' 0 12 = 0#12 := by
      apply BitVec.eq_of_toNat_eq
      have hi : (immI (lo12 imm)).toNat % 4096 = imm.toNat % 4096 := by
        rw [immI, BitVec.toNat_signExtend]
        have h1 : (lo12 imm).toNat = imm.toNat % 4096 := by simp [lo12, BitVec.extractLsb'_toNat]
        simp only [BitVec.toNat_setWidth, h1]
        split
        · norm_num; omega
        · norm_num
      have := imm.isLt
      have := (immI (lo12 imm)).isLt
      simp only [BitVec.extractLsb'_toNat, BitVec.toNat_sub, Nat.shiftRight_zero, BitVec.toNat_ofNat]
      omega
    generalize imm - immI (lo12 imm) = x at *
    rw [← hz]
    have := extract_join x 0 12 20
    simp only [Nat.zero_add] at this
    exact this.trans BitVec.extractLsb'_eq_self
  rw [key, BitVec.sub_add_cancel]

/-- Two `WritesOnly` steps on one register are one. -/
theorem WritesOnly.trans {rd : RegIdx} {v1 v2 npc1 npc2 : Word} {s t u : State} (h1 : WritesOnly rd v1 npc1 s t)
    (h2 : WritesOnly rd v2 npc2 t u) : WritesOnly rd v2 npc2 s u := by
  obtain ⟨-, a2, ⟨a3, a3'⟩, a4⟩ := h1
  obtain ⟨b1, b2, ⟨b3, b3'⟩, b4⟩ := h2
  refine ⟨b1, fun i => ?_, ⟨fun a => (b3 a).trans (a3 a), b3'.trans a3'⟩, b4.1.trans a4.1, b4.2.1.trans a4.2.1,
    b4.2.2.1.trans a4.2.2.1, b4.2.2.2.trans a4.2.2.2⟩
  rw [b2, a2]
  split
  · rfl
  · split <;> rfl

end Sys2Proof.Machine
end

