-- ==== Sys2Proof/Laws/Loader.lean ====
section
/-! SUPPORT. What loading the segments of an ELF image does, and when two of them overlap (R341, R342). -/

namespace Sys2Proof.Machine

variable (field : ElfAddrField) (size : Nat)

/-- One segment loads exactly when all its bytes land in memory. -/
theorem loadSegment_eq (g : Segment) (m : Memory) : loadSegment field size g m =
    if ∀ k, k < g.extent → g.base field + k < size then
      some ((m.writeList (g.base field) g.bytes).writeList (g.base field + g.bytes.length)
        (List.replicate (g.memsz - g.bytes.length) 0#8))
    else none := by
  unfold loadSegment Segment.extent
  rw [Memory.loadBytes_eq]
  by_cases h : ∀ k, k < g.bytes.length → g.base field + k < size
  · rw [if_pos h]
    simp only [Memory.loadBytes_eq, List.length_replicate]
    congr 1
    rw [eq_iff_iff]
    constructor
    · intro h' k hk
      by_cases hk' : k < g.bytes.length
      · exact h k hk'
      · have := h' (k - g.bytes.length) (by omega); omega
    · intro h' k hk
      have := h' (g.bytes.length + k) (by omega); omega
  · rw [if_neg h, if_neg (fun h' => h (fun k hk => h' k (by omega)))]

/-- What memory reads as after a segment: its file bytes, the zeros after them, and the rest as before. -/
theorem read_segment (g : Segment) (m : Memory) (n : Nat) :
    ((m.writeList (g.base field) g.bytes).writeList (g.base field + g.bytes.length)
      (List.replicate (g.memsz - g.bytes.length) 0#8)).read n =
    if g.base field ≤ n ∧ n < g.base field + g.extent then g.bytes.getD (n - g.base field) 0#8 else m.read n := by
  unfold Segment.extent
  simp only [Memory.read_writeList, List.length_replicate]
  by_cases h1 : g.base field ≤ n ∧ n < g.base field + g.bytes.length
  · rw [if_neg (by omega), if_pos h1, if_pos (by omega)]
  · by_cases h2 : g.base field ≤ n ∧ n < g.base field + max g.bytes.length g.memsz
    · rw [if_pos (by omega), if_pos h2]
      rw [List.getD_eq_getElem?_getD, List.getD_eq_getElem?_getD, List.getElem?_eq_none (l := g.bytes) (by omega),
        List.getElem?_replicate]
      split <;> rfl
    · rw [if_neg (by omega), if_neg h1, if_neg h2]

/-- A segment with a byte outside memory fails the load. -/
theorem loadSegments_eq_none (segments : List Segment) (m : Memory)
    (h : ∃ g ∈ segments, ∃ k, k < g.extent ∧ size ≤ g.base field + k) : loadSegments field size segments m = none := by
  induction segments generalizing m with
  | nil => simp at h
  | cons g segments ih =>
    unfold loadSegments
    rw [loadSegment_eq]
    split
    · rfl
    · next m' hm =>
      split at hm
      · next hk =>
        apply ih
        obtain ⟨g', hg', k, hk1, hk2⟩ := h
        rcases List.mem_cons.1 hg' with rfl | hg'
        · have := hk k hk1; omega
        · exact ⟨g', hg', k, hk1, hk2⟩
      · cases hm

/-- Segments whose bytes all land in memory load, and leave every address outside them alone. -/
theorem loadSegments_eq_some (segments : List Segment) (m : Memory)
    (h : ∀ g ∈ segments, ∀ k, k < g.extent → g.base field + k < size) :
    ∃ m', loadSegments field size segments m = some m' ∧ ∀ n,
      (∀ g ∈ segments, ¬ (g.base field ≤ n ∧ n < g.base field + g.extent)) → m'.read n = m.read n := by
  induction segments generalizing m with
  | nil => exact ⟨m, rfl, fun _ _ => rfl⟩
  | cons g segments ih =>
    unfold loadSegments
    rw [loadSegment_eq, if_pos (h g (by simp))]
    obtain ⟨m', e, hr⟩ := ih ((m.writeList (g.base field) g.bytes).writeList (g.base field + g.bytes.length)
      (List.replicate (g.memsz - g.bytes.length) 0#8)) (fun g' hg' => h g' (by simp [hg']))
    refine ⟨m', e, fun n hn => ?_⟩
    rw [hr n (fun g' hg' => hn g' (by simp [hg'])), read_segment, if_neg (hn g (by simp))]

/-- A load of segments keeps the canonical form and stays within memory. -/
theorem wf_loadSegments (segments : List Segment) {m m' : Memory} (h : m.wf) (hm : ∀ c ∈ m, c.1 < size)
    (hl : loadSegments field size segments m = some m') : m'.wf ∧ ∀ c ∈ m', c.1 < size := by
  induction segments generalizing m with
  | nil => cases hl; exact ⟨h, hm⟩
  | cons g segments ih =>
    unfold loadSegments at hl
    split at hl
    · cases hl
    · next m1 h1 =>
      unfold loadSegment at h1
      split at h1
      · cases h1
      · next m0 h0 =>
        have h0 := Memory.wf_loadBytes _ h hm h0
        have h1 := Memory.wf_loadBytes _ h0.1 h0.2 h1
        exact ih h1.1 h1.2 hl

/-- Two segments are apart exactly when no address is in both. -/
theorem apart_iff (g h : Segment) : g.apart field h = true ↔
    ∀ a, ¬ ((g.base field ≤ a ∧ a < g.base field + g.extent) ∧ (h.base field ≤ a ∧ a < h.base field + h.extent)) := by
  simp only [Segment.apart, Bool.or_eq_true, beq_iff_eq, decide_eq_true_eq]
  constructor
  · intro h a ha; omega
  · intro hh
    by_contra hn
    have := hh (max (g.base field) (h.base field))
    omega

theorem segmentsApart_iff (segments : List Segment) : segmentsApart field segments = true ↔
    segments.Pairwise (fun g h => ∀ a,
      ¬ ((g.base field ≤ a ∧ a < g.base field + g.extent) ∧ (h.base field ≤ a ∧ a < h.base field + h.extent))) := by
  induction segments with
  | nil => simp [segmentsApart]
  | cons g segments ih =>
    simp only [segmentsApart, Bool.and_eq_true, List.all_eq_true, apart_iff, ih, List.pairwise_cons]

/-- What a load that succeeds hands the run: construction, with the loaded memory and the initial PC (R340, R343, R344). -/
theorem boot_eq_next {c : Config} {p : HostParams} {img : Image} {s : State} (h : boot c p img = .next s) :
    ∃ m, s = { State.construct c with mem := m, pc := initialPc p img } := by
  cases img with
  | unreadable => cases h
  | flat bytes base =>
    simp only [boot] at h
    cases hl : Memory.loadBytes [] c.memSize base.toNat bytes <;> rw [hl] at h <;> cases h
    exact ⟨_, rfl⟩
  | elf segments e =>
    simp only [boot] at h
    split at h
    · cases hl : loadSegments p.elfAddrField c.memSize segments [] <;> rw [hl] at h <;> cases h
      exact ⟨_, rfl⟩
    · cases h

end Sys2Proof.Machine
end

