-- ==== Sys2Proof/Laws/PerInstr.lean ====
section
/-! SUPPORT. For every constructor of `Instr`: the word of a well-formed instruction matches its row of
spec/opcode_table.json. -/

namespace Sys2Proof

/-! ## A word under the tables' masks -/

/-- Under a mask of the opcode alone. -/
theorem and_opcodeMask (w : Word) : w &&& 0x0000_007F#32 = 0#25 ++ opcodeOf w := by
  conv_lhs => rw [show w = w.extractLsb' 7 25 ++ opcodeOf w from by
    rw [opcodeOf, extract_join w 0 7 25]; exact BitVec.extractLsb'_eq_self.symm]
  rw [show 0x0000_007F#32 = 0#25 ++ BitVec.allOnes 7 by decide, BitVec.and_append, BitVec.and_allOnes, BitVec.and_zero]

/-- Under a mask of opcode and funct3. -/
theorem and_funct3Mask (w : Word) : w &&& 0x0000_707F#32 = 0#17 ++ funct3Of w ++ 0#5 ++ opcodeOf w := by
  conv_lhs => rw [show w = w.extractLsb' 15 17 ++ funct3Of w ++ rdOf w ++ opcodeOf w from by
    rw [funct3Of, rdOf, opcodeOf, extract_join w 12 3 17, extract_join w 7 5 20, extract_join w 0 7 25]
    exact BitVec.extractLsb'_eq_self.symm]
  rw [show 0x0000_707F#32 = 0#17 ++ BitVec.allOnes 3 ++ 0#5 ++ BitVec.allOnes 7 by decide]
  rw [BitVec.and_append, BitVec.and_append, BitVec.and_append]
  simp only [BitVec.and_allOnes, BitVec.and_zero]

/-- Under a mask of opcode, funct3 and funct7. -/
theorem and_funct7Mask (w : Word) : w &&& 0xFE00_707F#32 = funct7Of w ++ 0#10 ++ funct3Of w ++ 0#5 ++ opcodeOf w := by
  conv_lhs => rw [show w = funct7Of w ++ w.extractLsb' 15 10 ++ funct3Of w ++ rdOf w ++ opcodeOf w from by
    rw [funct7Of, funct3Of, rdOf, opcodeOf, extract_join w 15 10 7, extract_join w 12 3 17, extract_join w 7 5 20,
      extract_join w 0 7 25]
    exact BitVec.extractLsb'_eq_self.symm]
  rw [show 0xFE00_707F#32 = BitVec.allOnes 7 ++ 0#10 ++ BitVec.allOnes 3 ++ 0#5 ++ BitVec.allOnes 7 by decide]
  rw [BitVec.and_append, BitVec.and_append, BitVec.and_append, BitVec.and_append]
  simp only [BitVec.and_allOnes, BitVec.and_zero]

end Sys2Proof

namespace Sys2Proof.Laws.EncodingRow

/-- The `mask` and `match` columns of an instruction's row. -/
def row : Instr → Word × Word
  | .lui _ _ => (0x0000_007F#32, 0x0000_0037#32)
  | .auipc _ _ => (0x0000_007F#32, 0x0000_0017#32)
  | .jal _ _ => (0x0000_007F#32, 0x0000_006F#32)
  | .jalr _ _ _ => (0x0000_707F#32, 0x0000_0067#32)
  | .beq _ _ _ => (0x0000_707F#32, 0x0000_0063#32)
  | .bne _ _ _ => (0x0000_707F#32, 0x0000_1063#32)
  | .blt _ _ _ => (0x0000_707F#32, 0x0000_4063#32)
  | .bge _ _ _ => (0x0000_707F#32, 0x0000_5063#32)
  | .bltu _ _ _ => (0x0000_707F#32, 0x0000_6063#32)
  | .bgeu _ _ _ => (0x0000_707F#32, 0x0000_7063#32)
  | .lb _ _ _ => (0x0000_707F#32, 0x0000_0003#32)
  | .lbu _ _ _ => (0x0000_707F#32, 0x0000_4003#32)
  | .lw _ _ _ => (0x0000_707F#32, 0x0000_2003#32)
  | .sb _ _ _ => (0x0000_707F#32, 0x0000_0023#32)
  | .sw _ _ _ => (0x0000_707F#32, 0x0000_2023#32)
  | .addi _ _ _ => (0x0000_707F#32, 0x0000_0013#32)
  | .xori _ _ _ => (0x0000_707F#32, 0x0000_4013#32)
  | .ori _ _ _ => (0x0000_707F#32, 0x0000_6013#32)
  | .andi _ _ _ => (0x0000_707F#32, 0x0000_7013#32)
  | .slli _ _ _ => (0xFE00_707F#32, 0x0000_1013#32)
  | .srli _ _ _ => (0xFE00_707F#32, 0x0000_5013#32)
  | .srai _ _ _ => (0xFE00_707F#32, 0x4000_5013#32)
  | .add _ _ _ => (0xFE00_707F#32, 0x0000_0033#32)
  | .sub _ _ _ => (0xFE00_707F#32, 0x4000_0033#32)
  | .sll _ _ _ => (0xFE00_707F#32, 0x0000_1033#32)
  | .slt _ _ _ => (0xFE00_707F#32, 0x0000_2033#32)
  | .sltu _ _ _ => (0xFE00_707F#32, 0x0000_3033#32)
  | .xor _ _ _ => (0xFE00_707F#32, 0x0000_4033#32)
  | .srl _ _ _ => (0xFE00_707F#32, 0x0000_5033#32)
  | .sra _ _ _ => (0xFE00_707F#32, 0x4000_5033#32)
  | .or _ _ _ => (0xFE00_707F#32, 0x0000_6033#32)
  | .and _ _ _ => (0xFE00_707F#32, 0x0000_7033#32)
  | .ecall => (0xFFFF_FFFF#32, 0x0000_0073#32)
  | .otherJalr _ => (0x0000_007F#32, 0x0000_0067#32)
  | .otherBranch _ => (0x0000_007F#32, 0x0000_0063#32)
  | .otherLoad _ => (0x0000_007F#32, 0x0000_0003#32)
  | .otherStore _ => (0x0000_007F#32, 0x0000_0023#32)
  | .otherOpImm _ => (0x0000_007F#32, 0x0000_0013#32)
  | .otherOp _ => (0x0000_007F#32, 0x0000_0033#32)
  | .otherSystem _ => (0x0000_007F#32, 0x0000_0073#32)
  | .anyOtherOpcode _ => (0x0000_0000#32, 0x0000_0000#32)

/-- The word of a well-formed instruction matches its row. -/
def Statement (i : Instr) : Prop := i.wf = true → encode i &&& (row i).1 = (row i).2

theorem lui (rd : RegIdx) (imm : BitVec 20) : Statement (.lui rd imm) := by
  intro _; simp only [row, encode, and_opcodeMask, opcodeOf_encodeU]; decide

theorem auipc (rd : RegIdx) (imm : BitVec 20) : Statement (.auipc rd imm) := by
  intro _; simp only [row, encode, and_opcodeMask, opcodeOf_encodeU]; decide

theorem jal (rd : RegIdx) (off : BitVec 21) : Statement (.jal rd off) := by
  intro _; simp only [row, encode, and_opcodeMask, opcodeOf_encodeJ]; decide

theorem jalr (rd rs1 : RegIdx) (imm : BitVec 12) : Statement (.jalr rd rs1 imm) := by
  intro _; simp only [row, encode, and_funct3Mask, opcodeOf_encodeI, funct3Of_encodeI]; decide

theorem beq (rs1 rs2 : RegIdx) (off : BitVec 13) : Statement (.beq rs1 rs2 off) := by
  intro _; simp only [row, encode, and_funct3Mask, opcodeOf_encodeB, funct3Of_encodeB]; decide

theorem bne (rs1 rs2 : RegIdx) (off : BitVec 13) : Statement (.bne rs1 rs2 off) := by
  intro _; simp only [row, encode, and_funct3Mask, opcodeOf_encodeB, funct3Of_encodeB]; decide

theorem blt (rs1 rs2 : RegIdx) (off : BitVec 13) : Statement (.blt rs1 rs2 off) := by
  intro _; simp only [row, encode, and_funct3Mask, opcodeOf_encodeB, funct3Of_encodeB]; decide

theorem bge (rs1 rs2 : RegIdx) (off : BitVec 13) : Statement (.bge rs1 rs2 off) := by
  intro _; simp only [row, encode, and_funct3Mask, opcodeOf_encodeB, funct3Of_encodeB]; decide

theorem bltu (rs1 rs2 : RegIdx) (off : BitVec 13) : Statement (.bltu rs1 rs2 off) := by
  intro _; simp only [row, encode, and_funct3Mask, opcodeOf_encodeB, funct3Of_encodeB]; decide

theorem bgeu (rs1 rs2 : RegIdx) (off : BitVec 13) : Statement (.bgeu rs1 rs2 off) := by
  intro _; simp only [row, encode, and_funct3Mask, opcodeOf_encodeB, funct3Of_encodeB]; decide

theorem lb (rd rs1 : RegIdx) (imm : BitVec 12) : Statement (.lb rd rs1 imm) := by
  intro _; simp only [row, encode, and_funct3Mask, opcodeOf_encodeI, funct3Of_encodeI]; decide

theorem lbu (rd rs1 : RegIdx) (imm : BitVec 12) : Statement (.lbu rd rs1 imm) := by
  intro _; simp only [row, encode, and_funct3Mask, opcodeOf_encodeI, funct3Of_encodeI]; decide

theorem lw (rd rs1 : RegIdx) (imm : BitVec 12) : Statement (.lw rd rs1 imm) := by
  intro _; simp only [row, encode, and_funct3Mask, opcodeOf_encodeI, funct3Of_encodeI]; decide

theorem sb (rs1 rs2 : RegIdx) (imm : BitVec 12) : Statement (.sb rs1 rs2 imm) := by
  intro _; simp only [row, encode, and_funct3Mask, opcodeOf_encodeS, funct3Of_encodeS]; decide

theorem sw (rs1 rs2 : RegIdx) (imm : BitVec 12) : Statement (.sw rs1 rs2 imm) := by
  intro _; simp only [row, encode, and_funct3Mask, opcodeOf_encodeS, funct3Of_encodeS]; decide

theorem addi (rd rs1 : RegIdx) (imm : BitVec 12) : Statement (.addi rd rs1 imm) := by
  intro _; simp only [row, encode, and_funct3Mask, opcodeOf_encodeI, funct3Of_encodeI]; decide

theorem xori (rd rs1 : RegIdx) (imm : BitVec 12) : Statement (.xori rd rs1 imm) := by
  intro _; simp only [row, encode, and_funct3Mask, opcodeOf_encodeI, funct3Of_encodeI]; decide

theorem ori (rd rs1 : RegIdx) (imm : BitVec 12) : Statement (.ori rd rs1 imm) := by
  intro _; simp only [row, encode, and_funct3Mask, opcodeOf_encodeI, funct3Of_encodeI]; decide

theorem andi (rd rs1 : RegIdx) (imm : BitVec 12) : Statement (.andi rd rs1 imm) := by
  intro _; simp only [row, encode, and_funct3Mask, opcodeOf_encodeI, funct3Of_encodeI]; decide

theorem slli (rd rs1 : RegIdx) (shamt : BitVec 5) : Statement (.slli rd rs1 shamt) := by
  intro _; simp only [row, encode, and_funct7Mask, opcodeOf_encodeR, funct3Of_encodeR, funct7Of_encodeR]; decide

theorem srli (rd rs1 : RegIdx) (shamt : BitVec 5) : Statement (.srli rd rs1 shamt) := by
  intro _; simp only [row, encode, and_funct7Mask, opcodeOf_encodeR, funct3Of_encodeR, funct7Of_encodeR]; decide

theorem srai (rd rs1 : RegIdx) (shamt : BitVec 5) : Statement (.srai rd rs1 shamt) := by
  intro _; simp only [row, encode, and_funct7Mask, opcodeOf_encodeR, funct3Of_encodeR, funct7Of_encodeR]; decide

theorem add (rd rs1 rs2 : RegIdx) : Statement (.add rd rs1 rs2) := by
  intro _; simp only [row, encode, and_funct7Mask, opcodeOf_encodeR, funct3Of_encodeR, funct7Of_encodeR]; decide

theorem sub (rd rs1 rs2 : RegIdx) : Statement (.sub rd rs1 rs2) := by
  intro _; simp only [row, encode, and_funct7Mask, opcodeOf_encodeR, funct3Of_encodeR, funct7Of_encodeR]; decide

theorem sll (rd rs1 rs2 : RegIdx) : Statement (.sll rd rs1 rs2) := by
  intro _; simp only [row, encode, and_funct7Mask, opcodeOf_encodeR, funct3Of_encodeR, funct7Of_encodeR]; decide

theorem slt (rd rs1 rs2 : RegIdx) : Statement (.slt rd rs1 rs2) := by
  intro _; simp only [row, encode, and_funct7Mask, opcodeOf_encodeR, funct3Of_encodeR, funct7Of_encodeR]; decide

theorem sltu (rd rs1 rs2 : RegIdx) : Statement (.sltu rd rs1 rs2) := by
  intro _; simp only [row, encode, and_funct7Mask, opcodeOf_encodeR, funct3Of_encodeR, funct7Of_encodeR]; decide

theorem xor (rd rs1 rs2 : RegIdx) : Statement (.xor rd rs1 rs2) := by
  intro _; simp only [row, encode, and_funct7Mask, opcodeOf_encodeR, funct3Of_encodeR, funct7Of_encodeR]; decide

theorem srl (rd rs1 rs2 : RegIdx) : Statement (.srl rd rs1 rs2) := by
  intro _; simp only [row, encode, and_funct7Mask, opcodeOf_encodeR, funct3Of_encodeR, funct7Of_encodeR]; decide

theorem sra (rd rs1 rs2 : RegIdx) : Statement (.sra rd rs1 rs2) := by
  intro _; simp only [row, encode, and_funct7Mask, opcodeOf_encodeR, funct3Of_encodeR, funct7Of_encodeR]; decide

theorem or (rd rs1 rs2 : RegIdx) : Statement (.or rd rs1 rs2) := by
  intro _; simp only [row, encode, and_funct7Mask, opcodeOf_encodeR, funct3Of_encodeR, funct7Of_encodeR]; decide

theorem and (rd rs1 rs2 : RegIdx) : Statement (.and rd rs1 rs2) := by
  intro _; simp only [row, encode, and_funct7Mask, opcodeOf_encodeR, funct3Of_encodeR, funct7Of_encodeR]; decide

theorem ecall : Statement (.ecall) := by
  intro _; decide

theorem otherJalr (w : Word) : Statement (.otherJalr w) := by
  intro hw
  simp only [Instr.wf, Bool.and_eq_true, beq_iff_eq] at hw
  simp only [row, encode, and_opcodeMask, opcodeOf, hw.1]; decide

theorem otherBranch (w : Word) : Statement (.otherBranch w) := by
  intro hw
  simp only [Instr.wf, Bool.and_eq_true, beq_iff_eq] at hw
  simp only [row, encode, and_opcodeMask, opcodeOf, hw.1]; decide

theorem otherLoad (w : Word) : Statement (.otherLoad w) := by
  intro hw
  simp only [Instr.wf, Bool.and_eq_true, beq_iff_eq] at hw
  simp only [row, encode, and_opcodeMask, opcodeOf, hw.1]; decide

theorem otherStore (w : Word) : Statement (.otherStore w) := by
  intro hw
  simp only [Instr.wf, Bool.and_eq_true, beq_iff_eq] at hw
  simp only [row, encode, and_opcodeMask, opcodeOf, hw.1]; decide

theorem otherOpImm (w : Word) : Statement (.otherOpImm w) := by
  intro hw
  simp only [Instr.wf, Bool.and_eq_true, beq_iff_eq] at hw
  simp only [row, encode, and_opcodeMask, opcodeOf, hw.1]; decide

theorem otherOp (w : Word) : Statement (.otherOp w) := by
  intro hw
  simp only [Instr.wf, Bool.and_eq_true, beq_iff_eq] at hw
  simp only [row, encode, and_opcodeMask, opcodeOf, hw.1]; decide

theorem otherSystem (w : Word) : Statement (.otherSystem w) := by
  intro hw
  simp only [Instr.wf, Bool.and_eq_true, beq_iff_eq] at hw
  simp only [row, encode, and_opcodeMask, opcodeOf, hw.1]; decide

theorem anyOtherOpcode (w : Word) : Statement (.anyOtherOpcode w) := by
  intro _; exact BitVec.and_zero

end Sys2Proof.Laws.EncodingRow
end

