-- ==== Sys2Proof/Tests/Slice0.lean ====
section
/-! SUPPORT. The model's own tests. Every expected value is copied from spec/95_test_vectors.md (the vector's id stands in the
docstring) or worked out by hand from the rule named; the witnesses show that each statement's hypotheses can be met. -/

namespace Sys2Proof.Tests

open Sys2Proof Sys2Proof.Machine

/-! ## Helpers -/

/-- The vectors' start state: the word at PC 0x100, the bytes FF 11 22 33 44 at 0x2000, and the registers given. -/
def start (w : Word) (regs : List (RegIdx × Word)) : State :=
  regs.foldl (fun s r => s.setReg r.1 r.2)
    { State.construct {} with
      pc := 0x100#32
      mem := (Memory.writeList [] 0x100 (bytesOfWord w)).writeList 0x2000 [0xFF#8, 0x11#8, 0x22#8, 0x33#8, 0x44#8] }

/-- Host parameters with the ELF loader on `p_paddr`, one of the two values of its OPEN parameter (D17). -/
def onPaddr : HostParams := { elfAddrField := .pPaddr }

/-- What a look at the next state shows, if there is one. -/
def seen {α : Type} (look : State → α) : Result → Option α
  | .next t => some (look t)
  | _ => none

/-- The refusal, if there is one. -/
def refusedAs : Result → Option Refusal
  | .refused r => some r
  | _ => none

/-- The PC and one register. -/
def regPc (i : RegIdx) (t : State) : Word × Word := (t.reg i, t.pc)

/-- The run state, the PC and x6. -/
def runPc (t : State) : RunState × Word × Word := (t.run, t.pc, t.reg 6)

/-- The diagnostic list, the PC and x6. -/
def diagPc (t : State) : List DiagEvent × Word × Word := (t.diag, t.pc, t.reg 6)

/-- Five bytes of memory from `a`, and the transmit stream. -/
def bytesTx (a : Nat) (t : State) : List Byte × List Byte := ((List.range 5).map (fun k => t.mem.read (a + k)), t.tx)

/-- A decidable property of the next state gives the next state. -/
theorem next_of_seen {P : State → Prop} [DecidablePred P] {r : Result} (h : seen (fun t => decide (P t)) r = some true) :
    ∃ t, r = .next t ∧ P t := by
  cases r with
  | next t => exact ⟨t, rfl, of_decide_eq_true (Option.some.inj h)⟩
  | fault _ => cases h
  | refused _ => cases h

/-- The instruction of the word at the PC runs next. -/
theorem runsNext_of {s : State} {i : Instr} (w : Word)
    (h : s.run = .running ∧ s.pc.toNat % 4 = 0 ∧ routerReadWord s.pc s = some w ∧ decode w = i) : RunsNext s i :=
  ⟨h.1, h.2.1, w, h.2.2⟩

/-! ## WellFormed refuses an ill-formed term of each check -/

theorem test_wf_jal_odd_offset : (Instr.jal 1 0b1#21).wf = false ∧ (Instr.jal 1 0b10#21).wf = true := by decide

theorem test_wf_branch_odd_offset :
    [Instr.beq 5 6 1, .bne 5 6 1, .blt 5 6 1, .bge 5 6 1, .bltu 5 6 1, .bgeu 5 6 1].all (fun i => !i.wf)
      ∧ [Instr.beq 5 6 2, .bne 5 6 2, .blt 5 6 2, .bge 5 6 2, .bltu 5 6 2, .bgeu 5 6 2].all Instr.wf := by decide

theorem test_wf_otherJalr :
    (Instr.otherJalr 0x0000_0067#32).wf = false ∧ (Instr.otherJalr 0x0000_1063#32).wf = false := by decide

theorem test_wf_otherBranch :
    (Instr.otherBranch 0x0000_0063#32).wf = false ∧ (Instr.otherBranch 0x0000_2067#32).wf = false := by decide

theorem test_wf_otherLoad :
    (Instr.otherLoad 0x0000_2003#32).wf = false ∧ (Instr.otherLoad 0x0000_1023#32).wf = false := by decide

theorem test_wf_otherStore :
    (Instr.otherStore 0x0000_2023#32).wf = false ∧ (Instr.otherStore 0x0000_1003#32).wf = false := by decide

theorem test_wf_otherOpImm :
    (Instr.otherOpImm 0x0000_0013#32).wf = false ∧ (Instr.otherOpImm 0x0000_1013#32).wf = false
      ∧ (Instr.otherOpImm 0x4000_5013#32).wf = false ∧ (Instr.otherOpImm 0x0000_2033#32).wf = false := by decide

theorem test_wf_otherOp :
    (Instr.otherOp 0x0000_0033#32).wf = false ∧ (Instr.otherOp 0x4000_5033#32).wf = false
      ∧ (Instr.otherOp 0x0200_0013#32).wf = false := by decide

theorem test_wf_otherSystem :
    (Instr.otherSystem 0x0000_0073#32).wf = false ∧ (Instr.otherSystem 0x0010_0033#32).wf = false := by decide

theorem test_wf_anyOtherOpcode :
    (Instr.anyOtherOpcode 0x0000_0073#32).wf = false ∧ (Instr.anyOtherOpcode 0x0000_000F#32).wf = true := by decide

/-! ## Decoding, every constructor, from the words of spec/95_test_vectors.md and of the rules -/

/-- V41-1, V41-5, V41-7, V41-8, V41-15. -/
theorem test_decode_upper_jumps :
    decode 0x1234_52B7#32 = .lui 5 0x12345
      ∧ decode 0xFFFF_F317#32 = .auipc 6 0xFFFFF
      ∧ decode 0x0100_00EF#32 = .jal 1 16
      ∧ decode 0xFF9F_F06F#32 = .jal 0 (-8)
      ∧ decode 0xFFE2_8067#32 = .jalr 0 5 (-2) := by decide

/-- V42-1, V42-3, V42-10, V42-6, V42-8, V42-11. -/
theorem test_decode_branches :
    decode 0x0052_8463#32 = .beq 5 5 8
      ∧ decode 0xFE62_9EE3#32 = .bne 5 6 (-4)
      ∧ decode 0x8062_C063#32 = .blt 5 6 (-4096)
      ∧ decode 0x0062_D663#32 = .bge 5 6 12
      ∧ decode 0x0062_E663#32 = .bltu 5 6 12
      ∧ decode 0x7E00_7FE3#32 = .bgeu 0 0 4094 := by decide

/-- V43-3, V43-2, V43-10, V43-24, V43-17. -/
theorem test_decode_loads_stores :
    decode 0x0012_8303#32 = .lb 6 5 1
      ∧ decode 0x0002_C303#32 = .lbu 6 5 0
      ∧ decode 0xFFE2_A303#32 = .lw 6 5 (-2)
      ∧ decode 0x0062_8223#32 = .sb 5 6 4
      ∧ decode 0xFE62_AF23#32 = .sw 5 6 (-2) := by decide

/-- V44-4, V44-7 to V44-9, V44-11, V44-13, V44-15. -/
theorem test_decode_op_imm :
    decode 0x8002_8293#32 = .addi 5 5 (-2048)
      ∧ decode 0xFFF3_4293#32 = .xori 5 6 (-1)
      ∧ decode 0x8003_6293#32 = .ori 5 6 (-2048)
      ∧ decode 0x7FF3_7293#32 = .andi 5 6 2047
      ∧ decode 0x01F3_1293#32 = .slli 5 6 31
      ∧ decode 0x0043_5293#32 = .srli 5 6 4
      ∧ decode 0x4043_5293#32 = .srai 5 6 4 := by decide

/-- V45-1, V45-3, V45-5, V45-7, V45-9, V45-12, V45-13, V45-15, V45-16; XOR by its encoding (R256). -/
theorem test_decode_op :
    decode 0x0073_02B3#32 = .add 5 6 7
      ∧ decode 0x4073_02B3#32 = .sub 5 6 7
      ∧ decode 0x0073_12B3#32 = .sll 5 6 7
      ∧ decode 0x0073_22B3#32 = .slt 5 6 7
      ∧ decode 0x0073_32B3#32 = .sltu 5 6 7
      ∧ decode 0x0073_42B3#32 = .xor 5 6 7
      ∧ decode 0x0073_52B3#32 = .srl 5 6 7
      ∧ decode 0x4073_52B3#32 = .sra 5 6 7
      ∧ decode 0x0073_62B3#32 = .or 5 6 7
      ∧ decode 0x0073_72B3#32 = .and 5 6 7 := by decide

/-- V46-1, V41-17, V42-12, V43-25, V43-26, V44-18, V45-18, V46-2, V46-4. -/
theorem test_decode_system :
    decode 0x0000_0073#32 = .ecall
      ∧ decode 0x1000_1067#32 = .otherJalr 0x1000_1067#32
      ∧ decode 0x0000_2463#32 = .otherBranch 0x0000_2463#32
      ∧ decode 0x0002_9303#32 = .otherLoad 0x0002_9303#32
      ∧ decode 0x0062_9023#32 = .otherStore 0x0062_9023#32
      ∧ decode 0x0013_3293#32 = .otherOpImm 0x0013_3293#32
      ∧ decode 0x0273_02B3#32 = .otherOp 0x0273_02B3#32
      ∧ decode 0x0010_0073#32 = .otherSystem 0x0010_0073#32
      ∧ decode 0x0000_000F#32 = .anyOtherOpcode 0x0000_000F#32 := by decide

/-- Words laid out field by field from R102 to R107 and R116. -/
theorem test_decode_bits :
    decode 0b000000000000_00101_100_00110_0000011#32 = .lbu 6 5 0
      ∧ decode 0b0000000_00110_00101_000_00011_0100011#32 = .sb 5 6 3
      ∧ decode 0b0_000000_00101_00101_000_0100_0_1100011#32 = .beq 5 5 8
      ∧ decode 0b0_0000001000_0_00000000_00001_1101111#32 = .jal 1 16
      ∧ decode 0b0000000_00111_00110_011_00101_0110011#32 = .sltu 5 6 7 := by decide

/-- Table L1.E6. -/
theorem test_immediate_extremes :
    [0x8000_0013#32, 0x7FF0_0013#32].map (fun w => (immI (immIOf w)).toInt) = [-2048, 2047]
      ∧ [0x8000_2023#32, 0xFE00_2FA3#32, 0x7E00_2FA3#32].map (fun w => (immI (immSOf w)).toInt) = [-2048, -1, 2047]
      ∧ [0x8000_0063#32, 0xFE00_0FE3#32, 0x7E00_0FE3#32].map (fun w => (immB (immBOf w)).toInt) = [-4096, -2, 4094]
      ∧ [0x8000_0037#32, 0x7FFF_F037#32].map (fun w => immU (immUOf w)) = [0x8000_0000#32, 0x7FFF_F000#32]
      ∧ [0x8000_006F#32, 0x0020_006F#32, 0x7FFF_F06F#32].map (fun w => (immJ (immJOf w)).toInt)
        = [-1048576, 2, 1048574] := by decide

/-- The bits above the row's are zero. -/
theorem test_table_word :
    decodeTableWord 32 0x0073_02B3 = some (.add 5 6 7) ∧ decodeTableWord 8 0x0273 = some .ecall := by decide

/-- V42-3, V41-8, V43-17, V44-15. -/
theorem test_encode_words :
    encode (.bne 5 6 (-4)) = 0xFE62_9EE3#32 ∧ encode (.jal 0 (-8)) = 0xFF9F_F06F#32
      ∧ encode (.sw 5 6 (-2)) = 0xFE62_AF23#32 ∧ encode (.srai 5 6 4) = 0x4043_5293#32 := by decide

/-! ## One step of each instruction -/

/-- V41-1. -/
theorem test_lui : seen (regPc 5) (step (start 0x1234_52B7#32 [])) = some (0x1234_5000#32, 0x104#32) := by decide

/-- V41-3. -/
theorem test_lui_x0 : seen (regPc 0) (step (start 0x1234_5037#32 [])) = some (0#32, 0x104#32) := by decide

/-- V41-5. -/
theorem test_auipc : seen (regPc 6) (step (start 0xFFFF_F317#32 [])) = some (0xFFFF_F100#32, 0x104#32) := by decide

/-- V41-7. -/
theorem test_jal : seen (regPc 1) (step (start 0x0100_00EF#32 [])) = some (0x104#32, 0x110#32) := by decide

/-- V41-11. -/
theorem test_jal_wraps : seen (regPc 0) (step (start 0x8000_006F#32 [])) = some (0#32, 0xFFF0_0100#32) := by decide

/-- V41-13. -/
theorem test_jalr_old_base :
    seen (regPc 1) (step (start 0x0000_80E7#32 [(1, 0x300)])) = some (0x104#32, 0x300#32) := by decide

/-- V41-14. -/
theorem test_jalr_odd : refusedAs (step (start 0x0012_8067#32 [(5, 0x200)])) = some .jalrOddTarget := by decide

/-- V42-1. -/
theorem test_beq_taken : seen State.pc (step (start 0x0052_8463#32 [(5, 7)])) = some 0x108#32 := by decide

/-- V42-2. -/
theorem test_beq_not_taken : seen State.pc (step (start 0x0062_8463#32 [(5, 7), (6, 8)])) = some 0x104#32 := by decide

/-- V42-3. -/
theorem test_bne_taken : seen State.pc (step (start 0xFE62_9EE3#32 [(5, 1), (6, 2)])) = some 0xFC#32 := by decide

/-- V42-10. -/
theorem test_blt_taken :
    seen State.pc (step (start 0x8062_C063#32 [(5, 0x8000_0000), (6, 0x7FFF_FFFF)])) = some 0xFFFF_F100#32 := by decide

/-- V42-6. -/
theorem test_bge_not_taken :
    seen State.pc (step (start 0x0062_D663#32 [(5, 0xFFFF_FFFF), (6, 1)])) = some 0x104#32 := by decide

/-- V42-7. -/
theorem test_bge_equal : seen State.pc (step (start 0x0052_D663#32 [(5, 0x8000_0000)])) = some 0x10C#32 := by decide

/-- V42-8. -/
theorem test_bltu_not_taken :
    seen State.pc (step (start 0x0062_E663#32 [(5, 0xFFFF_FFFF), (6, 1)])) = some 0x104#32 := by decide

/-- V42-9. -/
theorem test_bgeu_taken :
    seen State.pc (step (start 0x0062_F663#32 [(5, 0xFFFF_FFFF), (6, 1)])) = some 0x10C#32 := by decide

/-- V43-1. -/
theorem test_lb :
    seen (regPc 6) (step (start 0x0002_8303#32 [(5, 0x2000)])) = some (0xFFFF_FFFF#32, 0x104#32) := by decide

/-- V43-9. -/
theorem test_lb_fault :
    seen (runPc) (step (start 0x0002_8303#32 [(5, 0x0100_0000)])) = some (.haltedFault ⟨.loadFault, 0x100, 0x0100_0000⟩, 0x100, 0) := by decide

/-- V43-2. -/
theorem test_lbu : seen (regPc 6) (step (start 0x0002_C303#32 [(5, 0x2000)])) = some (0xFF#32, 0x104#32) := by decide

/-- V43-5. -/
theorem test_lw_misaligned :
    seen (regPc 6) (step (start 0x0012_A303#32 [(5, 0x2000)])) = some (0x4433_2211#32, 0x104#32) := by decide

/-- V43-7. -/
theorem test_lw_status :
    seen (regPc 6) (step (start 0x0032_A303#32 [(5, 0x1000_0000)])) = some (0x100#32, 0x104#32) := by decide

/-- V43-14. -/
theorem test_sb :
    seen (bytesTx 0x2000) (step (start 0x0062_8023#32 [(5, 0x2000), (6, 0x1234_5678)])) = some ([0x78, 0x11, 0x22, 0x33, 0x44], []) := by decide

/-- V43-20. -/
theorem test_sb_transmit :
    seen (bytesTx 0x2000) (step (start 0x0062_8023#32 [(5, 0x1000_0000), (6, 0x1234_5641)])) = some ([0xFF, 0x11, 0x22, 0x33, 0x44], [0x41]) := by decide

/-- V43-16. -/
theorem test_sw_misaligned :
    seen (bytesTx 0x2002) (step (start 0x0062_A1A3#32 [(5, 0x2000), (6, 0x1234_5678)])) = some ([0x22, 0x78, 0x56, 0x34, 0x12], []) := by decide

/-- V43-17. -/
theorem test_sw_partial :
    seen (fun t => (runPc t, bytesTx 0x00FF_FFFD t)) (step (start 0xFE62_AF23#32 [(5, 0x0100_0000), (6, 0x1234_5678)])) = some ((.haltedFault ⟨.storeFault, 0x100, 0x00FF_FFFE⟩, 0x100, 0x1234_5678), [0, 0x78, 0x56, 0, 0], []) := by decide

/-- V44-4. -/
theorem test_addi : seen (regPc 5) (step (start 0x8002_8293#32 [])) = some (0xFFFF_F800#32, 0x104#32) := by decide

/-- V44-5. -/
theorem test_addi_x0 : seen (regPc 0) (step (start 0x0050_0013#32 [])) = some (0#32, 0x104#32) := by decide

/-- V44-7. -/
theorem test_xori :
    seen (regPc 5) (step (start 0xFFF3_4293#32 [(6, 0x0F0F_0F0F)])) = some (0xF0F0_F0F0#32, 0x104#32) := by decide

/-- V44-8. -/
theorem test_ori : seen (regPc 5) (step (start 0x8003_6293#32 [(6, 1)])) = some (0xFFFF_F801#32, 0x104#32) := by decide

/-- V44-10. -/
theorem test_andi :
    seen (regPc 5) (step (start 0xFF03_7293#32 [(6, 0x1234_5678)])) = some (0x1234_5670#32, 0x104#32) := by decide

/-- V44-11. -/
theorem test_slli : seen (regPc 5) (step (start 0x01F3_1293#32 [(6, 1)])) = some (0x8000_0000#32, 0x104#32) := by decide

/-- V44-14. -/
theorem test_srli : seen (regPc 5) (step (start 0x01F3_5293#32 [(6, 0x8000_0000)])) = some (1#32, 0x104#32) := by decide

/-- V44-15. -/
theorem test_srai :
    seen (regPc 5) (step (start 0x4043_5293#32 [(6, 0x8000_0000)])) = some (0xF800_0000#32, 0x104#32) := by decide

/-- V45-17. -/
theorem test_add :
    seen (regPc 6) (step (start 0x0063_0333#32 [(6, 0x4000_0000)])) = some (0x8000_0000#32, 0x104#32) := by decide

/-- V45-3. -/
theorem test_sub : seen (regPc 5) (step (start 0x4073_02B3#32 [(7, 1)])) = some (0xFFFF_FFFF#32, 0x104#32) := by decide

/-- V45-5. -/
theorem test_sll : seen (regPc 5) (step (start 0x0073_12B3#32 [(6, 1), (7, 0x21)])) = some (2#32, 0x104#32) := by decide

/-- V45-7. -/
theorem test_slt :
    seen (regPc 5) (step (start 0x0073_22B3#32 [(6, 0xFFFF_FFFF), (7, 1)])) = some (1#32, 0x104#32) := by decide

/-- V45-9. -/
theorem test_sltu :
    seen (regPc 5) (step (start 0x0073_32B3#32 [(6, 0xFFFF_FFFF), (7, 1)])) = some (0#32, 0x104#32) := by decide

/-- V45-11. -/
theorem test_xor : seen (regPc 5) (step (start 0x0063_42B3#32 [(6, 0x1234)])) = some (0#32, 0x104#32) := by decide

/-- V45-12. -/
theorem test_srl :
    seen (regPc 5) (step (start 0x0073_52B3#32 [(6, 0x8000_0000), (7, 0x24)])) = some (0x0800_0000#32, 0x104#32) := by decide

/-- V45-14. -/
theorem test_sra :
    seen (regPc 5) (step (start 0x4073_52B3#32 [(6, 0x8000_0000), (7, 0xFFFF_FFE1)])) = some (0xC000_0000#32, 0x104#32) := by decide

/-- V45-15. -/
theorem test_or :
    seen (regPc 5) (step (start 0x0073_62B3#32 [(6, 0xF0), (7, 0xF)])) = some (0xFF#32, 0x104#32) := by decide

/-- V45-16. -/
theorem test_and :
    seen (regPc 5) (step (start 0x0073_72B3#32 [(6, 0xF0), (7, 0x3C)])) = some (0x30#32, 0x104#32) := by decide

/-- V46-1. -/
theorem test_ecall : seen (runPc) (step (start 0x0000_0073#32 [])) = some (.haltedClean, 0x100, 0) := by decide

/-- V46-1 and R161. -/
theorem test_ecall_result : stepResult (start 0x0000_0073#32 []) = .haltClean := by decide

/-- V42-12. -/
theorem test_otherBranch :
    seen (diagPc) (step (start 0x0000_2463#32 [])) = some ([⟨.unknownFunct, 0x100, 0x0000_2463⟩], 0x104, 0) := by decide

/-- V43-25. -/
theorem test_otherLoad :
    seen (diagPc) (step (start 0x0002_9303#32 [(5, 0x2000)])) = some ([⟨.unknownFunct, 0x100, 0x0002_9303⟩], 0x104, 0) := by decide

/-- V43-26. -/
theorem test_otherStore :
    seen (diagPc) (step (start 0x0062_9023#32 [(5, 0x0100_0000), (6, 1)])) = some ([⟨.unknownFunct, 0x100, 0x0062_9023⟩], 0x104, 1) := by decide

/-- V46-5. -/
theorem test_anyOtherOpcode :
    seen (diagPc) (step (start 0xFFFF_FFFF#32 [])) = some ([⟨.unknownOpcode, 0x100, 0xFFFF_FFFF⟩], 0x104, 0) := by decide

/-- V46-3. -/
theorem test_anyOtherOpcode_zero :
    seen (diagPc) (step (start 0x0000_0000#32 [])) = some ([⟨.unknownOpcode, 0x100, 0x0000_0000⟩], 0x104, 0) := by decide

/-- V41-17. -/
theorem test_otherJalr :
    [0x1000_1067#32].map (fun w => refusedAs (step (start w [])))
      = [some (.unsettled .u1)] := by decide

/-- V44-17, V44-19, V44-20. -/
theorem test_otherOpImm :
    [0x0013_2293#32, 0x0203_1293#32, 0x4213_5293#32].map (fun w => refusedAs (step (start w [])))
      = [some (.unsettled .u2), some (.unsettled .u3), some (.unsettled .u4)] := by decide

/-- V45-19, V45-18. -/
theorem test_otherOp :
    [0x4073_72B3#32, 0x0273_02B3#32].map (fun w => refusedAs (step (start w [])))
      = [some (.unsettled .u5), some (.unsettled .u6)] := by decide

/-- V46-2, V46-6. -/
theorem test_otherSystem :
    [0x0010_0073#32, 0xC000_22F3#32].map (fun w => refusedAs (step (start w [])))
      = [some (.unsettled .u7), some (.unsettled .u7)] := by decide

/-! ## The step, the loader and the loop -/

/-- VS-1, VS-2. -/
theorem test_misaligned_before_fetch :
    [0x102#32, 0x0100_0002#32].map (fun pc => refusedAs (step { State.reset with pc := pc }))
      = [some .misalignedFetch, some .misalignedFetch] := by decide

/-- E8. -/
theorem test_fetch_fault :
    seen State.run (step { State.reset with pc := 0x0100_0000#32 })
      = some (.haltedFault ⟨.fetchFault, 0x0100_0000, 0x0100_0000⟩) := by decide

/-- VS-4, VS-5. -/
theorem test_halted_again :
    stepResult { State.reset with run := .haltedClean } = .haltClean
      ∧ stepResult { State.reset with run := .haltedFault ⟨.loadFault, 0x100, 0x0100_0000⟩ } = .fault .loadFault := by decide

/-- VS-6. -/
theorem test_fetch_window :
    seen diagPc (step { State.reset with pc := 0x1000_0004#32 })
      = some ([⟨.unknownOpcode, 0x1000_0004, 0x0000_0001⟩], 0x1000_0008, 0) := by decide

/-- V41-6: `pc + 4` wraps. -/
theorem test_top_of_memory :
    seen (regPc 6) (step (State.withFetchWord { State.construct ⟨4096⟩ with pc := 0xFFFF_FFFC#32 } 32 0x0000_0317))
      = some (0xFFFF_FFFC#32, 0#32) := by decide

/-- A PC that cannot be fetched is put at 0 (log 10). -/
theorem test_withFetchWord_moves_pc :
    seen State.pc (step (State.withFetchWord { State.reset with pc := 0x102#32 } 32 0x0000_0013)) = some 4#32 := by decide

/-- P7 and E7. -/
theorem test_flat_program :
    (match hostRun {} onPaddr (.flat [0xB7, 0x02, 0x00, 0x10, 0x13, 0x03, 0x10, 0x04, 0x23, 0x80, 0x62, 0x00, 0x73, 0, 0, 0]) with
      | .clean s => (s.pc, s.tx, s.diag) | _ => (0, [], [])) = (0x0C#32, [0x41#8], []) := by decide

/-- P8b. -/
theorem test_out_of_budget :
    (match hostRun {} { onPaddr with maxSteps := 5 } (.flat [0x6F, 0, 0, 0] 0) with | .outOfBudget s => s.pc | _ => 1) = 0#32 := by decide

/-- R341: truncated base, file bytes, zero fill; overlapping segments. -/
theorem test_elf_load :
    seen (fun s => (s.pc, bytesTx 0x1FFF s))
        (boot {} onPaddr (.elf [⟨0x1_0000_2000, 0, [0x11, 0x22], 4⟩] 0x100#32)) = some (0x100#32, [0, 0x11, 0x22, 0, 0], [])
      ∧ refusedAs (boot {} onPaddr (.elf [⟨0, 0, [1, 2], 2⟩, ⟨1, 9, [3], 1⟩] 0)) = some .overlappingSegments := by decide

/-- R341, D17: the address field is the parameter's. -/
theorem test_elf_load_vaddr :
    seen (bytesTx 0x2000) (boot {} { elfAddrField := .pVaddr } (.elf [⟨0x3000, 0x2000, [0x11, 0x22], 2⟩] 0))
      = some ([0x11, 0x22, 0, 0, 0], []) := by decide

/-- R125, R33. -/
theorem test_asm_forms :
    asm (.lw 6 5 (-2)) = "lw x6, -2(x5)" ∧ asm (.bne 5 6 (-4)) = "bne x5, x6, -4" ∧ abiName 10 = "a0"
      ∧ asm (.lui 5 0x10000) = "lui x5, 65536" := by decide

/-! ## Witnesses: the hypotheses of the statements can be met

Each theorem is named after the obligation it serves, and shows states and operands that meet its hypotheses together, at the
boundary values of each clause. -/

theorem witness_DecodeOfEncode : (Instr.bgeu 31 0 (-4096)).wf = true ∧ (Instr.otherOp 0x0273_02B3).wf = true := by decide

theorem witness_EncodeOfDecode : decode 0x0000_0013#32 = decode 0x0000_0013#32 := rfl

/-- Both ends of every range, with the parity the B, U and J clauses ask for. -/
theorem witness_ImmediateRoundTrip :
    (-2048 : Int) ≤ -2048 ∧ (2047 : Int) ≤ 2047 ∧ (-4096 : Int) % 2 = 0 ∧ (4094 : Int) % 2 = 0
      ∧ (-2 ^ 31 : Int) % 4096 = 0 ∧ (2 ^ 31 - 4096 : Int) % 4096 = 0 ∧ (-1048576 : Int) % 2 = 0
      ∧ (1048574 : Int) % 2 = 0 := by decide

theorem witness_BytesDecodeLittleEndian : Instr.ecall.wf = true ∧ ([0x73, 0, 0] : List Byte).length < 4 := by decide

/-- RAM at both ends, and a load that leaves 0x104 unwritten. -/
theorem witness_ConstructionValues :
    Ram (State.construct {}) 0#32 ∧ Ram (State.construct {}) 0x00FF_FFFF#32
      ∧ ∃ s, boot {} onPaddr (.flat [0x73, 0, 0, 0] 0x100#32) = .next s ∧ (0x104 < 0x100 ∨ 0x100 + 4 ≤ 0x104) :=
  ⟨by decide, by decide, _, rfl, by decide⟩

/-- Both halted run states. -/
theorem witness_HaltedStepChangesNothing :
    (∃ s : State, s.run ≠ .running ∧ s.run = .haltedClean)
      ∧ ∃ (s : State) (f : FaultRecord), s.run ≠ .running ∧ s.run = .haltedFault f :=
  ⟨⟨{ State.reset with run := .haltedClean }, by decide, rfl⟩,
    ⟨{ State.reset with run := .haltedFault ⟨.loadFault, 0, 0⟩ }, _, by decide, rfl⟩⟩

theorem witness_MisalignedFetchRefused :
    ∃ s : State, s.run = .running ∧ s.pc.toNat % 4 ≠ 0 := ⟨{ State.reset with pc := 0x102#32 }, rfl, by decide⟩

/-- The first address past RAM, and the last word of the address space. -/
theorem witness_FetchFaultHalts :
    ((0x0100_0000#32).toNat % 4 = 0 ∧ ∃ k, k < 4 ∧ ¬ Mapped State.reset (nth 0x0100_0000#32 k))
      ∧ (0xFFFF_FFFC#32).toNat % 4 = 0 ∧ ∃ k, k < 4 ∧ ¬ Mapped State.reset (nth 0xFFFF_FFFC#32 k) := by decide

theorem witness_StepRunsDecodedInstruction :
    ∃ (s : State) (i : Instr), s.run = .running ∧ s.pc.toNat % 4 = 0 ∧ i.wf = true
      ∧ (∀ k, k < 4 → routerReadByte (nth s.pc k) s = (encodeBytes i)[k]?)
      ∧ routerReadByte s.pc s = some 0x13#8 ∧ routerReadByte (nth s.pc 3) s = some 0x00#8 :=
  ⟨start 0x0000_0013#32 [], .addi 0 0 0, by decide⟩

/-- A PC that is kept, at the last word of RAM, and an address outside the placed bytes. -/
theorem witness_PlacedWordRunsNext :
    ∃ (s : State) (m : Nat), 1 ≤ s.config.memSizeMib ∧ 32 ≤ 32 ∧ s.pc.toNat % 4 = 0 ∧ Ram s s.pc
      ∧ ∀ k, k < 4 → m ≠ (s.withFetchWord 32 0x13).pc.toNat + k :=
  ⟨{ State.reset with pc := 0x00FF_FFFC#32 }, 0x00FF_FFFB, by decide⟩

/-- The four disjuncts of the refusal: a misaligned PC, an unsettled word, an odd JALR target, and none of them. -/
theorem witness_StepRefusesExactly :
    refusedAs (step { State.reset with pc := 2#32 }) = some .misalignedFetch
      ∧ refusedAs (step (start 0x0010_0073#32 [])) = some (.unsettled .u7)
      ∧ refusedAs (step (start 0x0012_8067#32 [(5, 0x200)])) = some .jalrOddTarget
      ∧ refusedAs (step (start 0x0000_0013#32 [])) = none := by decide

/-- A step that halts and a step that runs on. -/
theorem witness_PcAfterStep :
    (∃ s t : State, s.run = .running ∧ step s = .next t ∧ t.run ≠ .running)
      ∧ ∃ s t : State, s.run = .running ∧ step s = .next t ∧ t.run = .running := by
  obtain ⟨t, ht, h⟩ := next_of_seen (P := fun t => t.run ≠ .running) (r := step (start 0x0000_0073#32 [])) (by decide)
  obtain ⟨u, hu, h'⟩ := next_of_seen (P := fun t => t.run = .running) (r := step (start 0x0100_00EF#32 [])) (by decide)
  exact ⟨⟨_, t, by decide, ht, h⟩, _, u, by decide, hu, h'⟩

/-- A store that halts after two bytes. -/
theorem witness_HaltEntryChangesRunStateOnly :
    ∃ s t : State, s.run = .running ∧ step s = .next t ∧ t.run ≠ .running ∧ t.mem ≠ s.mem := by
  obtain ⟨t, ht, h⟩ := next_of_seen
    (P := fun t => t.run ≠ .running ∧ t.mem ≠ (start 0xFE62_AF23#32 [(5, 0x0100_0000), (6, 0x1234_5678)]).mem)
    (r := step (start 0xFE62_AF23#32 [(5, 0x0100_0000), (6, 0x1234_5678)])) (by decide)
  exact ⟨_, t, by decide, ht, h⟩

/-- An instruction that writes x5, seen from x6, and one that faults. -/
theorem witness_OnlyRdIsWritten :
    (∃ (i : Instr) (s t : State), exec i s = .next t ∧ destOf i ≠ some 6#5 ∧ destOf i = some 5#5)
      ∧ ∃ (i : Instr) (s t : State), exec i s = .next t ∧ s.run = .running ∧ t.run ≠ .running := by
  refine ⟨⟨.lui 5 1, State.reset, _, rfl, by decide⟩, .lb 5 0 (-1), State.reset, ?_⟩
  obtain ⟨t, ht, h⟩ := next_of_seen (P := fun t => t.run ≠ .running) (r := exec (.lb 5 0 (-1)) State.reset) (by decide)
  exact ⟨t, ht, by decide, h⟩

/-- Two different states that agree on what ADD reads, one on which JALR is refused, and the next state's run state. -/
theorem witness_OnlySourcesAreRead :
    ∃ (s s' : State), s ≠ s' ∧ s.run = .running ∧ s'.run = .running ∧ s'.pc = s.pc ∧ s'.mem = s.mem ∧ s'.tx = s.tx
      ∧ s'.diag = s.diag ∧ s'.config = s.config ∧ (∀ r ∈ sourcesOf (.add 5 6 7), s'.reg r = s.reg r)
      ∧ (∀ r ∈ sourcesOf (.jalr 5 6 1), s'.reg r = s.reg r) ∧ refusedAs (exec (.jalr 5 6 1) s) = some .jalrOddTarget
      ∧ seen State.run (exec (.add 5 6 7) s) = some .running :=
  ⟨State.reset, State.reset.setReg 8 1, by decide⟩

theorem witness_OnlyStoresChangeMemory :
    ∃ s t : State, step s = .next t ∧ (t.mem ≠ s.mem ∨ t.tx ≠ s.tx) := by
  obtain ⟨t, ht, h⟩ := next_of_seen (P := fun t => t.tx ≠ []) (r := step (start 0x0062_8023#32 [(5, 0x1000_0000)])) (by decide)
  exact ⟨_, t, ht, .inr h⟩

/-- A step that transmits. -/
theorem witness_TransmitAppendsOneByte : ∃ s t : State, step s = .next t ∧ t.tx = s.tx ++ [0x41#8] := by
  obtain ⟨t, ht, h⟩ := next_of_seen (P := fun t => t.tx = [0x41#8])
    (r := step (start 0x0062_A023#32 [(5, 0x1000_0000), (6, 0x1234_5641)])) (by decide)
  exact ⟨_, t, ht, h⟩

/-- A step that records an anomaly, from a state that meets every invariant; and a step that faults. -/
theorem witness_steps :
    (∃ s t : State, s.run = .running ∧ s.wf ∧ DiagSound s ∧ FaultRecordSound s ∧ step s = .next t ∧ t.diag ≠ s.diag)
      ∧ ∃ s t : State, s.run = .running ∧ s.wf ∧ DiagSound s ∧ FaultRecordSound s ∧ step s = .next t
        ∧ t.run ≠ .running := by
  have hd : ∀ w, DiagSound (start w []) := fun _ _ h => by cases h
  have hf : ∀ w, FaultRecordSound (start w []) := fun _ _ h => by cases h
  obtain ⟨t, ht, h⟩ := next_of_seen (P := fun t => t.diag ≠ []) (r := step (start 0x0000_000F#32 [])) (by decide)
  obtain ⟨u, hu, h'⟩ := next_of_seen (P := fun t => t.run ≠ .running) (r := step (start 0xFFC2_A303#32 [])) (by decide)
  exact ⟨⟨_, t, by decide, by decide, hd _, hf _, ht, h⟩, _, u, by decide, by decide, hd _, hf _, hu, h'⟩

theorem witness_DiagRecordsEachAnomaly : ∃ s t : State, s.run = .running ∧ step s = .next t ∧ t.diag ≠ s.diag := by
  obtain ⟨⟨s, t, hr, -, -, -, h, hn⟩, -⟩ := witness_steps
  exact ⟨s, t, hr, h, hn⟩

theorem witness_OneEventPerStep : ∃ s t : State, step s = .next t ∧ t.run ≠ .running := by
  obtain ⟨-, s, t, -, -, -, -, h, hn⟩ := witness_steps
  exact ⟨s, t, h, hn⟩

theorem witness_ResetIsWellFormed :
    ∃ (c : Config) (s : State), c.legal ∧ boot c onPaddr (.flat [0x73, 0, 0, 0] 0) = .next s := ⟨⟨4096⟩, _, by decide, rfl⟩

theorem witness_StepKeepsWellFormed : ∃ s t : State, s.wf ∧ step s = .next t := by
  obtain ⟨⟨s, t, -, hw, -, -, h, -⟩, -⟩ := witness_steps
  exact ⟨s, t, hw, h⟩

/-- With a diagnostic list that is not empty after the step. -/
theorem witness_StepKeepsDiagSound : ∃ s t : State, DiagSound s ∧ step s = .next t ∧ t.diag ≠ [] := by
  obtain ⟨t, ht, h⟩ := next_of_seen (P := fun t => t.diag ≠ []) (r := step (start 0x0000_000F#32 [])) (by decide)
  exact ⟨_, t, fun _ h => (by cases h), ht, h⟩

/-- With a run state that is a fault after the step. -/
theorem witness_StepKeepsFaultRecordSound : ∃ s t : State, FaultRecordSound s ∧ step s = .next t ∧ t.run ≠ .running := by
  obtain ⟨-, s, t, -, -, -, hf, h, hn⟩ := witness_steps
  exact ⟨s, t, hf, h, hn⟩

theorem witness_UpperImmediateResults :
    0x1234_52B7#32 &&& 0x0000_007F = 0x0000_0037 ∧ 0xFFFF_F317#32 &&& 0x0000_007F = 0x0000_0017 := by decide

/-- The encoding's mask, and targets that the next fetch refuses and faults on. -/
theorem witness_JalResult :
    0x0100_00EF#32 &&& 0x0000_007F = 0x0000_006F
      ∧ (∃ s : State, s.run = .running ∧ s.pc.toNat % 4 ≠ 0)
      ∧ ∃ s : State, s.run = .running ∧ s.pc.toNat % 4 = 0 ∧ ¬ Mapped s s.pc :=
  ⟨by decide, ⟨{ State.reset with pc := 0x0010_00FE#32 }, rfl, by decide⟩,
    { State.reset with pc := 0x0100_0000#32 }, rfl, by decide⟩

/-- The encoding's mask, a U1 word, an even and an odd target. -/
theorem witness_JalrResult :
    0x0042_80E7#32 &&& 0x0000_707F = 0x0000_0067
      ∧ (0x1000_1067#32).extractLsb' 0 7 = 0x67#7 ∧ (0x1000_1067#32).extractLsb' 12 3 ≠ 0#3
      ∧ (((State.reset.reg 5).toNat : Int) + (-2 : BitVec 12).toInt) % 2 = 0
      ∧ (((State.reset.reg 5).toNat : Int) + (1 : BitVec 12).toInt) % 2 = 1 := by decide

/-- The six masks, the excluded funct3 values, and each condition met and not met. -/
theorem witness_BranchResults :
    [0x0052_8463#32, 0xFE62_9EE3#32, 0x8062_C063#32, 0x0062_D663#32, 0x0062_E663#32, 0x7E00_7FE3#32].map (· &&& 0x0000_707F)
        = [0x0063, 0x1063, 0x4063, 0x5063, 0x6063, 0x7063]
      ∧ (0x0000_3463#32).extractLsb' 0 7 = 0x63#7 ∧ (0x0000_3463#32).extractLsb' 12 3 ∈ [2#3, 3#3]
      ∧ (0x8000_0000#32).toInt < (0x7FFF_FFFF#32).toInt ∧ ¬ (0#32).toInt < (0#32).toInt
      ∧ (0x7FFF_FFFF#32).toNat < (0x8000_0000#32).toNat ∧ ¬ (0xFFFF_FFFF#32).toNat < (1#32).toNat := by decide

/-- Mapped and unmapped effective addresses at the ends of RAM and of the window. -/
theorem witness_LoadByteResults :
    0x0002_8303#32 &&& 0x0000_707F = 0x0000_0003 ∧ 0x0002_C303#32 &&& 0x0000_707F = 0x0000_4003
      ∧ (∃ ea : Word, ea = BitVec.ofInt 32 (((State.reset.setReg 5 0x0100_0000).reg 5).toNat + (-1 : BitVec 12).toInt)
        ∧ Mapped (State.reset.setReg 5 0x0100_0000) ea)
      ∧ Mapped State.reset 0#32 ∧ Mapped State.reset 0x00FF_FFFF#32 ∧ Mapped State.reset 0x1000_0000#32
      ∧ Mapped State.reset 0x1000_00FF#32
      ∧ ¬ Mapped State.reset 0x0100_0000#32 ∧ ¬ Mapped State.reset 0x0FFF_FFFF#32 ∧ ¬ Mapped State.reset 0x1000_0100#32 :=
  ⟨by decide, by decide, ⟨0x00FF_FFFF#32, by decide⟩, by decide⟩

theorem witness_LoadWordResult :
    0x0012_A303#32 &&& 0x0000_707F = 0x0000_2003
      ∧ (∀ k, k < 4 → Mapped State.reset (nth 0x00FF_FFFC#32 k)) ∧ (∀ k, k < 4 → Mapped State.reset (nth 0x1000_00FC#32 k))
      ∧ (∃ k, k < 4 ∧ ¬ Mapped State.reset (nth 0x00FF_FFFD#32 k))
      ∧ ∃ k, k < 4 ∧ ¬ Mapped State.reset (nth 0x1000_00FD#32 k) := by decide

theorem witness_StoreByteResult :
    0x0062_8023#32 &&& 0x0000_707F = 0x0000_0023
      ∧ Mapped State.reset 0#32 ∧ Mapped State.reset 0x00FF_FFFF#32 ∧ Mapped State.reset 0x1000_0000#32
      ∧ Mapped State.reset 0x1000_00FF#32
      ∧ ¬ Mapped State.reset 0x0100_0000#32 ∧ ¬ Mapped State.reset 0x1000_0100#32 := by
  decide

/-- The whole word mapped; and each `n` from 0 to 3 as the first byte that is not. -/
theorem witness_StoreWordResult :
    0x0062_A023#32 &&& 0x0000_707F = 0x0000_2023
      ∧ (∀ k, k < 4 → Mapped State.reset (nth 0x1000_0000#32 k)) ∧ (∀ k, k < 4 → Mapped State.reset (nth 0x00FF_FFFC#32 k))
      ∧ ((∀ k, k < 0 → Mapped State.reset (nth 0x0100_0000#32 k)) ∧ ¬ Mapped State.reset (nth 0x0100_0000#32 0))
      ∧ ((∀ k, k < 1 → Mapped State.reset (nth 0x00FF_FFFF#32 k)) ∧ ¬ Mapped State.reset (nth 0x00FF_FFFF#32 1))
      ∧ ((∀ k, k < 2 → Mapped State.reset (nth 0x00FF_FFFE#32 k)) ∧ ¬ Mapped State.reset (nth 0x00FF_FFFE#32 2))
      ∧ ((∀ k, k < 3 → Mapped State.reset (nth 0x00FF_FFFD#32 k)) ∧ ¬ Mapped State.reset (nth 0x00FF_FFFD#32 3)) := by
  decide

theorem witness_OpImmResults :
    [0x8002_8293#32, 0xFFF3_4293#32, 0x8003_6293#32, 0x7FF3_7293#32].map (· &&& 0x0000_707F)
      = [0x0013, 0x4013, 0x6013, 0x7013] := by decide

theorem witness_ShiftImmediateResults :
    [0x01F3_1293#32, 0x0043_5293#32, 0x4043_5293#32].map (· &&& 0xFE00_707F) = [0x1013, 0x5013, 0x4000_5013]
      ∧ (0x0203_1293#32).extractLsb' 0 7 = 0x13#7 ∧ (0x0203_1293#32).extractLsb' 12 3 = 1#3
      ∧ (0x0203_1293#32).extractLsb' 25 7 ≠ 0x00#7
      ∧ (0x4213_5293#32).extractLsb' 0 7 = 0x13#7 ∧ (0x4213_5293#32).extractLsb' 12 3 = 5#3
      ∧ (0x4213_5293#32).extractLsb' 25 7 ≠ 0x00#7 ∧ (0x4213_5293#32).extractLsb' 25 7 ≠ 0x20#7 := by decide

theorem witness_ArithmeticLogicResults :
    [0x0073_02B3#32, 0x4073_02B3#32, 0x0073_42B3#32, 0x0073_62B3#32, 0x0073_72B3#32].map (· &&& 0xFE00_707F)
      = [0x33, 0x4000_0033, 0x4033, 0x6033, 0x7033] := by decide

theorem witness_RegisterShiftResults :
    [0x0073_12B3#32, 0x0073_52B3#32, 0x4073_52B3#32].map (· &&& 0xFE00_707F) = [0x1033, 0x5033, 0x4000_5033] := by decide

theorem witness_CompareResults :
    [0x0073_22B3#32, 0x0073_32B3#32].map (· &&& 0xFE00_707F) = [0x2033, 0x3033] := by decide

/-- ECALL under the full mask, another SYSTEM word, and a state about to run ECALL. -/
theorem witness_EcallHaltsCleanly :
    0x0000_0073#32 &&& 0xFFFF_FFFF = 0x0000_0073
      ∧ (0x0010_0073#32).extractLsb' 0 7 = 0x73#7 ∧ 0x0010_0073#32 ≠ 0x0000_0073#32
      ∧ ∃ s : State, s.run = .running ∧ s.pc.toNat % 4 = 0 ∧ routerReadWord s.pc s = some 0x0000_0073#32 :=
  ⟨by decide, by decide, by decide, start 0x0000_0073#32 [], by decide⟩

theorem witness_UnknownOpcodeSkips :
    (0x0000_000F#32).extractLsb' 0 7
        ∉ [0x37#7, 0x17#7, 0x6F#7, 0x67#7, 0x63#7, 0x03#7, 0x23#7, 0x13#7, 0x33#7, 0x73#7]
      ∧ ∃ s : State, s.run = .running ∧ s.pc.toNat % 4 = 0 ∧ routerReadWord s.pc s = some 0x0000_000F#32
        ∧ classOf (decode 0x0000_000F#32) = .anomaly .unknownOpcode :=
  ⟨by decide, start 0x0000_000F#32 [], by decide⟩

theorem witness_UnknownFunctSkips :
    ((0x0000_2463#32).extractLsb' 0 7 = 0x63#7 ∧ (0x0000_2463#32).extractLsb' 12 3 ∈ [2#3, 3#3])
      ∧ ((0x0002_9303#32).extractLsb' 0 7 = 0x03#7 ∧ (0x0002_9303#32).extractLsb' 12 3 ∈ [1#3, 3#3, 5#3, 6#3, 7#3])
      ∧ ((0x0062_9023#32).extractLsb' 0 7 = 0x23#7 ∧ (0x0062_9023#32).extractLsb' 12 3 ∈ [1#3, 3#3, 4#3, 5#3, 6#3, 7#3])
      ∧ ∃ s : State, s.run = .running ∧ s.pc.toNat % 4 = 0 ∧ routerReadWord s.pc s = some 0x0062_9023#32
        ∧ classOf (decode 0x0062_9023#32) = .anomaly .unknownFunct :=
  ⟨by decide, by decide, by decide, start 0x0062_9023#32 [], by decide⟩

theorem witness_UnsettledWordsRefused :
    (0x0013_3293#32).extractLsb' 12 3 ∈ [2#3, 3#3] ∧ (0x0203_1293#32).extractLsb' 12 3 = 1#3
      ∧ (0x4213_5293#32).extractLsb' 12 3 = 5#3 ∧ (0x4073_72B3#32).extractLsb' 25 7 = 0x20#7
      ∧ (0x0273_02B3#32).extractLsb' 25 7 ≠ 0x20#7
      ∧ ∃ s : State, s.run = .running ∧ s.pc.toNat % 4 = 0 ∧ routerReadWord s.pc s = some 0x0273_02B3#32
        ∧ classOf (decode 0x0273_02B3#32) = .unsettled .u6 :=
  ⟨by decide, by decide, by decide, by decide, by decide, start 0x0273_02B3#32 [], by decide⟩

/-- Each kind of address, at its ends; the status register; no address is of two kinds. -/
theorem witness_RouterReadsByte :
    Window 0x1000_0000#32 ∧ Window 0x1000_00FF#32 ∧ 0x1000_00FF#32 ≠ 0x1000_0004#32 ∧ ¬ Window 0x0FFF_FFFF#32
      ∧ ¬ Window 0x1000_0100#32 ∧ Ram State.reset 0#32 ∧ Ram State.reset 0x00FF_FFFF#32
      ∧ ¬ Mapped State.reset 0x0100_0000#32 ∧ ¬ Mapped State.reset 0xFFFF_FFFF#32 := by decide

theorem witness_RouterReadsWord :
    (∃ k, k < 4 ∧ routerReadByte (nth 0x00FF_FFFD#32 k) State.reset = none)
      ∧ routerReadByte 0x1000_0003#32 State.reset = some 0#8 ∧ routerReadByte (nth 0x1000_0003#32 1) State.reset = some 1#8
      ∧ routerReadByte (nth 0x1000_0003#32 2) State.reset = some 0#8
      ∧ routerReadByte (nth 0x1000_0003#32 3) State.reset = some 0#8 := by decide

theorem witness_RouterWritesByte :
    (0x00FF_FFFF#32).toNat < State.reset.config.memSizeMib * 1048576
      ∧ State.reset.config.memSizeMib * 1048576 ≤ (0x0100_0000#32).toNat
      ∧ Window 0x1000_00FF#32 ∧ 0x1000_00FF#32 ≠ 0x1000_0000#32 ∧ ¬ Window 0x1000_0100#32 := by decide

/-- A word at the top of RAM, its byte 3 stored to. -/
theorem witness_MixedWidthAccessesAgree :
    3 < 4 ∧ (∀ j, j < 4 → Ram State.reset (nth (0x00FF_FFFF#32 - BitVec.ofNat 32 3) j))
      ∧ routerReadWord (0x00FF_FFFF#32 - BitVec.ofNat 32 3) State.reset = some 0#32
      ∧ ∀ j, j < 4 → Ram State.reset (nth 0x2001#32 j) := by decide

/-- A misaligned SW and an SB that complete, the fetched word holding their second and only byte, and a byte of it that neither
wrote. -/
theorem witness_FetchSeesEarlierStore :
    (∃ s t u : State, (∀ j, j < 4 → Mapped s (nth 15#32 j)) ∧ exec (.sw 0 6 15) s = .next t ∧ u.mem = t.mem
        ∧ u.config = t.config ∧ u.run = .running ∧ u.pc.toNat % 4 = 0 ∧ Ram s u.pc
        ∧ 15#32 = BitVec.ofInt 32 ((s.reg 0).toNat + (15 : BitVec 12).toInt)
        ∧ nth u.pc 0 = nth 15#32 1 ∧ ∀ j, j < 4 → nth u.pc 3 ≠ nth 15#32 j)
      ∧ ∃ s t u : State, Mapped s 16#32 ∧ exec (.sb 0 6 16) s = .next t ∧ u.mem = t.mem ∧ u.config = t.config
        ∧ u.run = .running ∧ u.pc.toNat % 4 = 0 ∧ Ram s u.pc ∧ nth u.pc 0 = nth 16#32 0 ∧ nth u.pc 1 ≠ nth 16#32 0 := by
  obtain ⟨t, ht, h⟩ := next_of_seen (P := fun t => t.run = .running) (r := exec (.sw 0 6 15) State.reset) (by decide)
  obtain ⟨t', ht', h'⟩ := next_of_seen (P := fun t => t.run = .running) (r := exec (.sb 0 6 16) State.reset) (by decide)
  have hr : Ram State.reset 16#32 := by decide
  have hp : (16#32).toNat % 4 = 0 := by decide
  have hn : nth 16#32 0 = nth 15#32 1 ∧ (∀ j, j < 4 → nth 16#32 3 ≠ nth 15#32 j) ∧ nth 16#32 1 ≠ nth 16#32 0 := by decide
  exact ⟨⟨State.reset, t, { t with pc := 16#32 }, by decide, ht, rfl, rfl, h, hp, hr, by decide, hn.1, hn.2.1⟩,
    State.reset, t', { t' with pc := 16#32 }, by decide, ht', rfl, rfl, h', hp, hr, rfl, hn.2.2⟩

theorem witness_WindowShadowsRam :
    Window 0x1000_0000#32 ∧ 0x1000_0000 ≤ 0x1000_00FF ∧ 0x1000_00FF < 0x1000_0100 := by decide

/-- One byte too many, and the last byte at the last address. -/
theorem witness_BulkLoadAllOrNothing :
    (∃ k, k < ([1#8, 2#8] : List Byte).length ∧ 16 ≤ 15 + k)
      ∧ ((∀ k, k < ([1#8, 2#8] : List Byte).length → 14 + k < 16) ∧ ([1#8, 2#8] : List Byte)[1]? = some 2#8) := by decide

/-- An override, none, and a loaded machine whose initial PC is misaligned. -/
theorem witness_InitialPcChosen :
    (∃ p : HostParams, p.pcOverride ≠ 0#32) ∧ (∃ p : HostParams, p.pcOverride = 0#32)
      ∧ ∃ (c : Config) (p : HostParams) (s : State), boot c p (.flat [0x73, 0, 0, 0] 0) = .next s ∧ s.pc.toNat % 4 ≠ 0 :=
  ⟨⟨{ onPaddr with pcOverride := 4 }, by decide⟩, ⟨onPaddr, rfl⟩, {}, { onPaddr with pcOverride := 2 }, _, rfl, by decide⟩

/-- A file that ends one byte past memory, and one that ends at its last byte. -/
theorem witness_FlatImageLoads :
    (∃ k, k < ([1, 2] : List Byte).length ∧ (1 : Nat) * 1048576 ≤ (0x000F_FFFF#32).toNat + k)
      ∧ (∀ k, k < ([1, 2] : List Byte).length → (0x000F_FFFE#32).toNat + k < (1 : Nat) * 1048576) := by decide

/-- Overlapping segments; apart with a byte outside memory; apart and inside. -/
theorem witness_ElfImageLoads :
    refusedAs (boot {} onPaddr (.elf [⟨0, 0, [1], 2⟩, ⟨1, 0, [], 1⟩] 0)) = some .overlappingSegments
      ∧ segmentsApart .pPaddr [⟨0, 0, [1], 2⟩, ⟨2, 0, [3], 1⟩] = true
      ∧ (boot {} onPaddr (.elf [⟨0x00FF_FFFF, 0, [1], 2⟩] 0) matches .fault .loadFailure)
      ∧ seen (bytesTx 0) (boot {} onPaddr (.elf [⟨0, 0, [1], 2⟩, ⟨2, 0, [3], 1⟩] 0)) = some ([1, 0, 3, 0, 0], []) := by decide

/-- A run that goes on, a run that is refused, and a run out of budget. -/
theorem witness_RunLoopMatchesSteps :
    (∃ s t, Host.Core.run Sys2Proof.core 1 s = .next t) ∧ (∃ s r, Host.Core.run Sys2Proof.core 1 s = .refused r)
      ∧ ∃ s t, runLoop 0 s = .outOfBudget t :=
  ⟨⟨({ State.reset with run := .haltedClean } : State), _, rfl⟩, ⟨({ State.reset with pc := 2#32 } : State), _, rfl⟩,
    State.reset, _, rfl⟩

/-- An access that is mapped and one that is not, an even and an odd JALR target, and one word of every other class. -/
theorem witness_StepReportsHowItEnds :
    (∃ s, RunsNext s (.lb 6 5 0) ∧ ∀ a ∈ accessed s (.lb 6 5 0), Mapped s a)
      ∧ (∃ s, RunsNext s (.lw 6 5 (-2)) ∧ ∃ a ∈ accessed s (.lw 6 5 (-2)), ¬ Mapped s a)
      ∧ (∃ s, RunsNext s (.jalr 0 5 1) ∧ (((s.reg 5).toNat : Int) + (1 : BitVec 12).toInt) % 2 = 0)
      ∧ (∃ s, RunsNext s (.jalr 0 5 1) ∧ (((s.reg 5).toNat : Int) + (1 : BitVec 12).toInt) % 2 = 1)
      ∧ (∃ s, RunsNext s .ecall) ∧ (∃ s, RunsNext s (.otherLoad 0x0002_9303)) ∧ ∃ s, RunsNext s (.otherSystem 0x0010_0073) := by
  refine ⟨⟨start 0x0002_8303#32 [(5, 0x1000_00FF)], runsNext_of 0x0002_8303 (by decide), fun a ha => ?_⟩,
    ⟨start 0xFFE2_A303#32 [(5, 0x0100_0000)], runsNext_of 0xFFE2_A303 (by decide), 0x0100_0000#32, by decide⟩,
    ⟨start 0x0012_8067#32 [(5, 0x201)], runsNext_of 0x0012_8067 (by decide), by decide⟩,
    ⟨start 0x0012_8067#32 [(5, 0x200)], runsNext_of 0x0012_8067 (by decide), by decide⟩,
    ⟨start 0x0000_0073#32 [], runsNext_of 0x0000_0073 (by decide)⟩,
    ⟨start 0x0002_9303#32 [], runsNext_of 0x0002_9303 (by decide)⟩,
    ⟨start 0x0010_0073#32 [], runsNext_of 0x0010_0073 (by decide)⟩⟩
  rw [show accessed (start 0x0002_8303#32 [(5, 0x1000_00FF)]) (.lb 6 5 0) = [0x1000_00FF#32] by decide,
    List.mem_singleton] at ha
  subst ha
  decide

/-- The five accesses running next, at the address in x5: one that is mapped, and one that is not. -/
theorem witness_access_reports :
    (∀ ea ∈ [0x2000#32, 0x0100_0000#32],
      RunsNext (start 0x0002_8303#32 [(5, ea)]) (.lb 6 5 0) ∧ RunsNext (start 0x0002_C303#32 [(5, ea)]) (.lbu 6 5 0)
        ∧ RunsNext (start 0x0002_A303#32 [(5, ea)]) (.lw 6 5 0) ∧ RunsNext (start 0x0062_8023#32 [(5, ea)]) (.sb 5 6 0)
        ∧ RunsNext (start 0x0062_A023#32 [(5, ea)]) (.sw 5 6 0))
      ∧ (∀ k, k < 4 → Mapped State.reset (nth 0x2000#32 k)) ∧ ¬ Mapped State.reset (nth 0x0100_0000#32 0) := by
  refine ⟨fun ea he => ?_, by decide, by decide⟩
  rw [List.mem_pair] at he
  rcases he with rfl | rfl <;>
    exact ⟨runsNext_of 0x0002_8303 (by decide), runsNext_of 0x0002_C303 (by decide), runsNext_of 0x0002_A303 (by decide),
      runsNext_of 0x0062_8023 (by decide), runsNext_of 0x0062_A023 (by decide)⟩

/-- An even and an odd target. -/
theorem witness_PcRelativeExpansions :
    (State.reset.pc.toNat + (0xFFFF_FFFE#32).toNat) % 2 = 0 ∧ (State.reset.pc.toNat + (0x7FFF_FFFF#32).toNat) % 2 = 1 := by
  decide

end Sys2Proof.Tests
end

section
/-! PROOFS. The state's records (10_state.md): the register file, the transmit stream and the diagnostic list. -/

namespace Sys2Proof.Machine

variable {s t : State} {w : Word}

/-! ## The transmit stream (R45) -/

/-- The transmit stream is as before, or has one more byte at its end. -/
def TxGrowsByAtMostOne (s t : State) : Prop := t.tx = s.tx ∨ ∃ b : Byte, t.tx = s.tx ++ [b]

theorem routerWriteByte_txAddr (b : Byte) (s : State) : routerWriteByte txAddr b s = .ok (transmit b s) := if_pos rfl

/-- At most one byte of a word access lies at a given address. -/
theorem filter_nth_eq (ea a : Word) {n : Nat} (hn : n ≤ 4) :
    (List.range n).filter (fun k => nth ea k = a) = []
      ∨ ∃ k, (List.range n).filter (fun k => nth ea k = a) = [k] := by
  by_cases h : ∃ k, k < n ∧ nth ea k = a
  · obtain ⟨k, hk, rfl⟩ := h
    have hfilter : (List.range n).filter (fun j => nth ea j = nth ea k) = (List.range n).filter (· == k) :=
      List.filter_congr fun j hj => by
        have hj := List.mem_range.1 hj
        simp only [nth_inj (a := ea) (show j < 4 by omega) (show k < 4 by omega), beq_eq_decide]
    have hcount : (List.range n).count k = 1 := List.count_eq_one_of_mem List.nodup_range (List.mem_range.2 hk)
    exact .inr ⟨k, by rw [hfilter, List.filter_beq, hcount]; rfl⟩
  · refine .inl (List.filter_eq_nil_iff.2 fun k hk => ?_)
    have hne : nth ea k ≠ a := fun he => h ⟨k, List.mem_range.1 hk, he⟩
    simp [hne]

/-- The bytes of one store pass the transmit register at most once. -/
theorem StoredBytes.txGrows {ea v : Word} {n : Nat} (h : StoredBytes ea v n s t) (hn : n ≤ 4) :
    TxGrowsByAtMostOne s t := by
  obtain ⟨-, -, -, -, htx, -, -⟩ := h
  rcases filter_nth_eq ea 0x1000_0000#32 hn with he | ⟨k, he⟩ <;> rw [he] at htx
  · exact .inl (by simpa using htx)
  · exact .inr ⟨_, htx⟩

/-- Of all the ways an instruction ends, only the stores' touch the transmit stream. -/
theorem ExecEnds.txGrows {i : Instr} (h : ExecEnds i s (.next t)) : TxGrowsByAtMostOne s t := by
  cases h with
  | wrote => exact .inl (by simp)
  | moved => exact .inl rfl
  | loadFault => exact .inl rfl
  | storedByte _ _ _ _ _ _ hb => exact hb.txGrows (n := 1) (by omega)
  | storedWord _ _ _ _ _ _ hb => exact hb.txGrows (n := 4) (by omega)
  | byteStoreFault => exact .inl rfl
  | wordStoreFault _ _ _ _ n _ hn _ hb => exact hb.txGrows (n := n) (by omega)
  | halted => exact .inl rfl
  | skipped => exact .inl rfl

theorem step_txGrows (h : step s = .next t) : TxGrowsByAtMostOne s t := by
  rcases step_next_cases h with ⟨-, rfl⟩ | ⟨-, -, -, rfl⟩ | ⟨-, -, w, -, he⟩
  · exact .inl rfl
  · exact .inl rfl
  · exact he.txGrows

/-- Settles O20: only a store reaches the transmit stream, and its bytes have different addresses. -/
theorem transmitAppendsOneByte : Obligations.TransmitAppendsOneByte :=
  ⟨State.construct_tx, fun b s => ⟨transmit b s, routerWriteByte_txAddr b s, transmit_tx s b⟩, fun _ _ => step_txGrows⟩

/-! ## The diagnostic list (R46) -/

theorem eventsOf_of_anomaly {kind : AnomalyKind} (s : State) (h : classOf (decode w) = .anomaly kind) :
    eventsOf s w = [⟨kind, s.pc, w⟩] := by
  simp [eventsOf, h]

theorem eventsOf_of_instr (s : State) (h : classOf (decode w) = .instr) : eventsOf s w = [] := by
  simp [eventsOf, h]

theorem eventsOf_of_halt (s : State) (h : classOf (decode w) = .halt) : eventsOf s w = [] := by
  simp [eventsOf, h]

/-- An end that answers a next state appends the events of the word, and the word an anomaly records is the word itself. -/
theorem ExecEnds.diag_eq (h : ExecEnds (decode w) s (.next t)) : t.diag = s.diag ++ eventsOf s w := by
  have kept (hc : classOf (decode w) = .instr) : s.diag = s.diag ++ eventsOf s w := by
    rw [eventsOf_of_instr s hc, List.append_nil]
  cases h with
  | wrote rd v _ hc => simpa using kept hc
  | moved _ hc => exact kept hc
  | loadFault _ hc => exact kept hc
  | storedByte _ _ _ _ hi _ _ hr => exact hr.diag.trans (kept (by rw [hi]; rfl))
  | storedWord _ _ _ _ hi _ _ hr => exact hr.diag.trans (kept (by rw [hi]; rfl))
  | byteStoreFault _ _ _ hi => exact kept (by rw [hi]; rfl)
  | wordStoreFault _ _ _ _ _ hi _ _ _ hr => exact hr.diag.trans (kept (by rw [hi]; rfl))
  | halted hi => rw [eventsOf_of_halt s (by rw [hi]; rfl), List.append_nil]
  | skipped kind w' hc hw =>
    have hword : w = w' := (encode_of_anomaly hc).symm.trans hw
    rw [eventsOf_of_anomaly s hc, hword, State.setPc_diag]

/-- Settles O21: by the ways a running step answers a next state, a fetch fault and the ends of an instruction. -/
theorem diagRecordsEachAnomaly : Obligations.DiagRecordsEachAnomaly := by
  refine ⟨State.construct_diag, fun s t hrun hstep => ?_⟩
  rcases step_next_cases hstep with ⟨hhalted, -⟩ | ⟨-, -, hfetch, rfl⟩ | ⟨-, -, w, hfetch, hends⟩
  · exact absurd hrun hhalted
  · rw [hfetch]
    exact (List.append_nil _).symm
  · rw [hfetch]
    exact hends.diag_eq

/-! ## The register file (R32) -/

/-- Settles O7, by the read after a write through the gate and the read at construction. -/
theorem registerReadsLastWrite : Obligations.RegisterReadsLastWrite :=
  ⟨fun s i j v => s.reg_setReg v i j, fun c i => State.reg_construct i c⟩

end Sys2Proof.Machine
end

section
/-! PROOFS. Memory and the router (20_memory.md): the byte accesses of the memory leaf and of the router over the whole
address space. -/

namespace Sys2Proof.Machine

variable {s : State} {a : Word}

/-! ## The memory leaf's byte accesses (R64) -/

theorem memoryReadByte_inside (h : a.toNat < s.config.memSizeMib * 1048576) :
    memoryReadByte a s = some (s.mem.read a.toNat) := if_pos h

theorem memoryReadByte_outside (h : s.config.memSizeMib * 1048576 ≤ a.toNat) : memoryReadByte a s = none :=
  if_neg (Nat.not_lt.2 h)

theorem memoryWriteByte_inside (b : Byte) (h : a.toNat < s.config.memSizeMib * 1048576) :
    memoryWriteByte a b s = .ok { s with mem := s.mem.write a.toNat b } := if_pos h

theorem memoryWriteByte_outside (b : Byte) (h : s.config.memSizeMib * 1048576 ≤ a.toNat) :
    memoryWriteByte a b s = .outOfRange s := if_neg (Nat.not_lt.2 h)

/-! ## The router's byte read (R65) -/

theorem windowByte_statusAddr : windowByte statusAddr = 1#8 := if_pos rfl

theorem windowByte_of_ne (h : a ≠ statusAddr) : windowByte a = 0#8 := if_neg h

theorem window_statusAddr : Window statusAddr := by decide

/-- Settles O44: by the kinds of address, the window's two kinds of byte being `windowByte`'s cases. -/
theorem routerReadsByte : Obligations.RouterReadsByte := by
  intro a s
  refine ⟨?status, ?window, routerReadByte_not_window, routerReadByte_ram, routerReadByte_unmapped⟩
  case status =>
    rintro rfl
    rw [routerReadByte_window window_statusAddr, windowByte_statusAddr]
  case window =>
    intro hw hne
    rw [routerReadByte_window hw, windowByte_of_ne hne]

/-! ## The router's byte write (R66) -/

theorem routerWriteByte_window (b : Byte) (h : Window a) (hne : a ≠ txAddr) : routerWriteByte a b s = .ok s := by
  rw [routerWriteByte, if_neg hne, if_pos (inWindow_iff.2 h)]

theorem routerWriteByte_not_window (b : Byte) (h : ¬ Window a) : routerWriteByte a b s = memoryWriteByte a b s := by
  have hne : a ≠ txAddr := fun he => h (he ▸ window_txAddr)
  rw [routerWriteByte, if_neg hne, if_neg (mt inWindow_iff.1 h)]

/-- Settles O46: the leaf by its bound, with the read after a write giving the frame; the router by the kinds of address. -/
theorem routerWritesByte : Obligations.RouterWritesByte := by
  intro a b s
  refine ⟨?inside, ?outside, ?transmit, routerWriteByte_window b, routerWriteByte_not_window b⟩
  case inside =>
    intro h
    exact ⟨memoryReadByte_inside h, _, memoryWriteByte_inside b h, rfl, fun m => Memory.read_write s.mem a.toNat m b⟩
  case outside =>
    intro h
    exact ⟨memoryReadByte_outside h, memoryWriteByte_outside b h⟩
  case transmit =>
    rintro rfl
    exact routerWriteByte_txAddr b s

end Sys2Proof.Machine
end

section
/-! PROOFS. Encoding (30_encoding.md): the immediates of the five formats, from a signed value to a word and back. -/

namespace Sys2Proof.Machine

variable {k : Nat} {n : Int}

/-! ## Fields made from a signed value -/

/-- Bit 0 of the field of an even value is zero, as the B and J formats take it (R105, R107). -/
theorem extract_zero_ofInt_of_even (hk : 0 < k) (heven : n % 2 = 0) : (BitVec.ofInt k n).extractLsb' 0 1 = 0#1 := by
  have hdvd : (2 : Int) ∣ ((2 ^ k : Nat) : Int) := by exact_mod_cast dvd_pow_self 2 hk.ne'
  have hparity : n % ((2 ^ k : Nat) : Int) % 2 = 0 := (Int.emod_emod_of_dvd n hdvd).trans heven
  apply BitVec.eq_of_toNat_eq
  simp only [BitVec.extractLsb'_toNat, BitVec.toNat_ofInt, Nat.shiftRight_zero, BitVec.toNat_ofNat]
  omega

/-- A value in the signed range of a field is what the field extends to (R108 to R110, R112). -/
theorem toInt_signExtend_ofInt (hk : 0 < k) (hk32 : k ≤ 32) (hlo : -2 ^ (k - 1) ≤ n) (hhi : n < 2 ^ (k - 1)) :
    ((BitVec.ofInt k n).signExtend 32).toInt = n := by
  rw [BitVec.toInt_signExtend_of_le hk32, BitVec.toInt_ofInt_eq_self hk hlo hhi]

theorem toInt_immI_ofInt (hlo : -2048 ≤ n) (hhi : n ≤ 2047) : (immI (BitVec.ofInt 12 n)).toInt = n :=
  toInt_signExtend_ofInt (by omega) (by omega) (by omega) (by omega)

theorem toInt_immB_ofInt (hlo : -4096 ≤ n) (hhi : n ≤ 4094) : (immB (BitVec.ofInt 13 n)).toInt = n :=
  toInt_signExtend_ofInt (by omega) (by omega) (by omega) (by omega)

theorem toInt_immJ_ofInt (hlo : -1048576 ≤ n) (hhi : n ≤ 1048574) : (immJ (BitVec.ofInt 21 n)).toInt = n :=
  toInt_signExtend_ofInt (by omega) (by omega) (by omega) (by omega)

/-- The twelve zeros below a U field scale its value by 4096 (R111). -/
theorem toInt_immU_ofInt (hlo : -2 ^ 31 ≤ n) (hhi : n ≤ 2 ^ 31 - 4096) (haligned : n % 4096 = 0) :
    (immU (BitVec.ofInt 20 (n / 4096))).toInt = n := by
  rw [immU, BitVec.toInt_append_zero, BitVec.toInt_ofInt_eq_self (by omega) (by omega) (by omega)]
  omega

/-! ## The round trip (R114) -/

/-- Settles O4: each format's field comes back from the encoded word, and extends to the value it was made from. -/
theorem immediateRoundTrip : Obligations.ImmediateRoundTrip := by
  refine ⟨?formatI, ?formatS, ?formatB, ?formatU, ?formatJ⟩
  case formatI =>
    intro n rd rs1 hlo hhi
    rw [encode, immIOf_encodeI, toInt_immI_ofInt hlo hhi]
  case formatS =>
    intro n rs1 rs2 hlo hhi
    rw [encode, immSOf_encodeS, toInt_immI_ofInt hlo hhi]
  case formatB =>
    intro n rs1 rs2 hlo hhi heven
    rw [encode, immBOf_encodeB _ _ _ _ _ (extract_zero_ofInt_of_even (by omega) heven), toInt_immB_ofInt hlo hhi]
  case formatU =>
    intro n rd hlo hhi haligned
    rw [encode, immUOf_encodeU, toInt_immU_ofInt hlo hhi haligned]
  case formatJ =>
    intro n rd hlo hhi heven
    rw [encode, immJOf_encodeJ _ _ _ (extract_zero_ofInt_of_even (by omega) heven), toInt_immJ_ofInt hlo hhi]

end Sys2Proof.Machine
end

section
/-! PROOFS. Upper immediates and jumps (41_upper_and_jumps.md): the words of LUI, AUIPC and JAL, the values they write, and
the fetch at a jump's target. -/

namespace Sys2Proof.Machine

variable {w : Word}

/-! ## Decoding by opcode (R117) -/

/-- The tables' opcode mask determines the opcode. -/
theorem opcodeOf_of_masked {v : Word} (h : w &&& 0x0000_007F = v) : opcodeOf w = opcodeOf v :=
  extract_of_and h (by decide)

theorem decode_of_opcode_lui (h : opcodeOf w = 0x37#7) : decode w = .lui (rdOf w) (immUOf w) := if_pos h

theorem decode_of_opcode_auipc (h : opcodeOf w = 0x17#7) : decode w = .auipc (rdOf w) (immUOf w) := by
  simp [decode, h]

theorem decode_of_opcode_jal (h : opcodeOf w = 0x6F#7) : decode w = .jal (rdOf w) (immJOf w) := by
  simp [decode, h]

/-! ## Results (R170 to R172) -/

theorem exec_lui (rd : RegIdx) (imm : BitVec 20) (s : State) :
    exec (.lui rd imm) s = writeBack rd (BitVec.ofNat 32 (imm.toNat * 4096)) s := by
  rw [← immU_eq]
  rfl

theorem exec_auipc (rd : RegIdx) (imm : BitVec 20) (s : State) :
    exec (.auipc rd imm) s = writeBack rd (BitVec.ofNat 32 (s.pc.toNat + imm.toNat * 4096)) s := by
  rw [auipc_eq]
  rfl

theorem exec_jal (rd : RegIdx) (off : BitVec 21) (s : State) :
    exec (.jal rd off) s = linkAndJump rd (BitVec.ofInt 32 (s.pc.toNat + off.toInt)) s := by
  rw [ofInt_add_toInt]
  rfl

/-- An address that is not mapped ends a word read at its first byte (R67). -/
theorem routerReadWord_unmapped {a : Word} {s : State} (h : ¬ Mapped s a) : routerReadWord a s = none :=
  routerReadWord_eq_none.2 ⟨0, by omega, by rwa [nth_zero]⟩

/-- The fetch is checked at every PC, however it was reached (R153, R302). -/
theorem nextFetchChecked (t : State) : NextFetchChecked t := fun hrun =>
  ⟨step_misaligned hrun, fun haligned hunmapped => step_fetchFault hrun haligned (routerReadWord_unmapped hunmapped)⟩

/-! ## The obligations -/

/-- Settles O27: the opcode fixes the decoding, and both results are a write-back of the rule's sum. -/
theorem upperImmediateResults : Obligations.UpperImmediateResults := by
  refine ⟨?luiWords, ?auipcWords, ?luiResult, ?auipcResult⟩
  case luiWords => exact fun w h => decode_of_opcode_lui (opcodeOf_of_masked h)
  case auipcWords => exact fun w h => decode_of_opcode_auipc (opcodeOf_of_masked h)
  case luiResult =>
    intro rd imm s
    rw [exec_lui]
    exact writeBack_spec rd _ s
  case auipcResult =>
    intro rd imm s
    rw [exec_auipc]
    exact writeBack_spec rd _ s

/-- Settles O28: the opcode fixes the decoding, JAL ends as a link and a jump, and every fetch is checked. -/
theorem jalResult : Obligations.JalResult := by
  refine ⟨fun w h => decode_of_opcode_jal (opcodeOf_of_masked h), fun rd off s => ?_⟩
  rw [exec_jal]
  obtain ⟨t, hnext, hwrites⟩ := linkAndJump_spec rd (BitVec.ofInt 32 (s.pc.toNat + off.toInt)) s
  exact ⟨t, hnext, hwrites, nextFetchChecked t⟩

end Sys2Proof.Machine
end

section
/-! PROOFS. Branches (42_branches.md): their words, where a branch goes, and the two put together as the rule of one branch. -/

namespace Sys2Proof.Machine

variable {w v : Word}

/-! ## Words under the mask of opcode and funct3 (R116) -/

theorem opcodeOf_of_maskedFunct3 (h : w &&& 0x0000_707F = v) : opcodeOf w = opcodeOf v := extract_of_and h (by decide)

theorem funct3Of_of_maskedFunct3 (h : w &&& 0x0000_707F = v) : funct3Of w = funct3Of v := extract_of_and h (by decide)

theorem decode_of_opcode_branch (h : opcodeOf w = 0x63#7) : decode w = decodeBranch w := by
  simp [decode, h]

/-- The excluded funct3 values of opcode BRANCH (R119). -/
theorem decodeBranch_of_excluded (h : funct3Of w ∈ [2#3, 3#3]) : decodeBranch w = .otherBranch w := by
  rcases List.mem_pair.1 h with h | h <;> simp [decodeBranch, h]

/-! ## Where a branch goes (R190) -/

/-- A branch answers a next state whether it is taken or not, and the PC is all that moves. -/
theorem branchIf_spec (c : Bool) (off : BitVec 13) (s : State) :
    ∃ t, branchIf c off s = .next t
      ∧ (c = true → MovesPcOnly (BitVec.ofInt 32 (s.pc.toNat + off.toInt)) s t)
      ∧ (c = false → MovesPcOnly (s.pc + 4) s t) := by
  cases c with
  | true =>
    refine ⟨s.setPc (branchTarget off s), rfl, fun _ => ?_, nofun⟩
    rw [ofInt_add_toInt]
    exact movesPcOnly_setPc _ s
  | false => exact ⟨s.setPc s.pcNext, rfl, nofun, fun _ => movesPcOnly_setPc _ s⟩

/-! ## The comparisons (R193 to R196) -/

variable {a b : Word}

theorem ltSigned_iff : ltSigned a b = true ↔ a.toInt < b.toInt := by rw [ltSigned_eq, decide_eq_true_iff]

theorem ltUnsigned_iff : ltUnsigned a b = true ↔ a.toNat < b.toNat := by rw [ltUnsigned_eq, decide_eq_true_iff]

theorem not_ltSigned_iff : (!ltSigned a b) = true ↔ b.toInt ≤ a.toInt := by
  rw [Bool.not_eq_true', ← Bool.not_eq_true, ltSigned_iff, Int.not_lt]

theorem not_ltUnsigned_iff : (!ltUnsigned a b) = true ↔ b.toNat ≤ a.toNat := by
  rw [Bool.not_eq_true', ← Bool.not_eq_true, ltUnsigned_iff, Nat.not_lt]

/-! ## The rule of one branch -/

/-- A branch follows its rule when its funct3 selects it, it ends as a `branchIf` over its two registers, and the comparison
made there is the rule's condition. -/
theorem branchRule_of_branchIf {mk : RegIdx → RegIdx → BitVec 13 → Instr} {cond : Word → Word → Prop}
    (f3 : BitVec 3) (compare : Word → Word → Bool) (hopcode : opcodeOf v = 0x63#7) (hfunct3 : funct3Of v = f3)
    (hdecode : ∀ w, funct3Of w = f3 → decodeBranch w = mk (rs1Of w) (rs2Of w) (immBOf w))
    (hexec : ∀ rs1 rs2 off s, exec (mk rs1 rs2 off) s = branchIf (compare (s.reg rs1) (s.reg rs2)) off s)
    (hcompare : ∀ a b, compare a b = true ↔ cond a b) : BranchRule mk v cond := by
  constructor
  · intro w h
    rw [decode_of_opcode_branch ((opcodeOf_of_maskedFunct3 h).trans hopcode)]
    exact hdecode w ((funct3Of_of_maskedFunct3 h).trans hfunct3)
  · intro rs1 rs2 off s
    obtain ⟨t, hnext, htaken, hnot⟩ := branchIf_spec (compare (s.reg rs1) (s.reg rs2)) off s
    rw [hcompare] at htaken
    rw [← Bool.not_eq_true, hcompare] at hnot
    exact ⟨t, (hexec rs1 rs2 off s).trans hnext, htaken, hnot, nextFetchChecked t⟩

/-- Settles O30: each of the six branches by its funct3 and its comparison, and the excluded funct3 values. -/
theorem branchResults : Obligations.BranchResults := by
  refine ⟨?beq, ?bne, ?blt, ?bge, ?bltu, ?bgeu, ?excluded⟩
  case beq =>
    exact branchRule_of_branchIf 0#3 (· == ·) rfl rfl (fun w h => by simp [decodeBranch, h]) (fun _ _ _ _ => rfl)
      fun _ _ => beq_iff_eq
  case bne =>
    exact branchRule_of_branchIf 1#3 (· != ·) rfl rfl (fun w h => by simp [decodeBranch, h]) (fun _ _ _ _ => rfl)
      fun _ _ => bne_iff_ne
  case blt =>
    exact branchRule_of_branchIf 4#3 ltSigned rfl rfl (fun w h => by simp [decodeBranch, h]) (fun _ _ _ _ => rfl)
      fun _ _ => ltSigned_iff
  case bge =>
    exact branchRule_of_branchIf 5#3 (!ltSigned · ·) rfl rfl (fun w h => by simp [decodeBranch, h]) (fun _ _ _ _ => rfl)
      fun _ _ => not_ltSigned_iff
  case bltu =>
    exact branchRule_of_branchIf 6#3 ltUnsigned rfl rfl (fun w h => by simp [decodeBranch, h]) (fun _ _ _ _ => rfl)
      fun _ _ => ltUnsigned_iff
  case bgeu =>
    exact branchRule_of_branchIf 7#3 (!ltUnsigned · ·) rfl rfl (fun w h => by simp [decodeBranch, h]) (fun _ _ _ _ => rfl)
      fun _ _ => not_ltUnsigned_iff
  case excluded =>
    intro w hopcode hfunct3
    rw [decode_of_opcode_branch hopcode, decodeBranch_of_excluded hfunct3]
    rfl

end Sys2Proof.Machine
end

section
/-! PROOFS. Loads and stores (43_loads_stores.md): their words, how a load and a store end, what the step that runs one
reports, and the four results. -/

namespace Sys2Proof.Machine

variable {w : Word} {s t : State} {i : Instr} {rd rs1 : RegIdx} {imm : BitVec 12} {ea v : Word}

/-! ## Words under the mask of opcode and funct3 (R116) -/

theorem decode_of_opcode_load (h : opcodeOf w = 0x03#7) : decode w = decodeLoad w := by
  simp [decode, h]

theorem decode_of_opcode_store (h : opcodeOf w = 0x23#7) : decode w = decodeStore w := by
  simp [decode, h]

/-- The words of one instruction whose opcode goes to `dispatch` and whose funct3 selects it there. -/
theorem encodedAs_of_funct3 {dispatch f : Word → Instr} {opcode : BitVec 7} (f3 : BitVec 3)
    (hopcode : opcodeOf v = opcode) (hfunct3 : funct3Of v = f3)
    (hdecode : ∀ {w}, opcodeOf w = opcode → decode w = dispatch w)
    (hdispatch : ∀ w, funct3Of w = f3 → dispatch w = f w) : EncodedAs 0x0000_707F v f := fun w h =>
  (hdecode ((opcodeOf_of_maskedFunct3 h).trans hopcode)).trans
    (hdispatch w ((funct3Of_of_maskedFunct3 h).trans hfunct3))

theorem encodedAs_lb : EncodedAs 0x0000_707F 0x0000_0003 fun w => .lb (rdOf w) (rs1Of w) (immIOf w) :=
  encodedAs_of_funct3 0#3 rfl rfl decode_of_opcode_load fun w h => by simp [decodeLoad, h]

theorem encodedAs_lbu : EncodedAs 0x0000_707F 0x0000_4003 fun w => .lbu (rdOf w) (rs1Of w) (immIOf w) :=
  encodedAs_of_funct3 4#3 rfl rfl decode_of_opcode_load fun w h => by simp [decodeLoad, h]

theorem encodedAs_lw : EncodedAs 0x0000_707F 0x0000_2003 fun w => .lw (rdOf w) (rs1Of w) (immIOf w) :=
  encodedAs_of_funct3 2#3 rfl rfl decode_of_opcode_load fun w h => by simp [decodeLoad, h]

theorem encodedAs_sb : EncodedAs 0x0000_707F 0x0000_0023 fun w => .sb (rs1Of w) (rs2Of w) (immSOf w) :=
  encodedAs_of_funct3 0#3 rfl rfl decode_of_opcode_store fun w h => by simp [decodeStore, h]

theorem encodedAs_sw : EncodedAs 0x0000_707F 0x0000_2023 fun w => .sw (rs1Of w) (rs2Of w) (immSOf w) :=
  encodedAs_of_funct3 2#3 rfl rfl decode_of_opcode_store fun w h => by simp [decodeStore, h]

/-! ## What the step that runs an instruction reports (R161) -/

theorem RunsNext.continues (h : RunsNext s i) (he : exec i s = .next t) (hrun : t.run = s.run) :
    stepResult s = .continue := by
  have hstep := h.step_eq.trans he
  obtain ⟨hrunning, -, -⟩ := h
  rw [stepResult_of_next hstep, hrun, hrunning]
  rfl

theorem RunsNext.faults {f : FaultRecord} (h : RunsNext s i) (he : exec i s = .next t) (hrun : t.run = .haltedFault f) :
    stepResult s = .fault f.kind := by
  rw [stepResult_of_next (h.step_eq.trans he), hrun]
  rfl

/-! ## The effective address (R210) -/

/-- The effective address in integer arithmetic (R210). -/
theorem eq_effectiveAddr (h : ea = BitVec.ofInt 32 ((s.reg rs1).toNat + imm.toInt)) : ea = effectiveAddr rs1 imm s :=
  h.trans (ofInt_add_toInt _ _)

/-! ## How a load ends (R210, R303) -/

theorem finishLoad_some (rd : RegIdx) (ea v : Word) (s : State) :
    ∃ t, finishLoad rd ea (some v) s = .next t ∧ WritesOnly rd v (s.pc + 4) s t := writeBack_spec rd v s

theorem finishLoad_none (rd : RegIdx) (ea : Word) (s : State) :
    ∃ t, finishLoad rd ea none s = .next t ∧ HaltsOnly (.haltedFault ⟨.loadFault, s.pc, ea⟩) s t :=
  ⟨_, rfl, haltsOnly_run _ s⟩

theorem RunsNext.continues_of_load (h : RunsNext s i) (hexec : exec i s = finishLoad rd ea (some v) s) :
    stepResult s = .continue := by
  obtain ⟨t, hend, -, -, -, hrun, -⟩ := finishLoad_some rd ea v s
  exact h.continues (hexec.trans hend) hrun

theorem RunsNext.faults_of_load (h : RunsNext s i) (hexec : exec i s = finishLoad rd ea none s) :
    stepResult s = .fault .loadFault := by
  obtain ⟨t, hend, hrun, -⟩ := finishLoad_none rd ea s
  exact h.faults (hexec.trans hend) hrun

/-! ## The byte loads' ends (R211, R212) -/

theorem exec_lb (rd rs1 : RegIdx) (imm : BitVec 12) (s : State) : exec (.lb rd rs1 imm) s =
    finishLoad rd (effectiveAddr rs1 imm s) ((routerReadByte (effectiveAddr rs1 imm s) s).map sextByte) s := rfl

theorem exec_lbu (rd rs1 : RegIdx) (imm : BitVec 12) (s : State) : exec (.lbu rd rs1 imm) s =
    finishLoad rd (effectiveAddr rs1 imm s) ((routerReadByte (effectiveAddr rs1 imm s) s).map zextByte) s := rfl

theorem exists_byte_of_mapped (h : Mapped s ea) : ∃ b, routerReadByte ea s = some b :=
  Option.isSome_iff_exists.1 (routerReadByte_isSome.2 h)

theorem exec_lb_of_read {b : Byte} (h : routerReadByte (effectiveAddr rs1 imm s) s = some b) :
    exec (.lb rd rs1 imm) s = finishLoad rd (effectiveAddr rs1 imm s) (some (BitVec.ofInt 32 b.toInt)) s := by
  rw [exec_lb, h, Option.map_some, sextByte_eq]

theorem exec_lbu_of_read {b : Byte} (h : routerReadByte (effectiveAddr rs1 imm s) s = some b) :
    exec (.lbu rd rs1 imm) s = finishLoad rd (effectiveAddr rs1 imm s) (some (BitVec.ofNat 32 b.toNat)) s := by
  rw [exec_lbu, h, Option.map_some, zextByte_eq]

theorem exec_lb_unmapped (h : ¬ Mapped s (effectiveAddr rs1 imm s)) :
    exec (.lb rd rs1 imm) s = finishLoad rd (effectiveAddr rs1 imm s) none s := by
  rw [exec_lb, routerReadByte_unmapped h, Option.map_none]

theorem exec_lbu_unmapped (h : ¬ Mapped s (effectiveAddr rs1 imm s)) :
    exec (.lbu rd rs1 imm) s = finishLoad rd (effectiveAddr rs1 imm s) none s := by
  rw [exec_lbu, routerReadByte_unmapped h, Option.map_none]

/-! ## The word load's two ends (R213) -/

theorem exec_lw (rd rs1 : RegIdx) (imm : BitVec 12) (s : State) : exec (.lw rd rs1 imm) s =
    finishLoad rd (effectiveAddr rs1 imm s) (routerReadWord (effectiveAddr rs1 imm s) s) s := rfl

theorem exec_lw_mapped (rd : RegIdx) (h : ∀ k, k < 4 → Mapped s (nth (effectiveAddr rs1 imm s) k)) :
    ∃ b0 b1 b2 b3, routerReadByte (effectiveAddr rs1 imm s) s = some b0
      ∧ routerReadByte (nth (effectiveAddr rs1 imm s) 1) s = some b1
      ∧ routerReadByte (nth (effectiveAddr rs1 imm s) 2) s = some b2
      ∧ routerReadByte (nth (effectiveAddr rs1 imm s) 3) s = some b3
      ∧ exec (.lw rd rs1 imm) s = finishLoad rd (effectiveAddr rs1 imm s) (some (b3 ++ b2 ++ b1 ++ b0)) s := by
  obtain ⟨v, hv⟩ := Option.isSome_iff_exists.1 (routerReadWord_isSome.2 h)
  obtain ⟨b0, b1, b2, b3, h0, h1, h2, h3, rfl⟩ := routerReadWord_eq_some.1 hv
  exact ⟨b0, b1, b2, b3, h0, h1, h2, h3, by rw [exec_lw, hv, wordOfBytes]⟩

theorem exec_lw_unmapped (rd : RegIdx) (h : ∃ k, k < 4 ∧ ¬ Mapped s (nth (effectiveAddr rs1 imm s) k)) :
    exec (.lw rd rs1 imm) s = finishLoad rd (effectiveAddr rs1 imm s) none s := by
  rw [exec_lw, routerReadWord_eq_none.2 h]

/-! ## How a store ends (R210, R304) -/

theorem exec_sb (rs1 rs2 : RegIdx) (imm : BitVec 12) (s : State) : exec (.sb rs1 rs2 imm) s =
    finishStore (effectiveAddr rs1 imm s) (routerWriteByte (effectiveAddr rs1 imm s) (byteOf (s.reg rs2) 0) s) := rfl

/-- SW takes the byte-wise path, at the transmit register too (R69). -/
theorem exec_sw (rs1 rs2 : RegIdx) (imm : BitVec 12) (s : State) : exec (.sw rs1 rs2 imm) s =
    finishStore (effectiveAddr rs1 imm s)
      (writeBytesBy routerWriteByte (wordCells (effectiveAddr rs1 imm s) (s.reg rs2)) s) := by
  rw [← routerWriteWord_eq]
  rfl

/-- What a store left is told by memory, the transmit stream, the diagnostic list and the configuration alone. -/
theorem StoredBytes.congr {n : Nat} {u : State} (h : StoredBytes ea v n s u) (hmem : t.mem = u.mem) (htx : t.tx = u.tx)
    (hdiag : t.diag = u.diag) (hconfig : t.config = u.config) : StoredBytes ea v n s t := by
  have hread := routerReadByte_congr hmem hconfig
  simpa only [StoredBytes, hread, hmem, htx, hdiag, hconfig] using h

theorem finishStore_ok {n : Nat} {u : State} (hstored : StoredBytes ea v n s u) (hsame : SameButMemory s u) :
    ∃ t, finishStore ea (.ok u) = .next t
      ∧ t.pc = s.pc + 4 ∧ t.run = s.run ∧ SameRegs s t ∧ StoredBytes ea v n s t :=
  ⟨u.setPc u.pcNext, rfl, congrArg (· + 4#32) hsame.pc, hsame.run, State.reg_congr hsame.regs,
    hstored.congr rfl rfl rfl rfl⟩

theorem finishStore_outOfRange {n : Nat} {u : State} (hstored : StoredBytes ea v n s u) (hsame : SameButMemory s u) :
    ∃ t, finishStore ea (.outOfRange u) = .next t ∧ t.pc = s.pc ∧ SameRegs s t
      ∧ t.run = .haltedFault ⟨.storeFault, s.pc, ea⟩ ∧ StoredBytes ea v n s t :=
  ⟨{ u with run := .haltedFault ⟨.storeFault, u.pc, ea⟩ }, rfl, hsame.pc, State.reg_congr hsame.regs,
    by rw [hsame.pc], hstored.congr rfl rfl rfl rfl⟩

/-- A byte write to a mapped address is the first byte of a store (R66). -/
theorem routerWriteByte_mapped (v : Word) (h : Mapped s ea) :
    ∃ u, routerWriteByte ea (byteOf v 0) s = .ok u ∧ StoredBytes ea v 1 s u ∧ SameButMemory s u := by
  have hfirst := (StoredBytes.zero ea v s).succ (by omega) (by rwa [nth_zero])
  rwa [nth_zero] at hfirst

/-! ## The byte store's two ends (R214) -/

theorem exec_sb_mapped (rs2 : RegIdx) (h : Mapped s (effectiveAddr rs1 imm s)) :
    ∃ t, exec (.sb rs1 rs2 imm) s = .next t ∧ t.pc = s.pc + 4 ∧ t.run = s.run ∧ SameRegs s t
      ∧ StoredBytes (effectiveAddr rs1 imm s) (s.reg rs2) 1 s t := by
  obtain ⟨u, hwrite, hstored, hsame⟩ := routerWriteByte_mapped (s.reg rs2) h
  rw [exec_sb, hwrite]
  exact finishStore_ok hstored hsame

theorem exec_sb_unmapped (rs2 : RegIdx) (h : ¬ Mapped s (effectiveAddr rs1 imm s)) :
    ∃ t, exec (.sb rs1 rs2 imm) s = .next t
      ∧ HaltsOnly (.haltedFault ⟨.storeFault, s.pc, effectiveAddr rs1 imm s⟩) s t := by
  rw [exec_sb, routerWriteByte_unmapped h]
  exact ⟨_, rfl, haltsOnly_run _ s⟩

/-! ## The word store's two ends (R215) -/

theorem exec_sw_mapped (rs2 : RegIdx) (h : ∀ k, k < 4 → Mapped s (nth (effectiveAddr rs1 imm s) k)) :
    ∃ t, exec (.sw rs1 rs2 imm) s = .next t ∧ t.pc = s.pc + 4 ∧ t.run = s.run ∧ SameRegs s t
      ∧ StoredBytes (effectiveAddr rs1 imm s) (s.reg rs2) 4 s t := by
  obtain ⟨u, hwrite, hstored, hsame⟩ := writeBytes_all (v := s.reg rs2) h
  rw [exec_sw, hwrite]
  exact finishStore_ok hstored hsame

theorem exec_sw_unmapped (rs2 : RegIdx) {n : Nat} (hn : n < 4)
    (hbefore : ∀ k, k < n → Mapped s (nth (effectiveAddr rs1 imm s) k))
    (h : ¬ Mapped s (nth (effectiveAddr rs1 imm s) n)) :
    ∃ t, exec (.sw rs1 rs2 imm) s = .next t ∧ t.pc = s.pc ∧ SameRegs s t
      ∧ t.run = .haltedFault ⟨.storeFault, s.pc, effectiveAddr rs1 imm s⟩
      ∧ StoredBytes (effectiveAddr rs1 imm s) (s.reg rs2) n s t := by
  obtain ⟨u, hwrite, hstored, hsame⟩ := writeBytes_partial (v := s.reg rs2) hn hbefore h
  rw [exec_sw, hwrite]
  exact finishStore_outOfRange hstored hsame

/-! ## The obligations -/

/-- Settles O34: SW takes the byte-wise path, which writes all four bytes or stops at the first that is not mapped. -/
theorem storeWordResult : Obligations.StoreWordResult := by
  refine ⟨encodedAs_sw, fun rs1 rs2 imm s ea hea => ?_⟩
  obtain rfl := eq_effectiveAddr hea
  refine ⟨exec_sw_mapped rs2, fun n hn => exec_sw_unmapped rs2 hn, fun hnext => ⟨fun hmapped => ?_, ?_⟩⟩
  · obtain ⟨t, hexec, -, hrun, -⟩ := exec_sw_mapped rs2 hmapped
    exact hnext.continues hexec hrun
  · rintro ⟨k, hk, hunmapped⟩
    rcases first_unmapped s (effectiveAddr rs1 imm s) with hall | ⟨n, hn, hbefore, hfirst⟩
    · exact absurd (hall k hk) hunmapped
    · obtain ⟨t, hexec, -, -, hrun, -⟩ := exec_sw_unmapped rs2 hn hbefore hfirst
      exact hnext.faults hexec hrun

/-- Settles O31: the byte read decides whether LB and LBU end in a write-back or in a LoadFault. -/
theorem loadByteResults : Obligations.LoadByteResults := by
  refine ⟨encodedAs_lb, encodedAs_lbu, fun rd rs1 imm s ea hea => ?_⟩
  obtain rfl := eq_effectiveAddr hea
  refine ⟨fun hmapped => ?_, fun hunmapped => ?_, fun hnext => ⟨fun hmapped => ?_, fun hunmapped => ?_⟩⟩
  · obtain ⟨b, hb⟩ := exists_byte_of_mapped hmapped
    rw [exec_lb_of_read hb, exec_lbu_of_read hb]
    exact ⟨b, hb, finishLoad_some .., finishLoad_some ..⟩
  · rw [exec_lb_unmapped hunmapped, exec_lbu_unmapped hunmapped]
    exact ⟨finishLoad_none .., finishLoad_none ..⟩
  · obtain ⟨b, hb⟩ := exists_byte_of_mapped hmapped
    exact hnext.elim (·.continues_of_load (exec_lb_of_read hb)) (·.continues_of_load (exec_lbu_of_read hb))
  · exact hnext.elim (·.faults_of_load (exec_lb_unmapped hunmapped)) (·.faults_of_load (exec_lbu_unmapped hunmapped))

/-- Settles O32: the word read decides whether LW ends in a write-back or in a LoadFault. -/
theorem loadWordResult : Obligations.LoadWordResult := by
  refine ⟨encodedAs_lw, fun rd rs1 imm s ea hea => ?_⟩
  obtain rfl := eq_effectiveAddr hea
  refine ⟨fun hmapped => ?_, fun hunmapped => ?_, fun hnext => ⟨fun hmapped => ?_, fun hunmapped => ?_⟩⟩
  · obtain ⟨b0, b1, b2, b3, h0, h1, h2, h3, hexec⟩ := exec_lw_mapped rd hmapped
    rw [hexec]
    exact ⟨b0, b1, b2, b3, h0, h1, h2, h3, finishLoad_some ..⟩
  · rw [exec_lw_unmapped rd hunmapped]
    exact finishLoad_none ..
  · obtain ⟨b0, b1, b2, b3, -, -, -, -, hexec⟩ := exec_lw_mapped rd hmapped
    exact hnext.continues_of_load hexec
  · exact hnext.faults_of_load (exec_lw_unmapped rd hunmapped)

/-- Settles O33: the byte write decides whether SB goes on or ends in a StoreFault. -/
theorem storeByteResult : Obligations.StoreByteResult := by
  refine ⟨encodedAs_sb, fun rs1 rs2 imm s ea hea => ?_⟩
  obtain rfl := eq_effectiveAddr hea
  refine ⟨exec_sb_mapped rs2, exec_sb_unmapped rs2, fun hnext => ⟨fun hmapped => ?_, fun hunmapped => ?_⟩⟩
  · obtain ⟨t, hexec, -, hrun, -⟩ := exec_sb_mapped rs2 hmapped
    exact hnext.continues hexec hrun
  · obtain ⟨t, hexec, hrun, -⟩ := exec_sb_unmapped rs2 hunmapped
    exact hnext.faults hexec hrun

end Sys2Proof.Machine
end

section
/-! PROOFS. Register-immediate operations (44_op_imm.md): the words of ADDI, XORI, ORI and ANDI, and the values they
write. -/

namespace Sys2Proof.Machine

variable {w : Word}

/-! ## Words under the mask of opcode and funct3 (R116) -/

theorem decode_of_opcode_opImm (h : opcodeOf w = 0x13#7) : decode w = decodeOpImm w := by
  simp [decode, h]

theorem encodedAs_addi : EncodedAs 0x0000_707F 0x0000_0013 fun w => .addi (rdOf w) (rs1Of w) (immIOf w) :=
  encodedAs_of_funct3 0#3 rfl rfl decode_of_opcode_opImm fun w h => by simp [decodeOpImm, h]

theorem encodedAs_xori : EncodedAs 0x0000_707F 0x0000_4013 fun w => .xori (rdOf w) (rs1Of w) (immIOf w) :=
  encodedAs_of_funct3 4#3 rfl rfl decode_of_opcode_opImm fun w h => by simp [decodeOpImm, h]

theorem encodedAs_ori : EncodedAs 0x0000_707F 0x0000_6013 fun w => .ori (rdOf w) (rs1Of w) (immIOf w) :=
  encodedAs_of_funct3 6#3 rfl rfl decode_of_opcode_opImm fun w h => by simp [decodeOpImm, h]

theorem encodedAs_andi : EncodedAs 0x0000_707F 0x0000_7013 fun w => .andi (rdOf w) (rs1Of w) (immIOf w) :=
  encodedAs_of_funct3 7#3 rfl rfl decode_of_opcode_opImm fun w h => by simp [decodeOpImm, h]

/-! ## Results (R231 to R234) -/

/-- The I immediate's sign extension in integer arithmetic (R108). -/
theorem immI_eq_ofInt (imm : BitVec 12) : immI imm = BitVec.ofInt 32 imm.toInt := rfl

theorem exec_addi (rd rs1 : RegIdx) (imm : BitVec 12) (s : State) :
    exec (.addi rd rs1 imm) s = writeBack rd (BitVec.ofInt 32 ((s.reg rs1).toNat + imm.toInt)) s := by
  rw [ofInt_add_toInt]
  rfl

theorem exec_xori (rd rs1 : RegIdx) (imm : BitVec 12) (s : State) :
    exec (.xori rd rs1 imm) s = writeBack rd (s.reg rs1 ^^^ BitVec.ofInt 32 imm.toInt) s := by
  rw [← immI_eq_ofInt]
  rfl

theorem exec_ori (rd rs1 : RegIdx) (imm : BitVec 12) (s : State) :
    exec (.ori rd rs1 imm) s = writeBack rd (s.reg rs1 ||| BitVec.ofInt 32 imm.toInt) s := by
  rw [← immI_eq_ofInt]
  rfl

theorem exec_andi (rd rs1 : RegIdx) (imm : BitVec 12) (s : State) :
    exec (.andi rd rs1 imm) s = writeBack rd (s.reg rs1 &&& BitVec.ofInt 32 imm.toInt) s := by
  rw [← immI_eq_ofInt]
  rfl

/-! ## The obligation -/

/-- Settles O35: funct3 selects the operation, and each one's end is a write-back of the rule's value. -/
theorem opImmResults : Obligations.OpImmResults := by
  refine ⟨encodedAs_addi, encodedAs_xori, encodedAs_ori, encodedAs_andi, fun rd rs1 imm s => ?_⟩
  rw [exec_addi, exec_xori, exec_ori, exec_andi]
  exact ⟨writeBack_spec .., writeBack_spec .., writeBack_spec .., writeBack_spec ..⟩

end Sys2Proof.Machine
end

section
/-! PROOFS. Register-register operations (45_op.md): the words of ADD, SUB, XOR, OR, AND, SLT and SLTU, and the values they
write. -/

namespace Sys2Proof.Machine

variable {w v : Word}

/-! ## Words under the mask of opcode, funct3 and funct7 (R116) -/

theorem opcodeOf_of_maskedFunct7 (h : w &&& 0xFE00_707F = v) : opcodeOf w = opcodeOf v := extract_of_and h (by decide)

theorem funct3Of_of_maskedFunct7 (h : w &&& 0xFE00_707F = v) : funct3Of w = funct3Of v := extract_of_and h (by decide)

theorem funct7Of_of_maskedFunct7 (h : w &&& 0xFE00_707F = v) : funct7Of w = funct7Of v := extract_of_and h (by decide)

/-- The words of one instruction whose opcode goes to `dispatch` and whose funct3 and funct7 select it there. -/
theorem encodedAs_of_funct7 {dispatch f : Word → Instr} {opcode : BitVec 7} (f3 : BitVec 3) (f7 : BitVec 7)
    (hopcode : opcodeOf v = opcode) (hfunct3 : funct3Of v = f3) (hfunct7 : funct7Of v = f7)
    (hdecode : ∀ {w}, opcodeOf w = opcode → decode w = dispatch w)
    (hdispatch : ∀ w, funct3Of w = f3 → funct7Of w = f7 → dispatch w = f w) : EncodedAs 0xFE00_707F v f := fun w h =>
  (hdecode ((opcodeOf_of_maskedFunct7 h).trans hopcode)).trans
    (hdispatch w ((funct3Of_of_maskedFunct7 h).trans hfunct3) ((funct7Of_of_maskedFunct7 h).trans hfunct7))

theorem decode_of_opcode_op (h : opcodeOf w = 0x33#7) : decode w = decodeOp w := by
  simp [decode, h]

theorem encodedAs_add : EncodedAs 0xFE00_707F 0x0000_0033 fun w => .add (rdOf w) (rs1Of w) (rs2Of w) :=
  encodedAs_of_funct7 0#3 0x00#7 rfl rfl rfl decode_of_opcode_op fun w h3 h7 => by simp [decodeOp, h3, h7]

theorem encodedAs_sub : EncodedAs 0xFE00_707F 0x4000_0033 fun w => .sub (rdOf w) (rs1Of w) (rs2Of w) :=
  encodedAs_of_funct7 0#3 0x20#7 rfl rfl rfl decode_of_opcode_op fun w h3 h7 => by simp [decodeOp, h3, h7]

theorem encodedAs_xor : EncodedAs 0xFE00_707F 0x0000_4033 fun w => .xor (rdOf w) (rs1Of w) (rs2Of w) :=
  encodedAs_of_funct7 4#3 0x00#7 rfl rfl rfl decode_of_opcode_op fun w h3 h7 => by simp [decodeOp, h3, h7]

theorem encodedAs_or : EncodedAs 0xFE00_707F 0x0000_6033 fun w => .or (rdOf w) (rs1Of w) (rs2Of w) :=
  encodedAs_of_funct7 6#3 0x00#7 rfl rfl rfl decode_of_opcode_op fun w h3 h7 => by simp [decodeOp, h3, h7]

theorem encodedAs_and : EncodedAs 0xFE00_707F 0x0000_7033 fun w => .and (rdOf w) (rs1Of w) (rs2Of w) :=
  encodedAs_of_funct7 7#3 0x00#7 rfl rfl rfl decode_of_opcode_op fun w h3 h7 => by simp [decodeOp, h3, h7]

theorem encodedAs_slt : EncodedAs 0xFE00_707F 0x0000_2033 fun w => .slt (rdOf w) (rs1Of w) (rs2Of w) :=
  encodedAs_of_funct7 2#3 0x00#7 rfl rfl rfl decode_of_opcode_op fun w h3 h7 => by simp [decodeOp, h3, h7]

theorem encodedAs_sltu : EncodedAs 0xFE00_707F 0x0000_3033 fun w => .sltu (rdOf w) (rs1Of w) (rs2Of w) :=
  encodedAs_of_funct7 3#3 0x00#7 rfl rfl rfl decode_of_opcode_op fun w h3 h7 => by simp [decodeOp, h3, h7]

/-! ## Results (R251, R252, R254 to R256, R259, R260) -/

/-- The sum of two words in integer arithmetic (R251). -/
theorem ofNat_add_toNat (a b : Word) : BitVec.ofNat 32 (a.toNat + b.toNat) = a + b := by
  rw [BitVec.ofNat_add, BitVec.ofNat_toNat, BitVec.ofNat_toNat, BitVec.setWidth_eq, BitVec.setWidth_eq]

/-- The difference of two words in integer arithmetic (R252). -/
theorem ofInt_sub_toNat (a b : Word) : BitVec.ofInt 32 ((a.toNat : Int) - (b.toNat : Int)) = a - b := by
  rw [Int.sub_eq_add_neg, BitVec.ofInt_add, BitVec.ofInt_neg, ← BitVec.sub_eq_add_neg]
  simp only [BitVec.ofInt_natCast, BitVec.ofNat_toNat, BitVec.setWidth_eq]

theorem exec_add (rd rs1 rs2 : RegIdx) (s : State) :
    exec (.add rd rs1 rs2) s = writeBack rd (BitVec.ofNat 32 ((s.reg rs1).toNat + (s.reg rs2).toNat)) s := by
  rw [ofNat_add_toNat]
  rfl

theorem exec_sub (rd rs1 rs2 : RegIdx) (s : State) :
    exec (.sub rd rs1 rs2) s
      = writeBack rd (BitVec.ofInt 32 (((s.reg rs1).toNat : Int) - ((s.reg rs2).toNat : Int))) s := by
  rw [ofInt_sub_toNat]
  rfl

theorem exec_xor (rd rs1 rs2 : RegIdx) (s : State) :
    exec (.xor rd rs1 rs2) s = writeBack rd (s.reg rs1 ^^^ s.reg rs2) s := rfl

theorem exec_or (rd rs1 rs2 : RegIdx) (s : State) :
    exec (.or rd rs1 rs2) s = writeBack rd (s.reg rs1 ||| s.reg rs2) s := rfl

theorem exec_and (rd rs1 rs2 : RegIdx) (s : State) :
    exec (.and rd rs1 rs2) s = writeBack rd (s.reg rs1 &&& s.reg rs2) s := rfl

theorem exec_slt (rd rs1 rs2 : RegIdx) (s : State) :
    exec (.slt rd rs1 rs2) s
      = writeBack rd (if (s.reg rs1).toInt < (s.reg rs2).toInt then 1#32 else 0#32) s := by
  rw [← boolWord_ltSigned]
  rfl

theorem exec_sltu (rd rs1 rs2 : RegIdx) (s : State) :
    exec (.sltu rd rs1 rs2) s
      = writeBack rd (if (s.reg rs1).toNat < (s.reg rs2).toNat then 1#32 else 0#32) s := by
  rw [← boolWord_ltUnsigned]
  rfl

/-! ## The obligations -/

/-- Settles O37: funct3 and funct7 select the operation, and each one's end is a write-back of the rule's value. -/
theorem arithmeticLogicResults : Obligations.ArithmeticLogicResults := by
  refine ⟨encodedAs_add, encodedAs_sub, encodedAs_xor, encodedAs_or, encodedAs_and, fun rd rs1 rs2 s => ?_⟩
  rw [exec_add, exec_sub, exec_xor, exec_or, exec_and]
  exact ⟨writeBack_spec .., writeBack_spec .., writeBack_spec .., writeBack_spec .., writeBack_spec ..⟩

/-- Settles O39: both comparisons end as a write-back of 1 or 0, chosen by the values' order. -/
theorem compareResults : Obligations.CompareResults := by
  refine ⟨encodedAs_slt, encodedAs_sltu, fun rd rs1 rs2 s => ?_⟩
  rw [exec_slt, exec_sltu]
  exact ⟨writeBack_spec .., writeBack_spec ..⟩

end Sys2Proof.Machine
end

section
/-! PROOFS. System call and anomalies (46_system_and_anomalies.md): the words of ECALL and of the catch-alls, how the clean
halt and an anomaly end, and what the step that runs one reports. -/

namespace Sys2Proof.Machine

variable {w : Word} {s : State} {i : Instr} {kind : AnomalyKind}

/-! ## Words outside the instruction tables (R117 to R119) -/

theorem decode_of_opcode_system (h : opcodeOf w = 0x73#7) :
    decode w = if w = 0x0000_0073#32 then .ecall else .otherSystem w := by
  simp [decode, h]

/-- No test of the decoder's opcode chain is met. -/
theorem decode_of_opcode_unrecognized (h : opcodeOf w ∉ recognizedOpcodes) : decode w = .anyOtherOpcode w := by
  simp only [recognizedOpcodes, List.mem_cons, List.not_mem_nil, or_false, not_or] at h
  simp only [decode, h, if_false]

/-- The excluded funct3 values of opcode LOAD (R119). -/
theorem decodeLoad_of_excluded (h : funct3Of w ∈ [1#3, 3#3, 5#3, 6#3, 7#3]) : decodeLoad w = .otherLoad w := by
  have hlb : funct3Of w ≠ 0#3 := ne_of_mem_of_not_mem h (by decide)
  have hlw : funct3Of w ≠ 2#3 := ne_of_mem_of_not_mem h (by decide)
  have hlbu : funct3Of w ≠ 4#3 := ne_of_mem_of_not_mem h (by decide)
  simp only [decodeLoad, hlb, hlw, hlbu, if_false]

/-- The excluded funct3 values of opcode STORE (R119). -/
theorem decodeStore_of_excluded (h : funct3Of w ∈ [1#3, 3#3, 4#3, 5#3, 6#3, 7#3]) : decodeStore w = .otherStore w := by
  have hsb : funct3Of w ≠ 0#3 := ne_of_mem_of_not_mem h (by decide)
  have hsw : funct3Of w ≠ 2#3 := ne_of_mem_of_not_mem h (by decide)
  simp only [decodeStore, hsb, hsw, if_false]

/-! ## The clean halt (R270) -/

theorem exec_ecall (s : State) : exec .ecall s = .next { s with run := .haltedClean } := rfl

theorem RunsNext.haltsClean (h : RunsNext s .ecall) : stepResult s = .haltClean := by
  rw [stepResult_of_next (h.step_eq.trans (exec_ecall s))]
  rfl

/-! ## The anomaly rule (R271, R272) -/

theorem anomaly_spec (kind : AnomalyKind) (w : Word) (s : State) :
    ∃ t, anomaly kind w s = .next t ∧ SkipsWith kind w s t :=
  ⟨_, rfl, rfl, rfl, fun _ => rfl, ⟨routerReadByte_congr rfl rfl, rfl⟩, rfl, rfl, rfl⟩

/-- Four terms are of an anomaly class, and each of them ends by the anomaly rule, over the word it holds. -/
theorem exec_of_anomaly (h : classOf i = .anomaly kind) (s : State) : exec i s = anomaly kind (encode i) s := by
  cases i with
  | otherBranch w => cases h; rfl
  | otherLoad w => cases h; rfl
  | otherStore w => cases h; rfl
  | anyOtherOpcode w => cases h; rfl
  | _ => cases h

theorem exec_skips_of_anomaly (h : classOf i = .anomaly kind) (s : State) :
    ∃ t, exec i s = .next t ∧ SkipsWith kind (encode i) s t := by
  rw [exec_of_anomaly h]
  exact anomaly_spec ..

/-- The run state is as before, so a running block goes on (R161). -/
theorem RunsNext.continues_of_anomaly (h : RunsNext s i) (hclass : classOf i = .anomaly kind) :
    stepResult s = .continue := by
  obtain ⟨t, hnext, -, -, -, -, hrun, -, -⟩ := exec_skips_of_anomaly hclass s
  exact h.continues hnext hrun

/-! ## The obligations -/

/-- Settles O40: the whole word decides between ECALL and U7, and ECALL's one effect is the clean halt, which stays. -/
theorem ecallHaltsCleanly : Obligations.EcallHaltsCleanly := by
  refine ⟨?ecallWord, ?otherWords, ?halts, ?reports⟩
  case ecallWord =>
    intro w h
    have hw : w = 0x0000_0073#32 := BitVec.and_allOnes.symm.trans h
    rw [hw, decode_of_opcode_system rfl, if_pos rfl]
  case otherWords =>
    intro w hopcode hne
    rw [decode_of_opcode_system hopcode, if_neg hne]
    rfl
  case halts => exact fun s => ⟨_, exec_ecall s, haltsOnly_run _ s, step_halted nofun⟩
  case reports =>
    intro s hrun haligned hfetch
    exact RunsNext.haltsClean ⟨hrun, haligned, _, hfetch, (decode_of_opcode_system rfl).trans (if_pos rfl)⟩

/-- Settles O41: no opcode test is met, and the catch-all term ends by the anomaly rule. -/
theorem unknownOpcodeSkips : Obligations.UnknownOpcodeSkips := by
  refine ⟨?words, ?skips, ?reports⟩
  case words => exact fun w hopcode => decode_of_opcode_unrecognized hopcode
  case skips => exact fun w s => exec_skips_of_anomaly rfl s
  case reports =>
    intro w s hrun haligned hfetch hclass
    exact RunsNext.continues_of_anomaly ⟨hrun, haligned, w, hfetch, rfl⟩ hclass

/-- Settles O42: the excluded funct3 values meet no test of their opcode, and the three catch-all terms end by the anomaly
rule, which makes no access. -/
theorem unknownFunctSkips : Obligations.UnknownFunctSkips := by
  refine ⟨?branchWords, ?loadWords, ?storeWords, ?skips, ?reports⟩
  case branchWords =>
    exact fun w hopcode hfunct3 => (decode_of_opcode_branch hopcode).trans (decodeBranch_of_excluded hfunct3)
  case loadWords =>
    exact fun w hopcode hfunct3 => (decode_of_opcode_load hopcode).trans (decodeLoad_of_excluded hfunct3)
  case storeWords =>
    exact fun w hopcode hfunct3 => (decode_of_opcode_store hopcode).trans (decodeStore_of_excluded hfunct3)
  case skips =>
    exact fun w s => ⟨exec_skips_of_anomaly rfl s, exec_skips_of_anomaly rfl s, exec_skips_of_anomaly rfl s⟩
  case reports =>
    intro w s hrun haligned hfetch hclass
    exact RunsNext.continues_of_anomaly ⟨hrun, haligned, w, hfetch, rfl⟩ hclass

end Sys2Proof.Machine
end

section
/-! PROOFS. Halting events (60_exceptions.md): the fetch of an unmapped byte, and the frame of every event that halts. -/

namespace Sys2Proof.Machine

variable {i : Instr} {s t : State}

/-! ## What a halting instruction leaves alone (R309) -/

/-- The instruction is a word store, and its one effect besides the run state is its first `n` bytes, fewer than four
(R304, R309). -/
def StopsPartway (i : Instr) (s t : State) : Prop :=
  ∃ rs1 rs2 imm n, i = .sw rs1 rs2 imm ∧ n < 4 ∧ t.pc = s.pc ∧ SameRegs s t
    ∧ StoredBytes (BitVec.ofInt 32 ((s.reg rs1).toNat + imm.toInt)) (s.reg rs2) n s t

/-- An instruction halts by the run state alone, unless it is a word store that faults. -/
theorem ExecEnds.halts (h : ExecEnds i s (.next t)) (hrun : s.run = .running) (hhalt : t.run ≠ .running) :
    HaltsOnly t.run s t ∨ StopsPartway i s t := by
  cases h with
  | wrote => exact absurd (by simpa using hrun) hhalt
  | moved => exact absurd hrun hhalt
  | loadFault => exact .inl (haltsOnly_run _ s)
  | storedByte _ _ _ _ _ _ _ hsame => exact absurd (hsame.run.trans hrun) hhalt
  | storedWord _ _ _ _ _ _ _ hsame => exact absurd (hsame.run.trans hrun) hhalt
  | byteStoreFault => exact .inl (haltsOnly_run _ s)
  | wordStoreFault rs1 rs2 imm u n hi hn _ hstored hsame =>
    have haddr := eq_effectiveAddr (s := s) (rs1 := rs1) (imm := imm) rfl
    exact .inr ⟨rs1, rs2, imm, n, hi, hn, hsame.pc, State.reg_congr hsame.regs,
      haddr ▸ hstored.congr rfl rfl rfl rfl⟩
  | halted => exact .inl (haltsOnly_run _ s)
  | skipped => exact absurd hrun hhalt

/-- A running step halts by the run state alone, unless the fetched word is a word store that faults. -/
theorem step_halts (hstep : step s = .next t) (hrun : s.run = .running) (hhalt : t.run ≠ .running) :
    HaltsOnly t.run s t ∨ ∃ w, routerReadWord s.pc s = some w ∧ StopsPartway (decode w) s t := by
  rcases step_next_cases hstep with ⟨hhalted, -⟩ | ⟨-, -, -, rfl⟩ | ⟨-, -, w, hfetch, hends⟩
  · exact absurd hrun hhalted
  · exact .inl (haltsOnly_run _ s)
  · exact (hends.halts hrun hhalt).imp_right fun hstops => ⟨w, hfetch, hstops⟩

/-! ## The obligations -/

/-- Settles O16: a halting step changes the run state alone, or is a word store stopped at its first unmapped byte. -/
theorem haltEntryChangesRunStateOnly : Obligations.HaltEntryChangesRunStateOnly := by
  intro s t hrun hstep hhalt
  rcases step_halts hstep hrun hhalt with hhalts | ⟨w, hfetch, rs1, rs2, imm, n, hsw, hn, hpc, hregs, hstored⟩
  · obtain ⟨-, hpc, hregs, ⟨-, hmem⟩, htx, hdiag, hconfig⟩ := hhalts
    exact ⟨hpc, hregs, hdiag, hconfig, .inl ⟨hmem, htx⟩⟩
  · have ⟨_, _, _, _, _, hdiag, hconfig⟩ := hstored
    exact ⟨hpc, hregs, hdiag, hconfig, .inr ⟨w, rs1, rs2, imm, hfetch, hsw, n, hn, hstored⟩⟩

/-- Settles O11: an unmapped byte ends the word read at the PC, and the step is the fetch fault. -/
theorem fetchFaultHalts : Obligations.FetchFaultHalts := by
  intro s hrun haligned hunmapped
  have hstep := step_fetchFault hrun haligned (routerReadWord_eq_none.2 hunmapped)
  exact ⟨⟨_, hstep, haltsOnly_run _ s⟩, stepResult_of_next hstep⟩

end Sys2Proof.Machine
end

section
/-! PROOFS. Reset and loading (70_reset_and_hazards.md): the PC a run starts from. -/

namespace Sys2Proof.Machine

variable {c : Config} {p : HostParams} {s : State}

/-! ## The initial PC (R343) -/

theorem initialPc_override (img : Image) (h : p.pcOverride ≠ 0#32) : initialPc p img = p.pcOverride := if_pos h

theorem initialPc_elf (segments : List Segment) (entry : Word) (h : p.pcOverride = 0#32) :
    initialPc p (.elf segments entry) = entry := if_neg (not_not.2 h)

theorem initialPc_flat (bytes : List Byte) (base : Word) (h : p.pcOverride = 0#32) :
    initialPc p (.flat bytes base) = 0#32 := if_neg (not_not.2 h)

/-- A load that succeeds leaves the machine running, at the initial PC (R343, R344). -/
theorem pc_run_of_boot {img : Image} (h : boot c p img = .next s) : s.pc = initialPc p img ∧ s.run = .running := by
  obtain ⟨m, rfl⟩ := boot_eq_next h
  exact ⟨rfl, rfl⟩

/-! ## The obligation -/

/-- Settles O52: the choice is `initialPc`'s, a load that succeeds starts there, and a running machine's first fetch refuses
a misaligned PC. -/
theorem initialPcChosen : Obligations.InitialPcChosen := by
  refine ⟨fun _ img h => initialPc_override img h, fun _ segments entry h => initialPc_elf segments entry h,
    fun _ bytes base h => initialPc_flat bytes base h, fun _ _ _ s hboot => ?_⟩
  obtain ⟨hpc, hrun⟩ := pc_run_of_boot hboot
  exact ⟨hpc, step_misaligned hrun⟩

end Sys2Proof.Machine
end

section
/-! PROOFS. Encoding (30_encoding.md): the words of every instruction and of every catch-all, the two round
trips between words and terms, and the classes of words that follow from them. -/

namespace Sys2Proof.Machine

open Sys2Proof.Laws

variable {w v : Word} {i : Instr}

/-! ## The words of each instruction (R116) -/

theorem encodedAs_lui : EncodedAs 0x0000_007F 0x0000_0037 fun w => .lui (rdOf w) (immUOf w) := fun _ h =>
  decode_of_opcode_lui (opcodeOf_of_masked h)

theorem encodedAs_auipc : EncodedAs 0x0000_007F 0x0000_0017 fun w => .auipc (rdOf w) (immUOf w) := fun _ h =>
  decode_of_opcode_auipc (opcodeOf_of_masked h)

theorem encodedAs_jal : EncodedAs 0x0000_007F 0x0000_006F fun w => .jal (rdOf w) (immJOf w) := fun _ h =>
  decode_of_opcode_jal (opcodeOf_of_masked h)

theorem decode_of_opcode_jalr (h : opcodeOf w = 0x67#7) :
    decode w = if funct3Of w = 0#3 then .jalr (rdOf w) (rs1Of w) (immIOf w) else .otherJalr w := by
  simp [decode, h]

theorem encodedAs_jalr : EncodedAs 0x0000_707F 0x0000_0067 fun w => .jalr (rdOf w) (rs1Of w) (immIOf w) :=
  encodedAs_of_funct3 0#3 rfl rfl decode_of_opcode_jalr fun _ h => if_pos h

theorem encodedAs_beq : EncodedAs 0x0000_707F 0x0000_0063 fun w => .beq (rs1Of w) (rs2Of w) (immBOf w) :=
  encodedAs_of_funct3 0#3 rfl rfl decode_of_opcode_branch fun w h => by simp [decodeBranch, h]

theorem encodedAs_bne : EncodedAs 0x0000_707F 0x0000_1063 fun w => .bne (rs1Of w) (rs2Of w) (immBOf w) :=
  encodedAs_of_funct3 1#3 rfl rfl decode_of_opcode_branch fun w h => by simp [decodeBranch, h]

theorem encodedAs_blt : EncodedAs 0x0000_707F 0x0000_4063 fun w => .blt (rs1Of w) (rs2Of w) (immBOf w) :=
  encodedAs_of_funct3 4#3 rfl rfl decode_of_opcode_branch fun w h => by simp [decodeBranch, h]

theorem encodedAs_bge : EncodedAs 0x0000_707F 0x0000_5063 fun w => .bge (rs1Of w) (rs2Of w) (immBOf w) :=
  encodedAs_of_funct3 5#3 rfl rfl decode_of_opcode_branch fun w h => by simp [decodeBranch, h]

theorem encodedAs_bltu : EncodedAs 0x0000_707F 0x0000_6063 fun w => .bltu (rs1Of w) (rs2Of w) (immBOf w) :=
  encodedAs_of_funct3 6#3 rfl rfl decode_of_opcode_branch fun w h => by simp [decodeBranch, h]

theorem encodedAs_bgeu : EncodedAs 0x0000_707F 0x0000_7063 fun w => .bgeu (rs1Of w) (rs2Of w) (immBOf w) :=
  encodedAs_of_funct3 7#3 rfl rfl decode_of_opcode_branch fun w h => by simp [decodeBranch, h]

theorem encodedAs_slli : EncodedAs 0xFE00_707F 0x0000_1013 fun w => .slli (rdOf w) (rs1Of w) (shamtOf w) :=
  encodedAs_of_funct7 1#3 0x00#7 rfl rfl rfl decode_of_opcode_opImm fun w h3 h7 => by simp [decodeOpImm, h3, h7]

theorem encodedAs_srli : EncodedAs 0xFE00_707F 0x0000_5013 fun w => .srli (rdOf w) (rs1Of w) (shamtOf w) :=
  encodedAs_of_funct7 5#3 0x00#7 rfl rfl rfl decode_of_opcode_opImm fun w h3 h7 => by simp [decodeOpImm, h3, h7]

theorem encodedAs_srai : EncodedAs 0xFE00_707F 0x4000_5013 fun w => .srai (rdOf w) (rs1Of w) (shamtOf w) :=
  encodedAs_of_funct7 5#3 0x20#7 rfl rfl rfl decode_of_opcode_opImm fun w h3 h7 => by simp [decodeOpImm, h3, h7]

theorem encodedAs_sll : EncodedAs 0xFE00_707F 0x0000_1033 fun w => .sll (rdOf w) (rs1Of w) (rs2Of w) :=
  encodedAs_of_funct7 1#3 0x00#7 rfl rfl rfl decode_of_opcode_op fun w h3 h7 => by simp [decodeOp, h3, h7]

theorem encodedAs_srl : EncodedAs 0xFE00_707F 0x0000_5033 fun w => .srl (rdOf w) (rs1Of w) (rs2Of w) :=
  encodedAs_of_funct7 5#3 0x00#7 rfl rfl rfl decode_of_opcode_op fun w h3 h7 => by simp [decodeOp, h3, h7]

theorem encodedAs_sra : EncodedAs 0xFE00_707F 0x4000_5033 fun w => .sra (rdOf w) (rs1Of w) (rs2Of w) :=
  encodedAs_of_funct7 5#3 0x20#7 rfl rfl rfl decode_of_opcode_op fun w h3 h7 => by simp [decodeOp, h3, h7]

/-! ## The words of each catch-all (R118 to R120) -/

theorem funct3_cases (f3 : BitVec 3) :
    f3 = 0#3 ∨ f3 = 1#3 ∨ f3 = 2#3 ∨ f3 = 3#3 ∨ f3 = 4#3 ∨ f3 = 5#3 ∨ f3 = 6#3 ∨ f3 = 7#3 := by
  revert f3
  decide

theorem wf_otherJalr_iff : (Instr.otherJalr w).wf = true ↔ opcodeOf w = 0x67#7 ∧ funct3Of w ≠ 0#3 := by
  simp only [Instr.wf, Bool.and_eq_true, beq_iff_eq, bne_iff_ne]
  exact Iff.rfl

theorem wf_otherBranch_iff : (Instr.otherBranch w).wf = true ↔ opcodeOf w = 0x63#7 ∧ funct3Of w ∈ [2#3, 3#3] := by
  simp only [Instr.wf, Bool.and_eq_true, beq_iff_eq, List.contains_iff_mem]
  exact Iff.rfl

theorem wf_otherLoad_iff :
    (Instr.otherLoad w).wf = true ↔ opcodeOf w = 0x03#7 ∧ funct3Of w ∈ [1#3, 3#3, 5#3, 6#3, 7#3] := by
  simp only [Instr.wf, Bool.and_eq_true, beq_iff_eq, List.contains_iff_mem]
  exact Iff.rfl

theorem wf_otherStore_iff :
    (Instr.otherStore w).wf = true ↔ opcodeOf w = 0x23#7 ∧ funct3Of w ∈ [1#3, 3#3, 4#3, 5#3, 6#3, 7#3] := by
  simp only [Instr.wf, Bool.and_eq_true, beq_iff_eq, List.contains_iff_mem]
  exact Iff.rfl

/-- An OP-IMM word has no operation when its funct3 has none, or is a shift's with upper bits that are not (R120). -/
theorem wf_otherOpImm_iff : (Instr.otherOpImm w).wf = true ↔ opcodeOf w = 0x13#7 ∧
    (funct3Of w ∈ [2#3, 3#3] ∨ (funct3Of w = 1#3 ∧ funct7Of w ≠ 0x00#7)
      ∨ (funct3Of w = 5#3 ∧ funct7Of w ≠ 0x00#7 ∧ funct7Of w ≠ 0x20#7)) := by
  simp only [Instr.wf, Bool.and_eq_true, Bool.or_eq_true, beq_iff_eq, bne_iff_ne, List.contains_iff_mem, or_assoc,
    and_assoc]
  exact Iff.rfl

/-- An OP word has no operation when its funct7 has none, or is 0100000 and selects neither SUB nor SRA (R120). -/
theorem wf_otherOp_iff : (Instr.otherOp w).wf = true ↔ opcodeOf w = 0x33#7 ∧
    funct7Of w ≠ 0x00#7 ∧ (funct7Of w = 0x20#7 → funct3Of w ≠ 0#3 ∧ funct3Of w ≠ 5#3) := by
  have hzero : ∀ f3 : BitVec 3, (0x00#7, f3) ∈ opSelections := by decide
  have hsub : ∀ f3 : BitVec 3, (0x20#7, f3) ∈ opSelections ↔ f3 = 0#3 ∨ f3 = 5#3 := by simp [opSelections]
  have hother : ∀ p ∈ opSelections, p.1 = 0x00#7 ∨ p.1 = 0x20#7 := by simp [opSelections]
  simp only [Instr.wf, Bool.and_eq_true, beq_iff_eq, Bool.not_eq_true', ← Bool.not_eq_true, List.contains_iff_mem]
  refine and_congr Iff.rfl ?_
  change (funct7Of w, funct3Of w) ∉ opSelections ↔ _
  by_cases h0 : funct7Of w = 0x00#7
  · simp [h0, hzero]
  by_cases h2 : funct7Of w = 0x20#7
  · simp [h2, hsub]
  · have hnot : (funct7Of w, funct3Of w) ∉ opSelections := fun hm => (hother _ hm).elim h0 h2
    simp [h0, h2, hnot]

theorem wf_otherSystem_iff : (Instr.otherSystem w).wf = true ↔ opcodeOf w = 0x73#7 ∧ w ≠ 0x0000_0073#32 := by
  simp only [Instr.wf, Bool.and_eq_true, beq_iff_eq, bne_iff_ne]
  exact Iff.rfl

theorem wf_anyOtherOpcode_iff : (Instr.anyOtherOpcode w).wf = true ↔ opcodeOf w ∉ recognizedOpcodes := by
  simp only [Instr.wf, Bool.not_eq_true', ← Bool.not_eq_true, List.contains_iff_mem]
  exact Iff.rfl

theorem decode_of_wf_otherJalr (h : (Instr.otherJalr w).wf = true) : decode w = .otherJalr w := by
  obtain ⟨hopcode, hfunct3⟩ := wf_otherJalr_iff.1 h
  rw [decode_of_opcode_jalr hopcode, if_neg hfunct3]

theorem decode_of_wf_otherBranch (h : (Instr.otherBranch w).wf = true) : decode w = .otherBranch w := by
  obtain ⟨hopcode, hfunct3⟩ := wf_otherBranch_iff.1 h
  rw [decode_of_opcode_branch hopcode, decodeBranch_of_excluded hfunct3]

theorem decode_of_wf_otherLoad (h : (Instr.otherLoad w).wf = true) : decode w = .otherLoad w := by
  obtain ⟨hopcode, hfunct3⟩ := wf_otherLoad_iff.1 h
  rw [decode_of_opcode_load hopcode, decodeLoad_of_excluded hfunct3]

theorem decode_of_wf_otherStore (h : (Instr.otherStore w).wf = true) : decode w = .otherStore w := by
  obtain ⟨hopcode, hfunct3⟩ := wf_otherStore_iff.1 h
  rw [decode_of_opcode_store hopcode, decodeStore_of_excluded hfunct3]

theorem decode_of_wf_otherOpImm (h : (Instr.otherOpImm w).wf = true) : decode w = .otherOpImm w := by
  obtain ⟨hopcode, h⟩ := wf_otherOpImm_iff.1 h
  rw [decode_of_opcode_opImm hopcode]
  rcases h with h | ⟨h3, h7⟩ | ⟨h3, h7, h7'⟩
  · rcases List.mem_pair.1 h with h3 | h3 <;> simp [decodeOpImm, h3]
  · simp [decodeOpImm, h3, h7]
  · simp [decodeOpImm, h3, h7, h7']

theorem decode_of_wf_otherOp (h : (Instr.otherOp w).wf = true) : decode w = .otherOp w := by
  obtain ⟨hopcode, h0, h2⟩ := wf_otherOp_iff.1 h
  have hsub : ¬ (funct7Of w = 0x20#7 ∧ funct3Of w = 0#3) := fun ⟨h7, h3⟩ => (h2 h7).1 h3
  have hsra : ¬ (funct7Of w = 0x20#7 ∧ funct3Of w = 5#3) := fun ⟨h7, h3⟩ => (h2 h7).2 h3
  rw [decode_of_opcode_op hopcode, decodeOp, if_neg h0, if_neg hsub, if_neg hsra]

theorem decode_of_wf_otherSystem (h : (Instr.otherSystem w).wf = true) : decode w = .otherSystem w := by
  obtain ⟨hopcode, hne⟩ := wf_otherSystem_iff.1 h
  rw [decode_of_opcode_system hopcode, if_neg hne]

theorem decode_of_wf_anyOtherOpcode (h : (Instr.anyOtherOpcode w).wf = true) : decode w = .anyOtherOpcode w :=
  decode_of_opcode_unrecognized (wf_anyOtherOpcode_iff.1 h)

/-! ## From terms to words and back -/

/-- A term whose word matches its row, and is what the row's fields read, comes back. -/
theorem decode_encode_of_row {mask value : Word} {f : Word → Instr} (hrow : EncodedAs mask value f)
    (hmatch : encode i &&& mask = value) (hfields : f (encode i) = i) : decode (encode i) = i :=
  (hrow _ hmatch).trans hfields

section Fields

variable {f7 op : BitVec 7} {f3 : BitVec 3} {rd rs1 rs2 : RegIdx} {imm : BitVec 12} {uimm : BitVec 20}

theorem fields_encodeR (mk : RegIdx → RegIdx → RegIdx → Instr) :
    mk (rdOf (encodeR f7 rs2 rs1 f3 rd op)) (rs1Of (encodeR f7 rs2 rs1 f3 rd op)) (rs2Of (encodeR f7 rs2 rs1 f3 rd op))
      = mk rd rs1 rs2 := by
  rw [rdOf_encodeR, rs1Of_encodeR, rs2Of_encodeR]

theorem fields_encodeI (mk : RegIdx → RegIdx → BitVec 12 → Instr) :
    mk (rdOf (encodeI imm rs1 f3 rd op)) (rs1Of (encodeI imm rs1 f3 rd op)) (immIOf (encodeI imm rs1 f3 rd op))
      = mk rd rs1 imm := by
  rw [rdOf_encodeI, rs1Of_encodeI, immIOf_encodeI]

theorem fields_encodeS (mk : RegIdx → RegIdx → BitVec 12 → Instr) :
    mk (rs1Of (encodeS imm rs2 rs1 f3 op)) (rs2Of (encodeS imm rs2 rs1 f3 op)) (immSOf (encodeS imm rs2 rs1 f3 op))
      = mk rs1 rs2 imm := by
  rw [rs1Of_encodeS, rs2Of_encodeS, immSOf_encodeS]

theorem fields_encodeB (mk : RegIdx → RegIdx → BitVec 13 → Instr) {off : BitVec 13}
    (heven : (off.extractLsb' 0 1 == 0#1) = true) :
    mk (rs1Of (encodeB off rs2 rs1 f3 op)) (rs2Of (encodeB off rs2 rs1 f3 op)) (immBOf (encodeB off rs2 rs1 f3 op))
      = mk rs1 rs2 off := by
  rw [rs1Of_encodeB, rs2Of_encodeB, immBOf_encodeB _ _ _ _ _ (beq_iff_eq.1 heven)]

theorem fields_encodeU (mk : RegIdx → BitVec 20 → Instr) :
    mk (rdOf (encodeU uimm rd op)) (immUOf (encodeU uimm rd op)) = mk rd uimm := by
  rw [rdOf_encodeU, immUOf_encodeU]

theorem fields_encodeJ (mk : RegIdx → BitVec 21 → Instr) {off : BitVec 21}
    (heven : (off.extractLsb' 0 1 == 0#1) = true) :
    mk (rdOf (encodeJ off rd op)) (immJOf (encodeJ off rd op)) = mk rd off := by
  rw [rdOf_encodeJ, immJOf_encodeJ _ _ _ (beq_iff_eq.1 heven)]

end Fields

/-- Settles O1: the word of an instruction matches its row and its fields read back; a catch-all's well-formedness says
that its word meets no row of an instruction. -/
theorem decodeOfEncode : Obligations.DecodeOfEncode := by
  intro i h
  cases i with
  | lui rd imm => exact decode_encode_of_row encodedAs_lui (EncodingRow.lui _ _ h) (fields_encodeU .lui)
  | auipc rd imm => exact decode_encode_of_row encodedAs_auipc (EncodingRow.auipc _ _ h) (fields_encodeU .auipc)
  | jal rd off => exact decode_encode_of_row encodedAs_jal (EncodingRow.jal _ _ h) (fields_encodeJ .jal h)
  | jalr rd rs1 imm => exact decode_encode_of_row encodedAs_jalr (EncodingRow.jalr _ _ _ h) (fields_encodeI .jalr)
  | beq rs1 rs2 off => exact decode_encode_of_row encodedAs_beq (EncodingRow.beq _ _ _ h) (fields_encodeB .beq h)
  | bne rs1 rs2 off => exact decode_encode_of_row encodedAs_bne (EncodingRow.bne _ _ _ h) (fields_encodeB .bne h)
  | blt rs1 rs2 off => exact decode_encode_of_row encodedAs_blt (EncodingRow.blt _ _ _ h) (fields_encodeB .blt h)
  | bge rs1 rs2 off => exact decode_encode_of_row encodedAs_bge (EncodingRow.bge _ _ _ h) (fields_encodeB .bge h)
  | bltu rs1 rs2 off => exact decode_encode_of_row encodedAs_bltu (EncodingRow.bltu _ _ _ h) (fields_encodeB .bltu h)
  | bgeu rs1 rs2 off => exact decode_encode_of_row encodedAs_bgeu (EncodingRow.bgeu _ _ _ h) (fields_encodeB .bgeu h)
  | lb rd rs1 imm => exact decode_encode_of_row encodedAs_lb (EncodingRow.lb _ _ _ h) (fields_encodeI .lb)
  | lbu rd rs1 imm => exact decode_encode_of_row encodedAs_lbu (EncodingRow.lbu _ _ _ h) (fields_encodeI .lbu)
  | lw rd rs1 imm => exact decode_encode_of_row encodedAs_lw (EncodingRow.lw _ _ _ h) (fields_encodeI .lw)
  | sb rs1 rs2 imm => exact decode_encode_of_row encodedAs_sb (EncodingRow.sb _ _ _ h) (fields_encodeS .sb)
  | sw rs1 rs2 imm => exact decode_encode_of_row encodedAs_sw (EncodingRow.sw _ _ _ h) (fields_encodeS .sw)
  | addi rd rs1 imm => exact decode_encode_of_row encodedAs_addi (EncodingRow.addi _ _ _ h) (fields_encodeI .addi)
  | xori rd rs1 imm => exact decode_encode_of_row encodedAs_xori (EncodingRow.xori _ _ _ h) (fields_encodeI .xori)
  | ori rd rs1 imm => exact decode_encode_of_row encodedAs_ori (EncodingRow.ori _ _ _ h) (fields_encodeI .ori)
  | andi rd rs1 imm => exact decode_encode_of_row encodedAs_andi (EncodingRow.andi _ _ _ h) (fields_encodeI .andi)
  | slli rd rs1 shamt => exact decode_encode_of_row encodedAs_slli (EncodingRow.slli _ _ _ h) (fields_encodeR .slli)
  | srli rd rs1 shamt => exact decode_encode_of_row encodedAs_srli (EncodingRow.srli _ _ _ h) (fields_encodeR .srli)
  | srai rd rs1 shamt => exact decode_encode_of_row encodedAs_srai (EncodingRow.srai _ _ _ h) (fields_encodeR .srai)
  | add rd rs1 rs2 => exact decode_encode_of_row encodedAs_add (EncodingRow.add _ _ _ h) (fields_encodeR .add)
  | sub rd rs1 rs2 => exact decode_encode_of_row encodedAs_sub (EncodingRow.sub _ _ _ h) (fields_encodeR .sub)
  | sll rd rs1 rs2 => exact decode_encode_of_row encodedAs_sll (EncodingRow.sll _ _ _ h) (fields_encodeR .sll)
  | slt rd rs1 rs2 => exact decode_encode_of_row encodedAs_slt (EncodingRow.slt _ _ _ h) (fields_encodeR .slt)
  | sltu rd rs1 rs2 => exact decode_encode_of_row encodedAs_sltu (EncodingRow.sltu _ _ _ h) (fields_encodeR .sltu)
  | xor rd rs1 rs2 => exact decode_encode_of_row encodedAs_xor (EncodingRow.xor _ _ _ h) (fields_encodeR .xor)
  | srl rd rs1 rs2 => exact decode_encode_of_row encodedAs_srl (EncodingRow.srl _ _ _ h) (fields_encodeR .srl)
  | sra rd rs1 rs2 => exact decode_encode_of_row encodedAs_sra (EncodingRow.sra _ _ _ h) (fields_encodeR .sra)
  | or rd rs1 rs2 => exact decode_encode_of_row encodedAs_or (EncodingRow.or _ _ _ h) (fields_encodeR .or)
  | and rd rs1 rs2 => exact decode_encode_of_row encodedAs_and (EncodingRow.and _ _ _ h) (fields_encodeR .and)
  | ecall => exact (decode_of_opcode_system rfl).trans (if_pos rfl)
  | otherJalr w => exact decode_of_wf_otherJalr h
  | otherBranch w => exact decode_of_wf_otherBranch h
  | otherLoad w => exact decode_of_wf_otherLoad h
  | otherStore w => exact decode_of_wf_otherStore h
  | otherOpImm w => exact decode_of_wf_otherOpImm h
  | otherOp w => exact decode_of_wf_otherOp h
  | otherSystem w => exact decode_of_wf_otherSystem h
  | anyOtherOpcode w => exact decode_of_wf_anyOtherOpcode h

/-! ## From words to terms and back (R121) -/

/-- The term is well-formed and its word is `w`. -/
def RoundTrips (w : Word) (i : Instr) : Prop := i.wf = true ∧ encode i = w

section Fields

variable {f3 : BitVec 3} {f7 op : BitVec 7} (hopcode : opcodeOf w = op) (hfunct3 : funct3Of w = f3)

include hopcode in
theorem roundTrips_of_encodeU {mk : RegIdx → BitVec 20 → Instr} (hwf : (mk (rdOf w) (immUOf w)).wf = true)
    (hencode : encode (mk (rdOf w) (immUOf w)) = encodeU (immUOf w) (rdOf w) op) :
    RoundTrips w (mk (rdOf w) (immUOf w)) :=
  ⟨hwf, by rw [hencode, ← hopcode, encodeU_fields]⟩

include hopcode hfunct3

theorem roundTrips_of_encodeR {mk : RegIdx → RegIdx → RegIdx → Instr} (hfunct7 : funct7Of w = f7)
    (hwf : (mk (rdOf w) (rs1Of w) (rs2Of w)).wf = true)
    (hencode : encode (mk (rdOf w) (rs1Of w) (rs2Of w)) = encodeR f7 (rs2Of w) (rs1Of w) f3 (rdOf w) op) :
    RoundTrips w (mk (rdOf w) (rs1Of w) (rs2Of w)) :=
  ⟨hwf, by rw [hencode, ← hopcode, ← hfunct3, ← hfunct7, encodeR_fields]⟩

theorem roundTrips_of_encodeI {mk : RegIdx → RegIdx → BitVec 12 → Instr}
    (hwf : (mk (rdOf w) (rs1Of w) (immIOf w)).wf = true)
    (hencode : encode (mk (rdOf w) (rs1Of w) (immIOf w)) = encodeI (immIOf w) (rs1Of w) f3 (rdOf w) op) :
    RoundTrips w (mk (rdOf w) (rs1Of w) (immIOf w)) :=
  ⟨hwf, by rw [hencode, ← hopcode, ← hfunct3, encodeI_fields]⟩

theorem roundTrips_of_encodeS {mk : RegIdx → RegIdx → BitVec 12 → Instr}
    (hwf : (mk (rs1Of w) (rs2Of w) (immSOf w)).wf = true)
    (hencode : encode (mk (rs1Of w) (rs2Of w) (immSOf w)) = encodeS (immSOf w) (rs2Of w) (rs1Of w) f3 op) :
    RoundTrips w (mk (rs1Of w) (rs2Of w) (immSOf w)) :=
  ⟨hwf, by rw [hencode, ← hopcode, ← hfunct3, encodeS_fields]⟩

theorem roundTrips_of_encodeB {mk : RegIdx → RegIdx → BitVec 13 → Instr}
    (hwf : (mk (rs1Of w) (rs2Of w) (immBOf w)).wf = ((immBOf w).extractLsb' 0 1 == 0#1))
    (hencode : encode (mk (rs1Of w) (rs2Of w) (immBOf w)) = encodeB (immBOf w) (rs2Of w) (rs1Of w) f3 op) :
    RoundTrips w (mk (rs1Of w) (rs2Of w) (immBOf w)) :=
  ⟨hwf.trans (beq_iff_eq.2 (immBOf_even w)), by rw [hencode, ← hopcode, ← hfunct3, encodeB_fields]⟩

end Fields

theorem roundTrips_jal (hopcode : opcodeOf w = 0x6F#7) : RoundTrips w (.jal (rdOf w) (immJOf w)) :=
  ⟨beq_iff_eq.2 (immJOf_even w), by rw [encode, ← hopcode, encodeJ_fields]⟩

theorem roundTrips_ite {c : Prop} [Decidable c] {i j : Instr} (hi : c → RoundTrips w i) (hj : ¬ c → RoundTrips w j) :
    RoundTrips w (if c then i else j) := decode_ite hi hj

theorem roundTrips_decodeBranch (hopcode : opcodeOf w = 0x63#7) : RoundTrips w (decodeBranch w) := by
  refine roundTrips_ite (fun h => roundTrips_of_encodeB hopcode h rfl rfl) fun h0 => ?_
  refine roundTrips_ite (fun h => roundTrips_of_encodeB hopcode h rfl rfl) fun h1 => ?_
  refine roundTrips_ite (fun h => roundTrips_of_encodeB hopcode h rfl rfl) fun h4 => ?_
  refine roundTrips_ite (fun h => roundTrips_of_encodeB hopcode h rfl rfl) fun h5 => ?_
  refine roundTrips_ite (fun h => roundTrips_of_encodeB hopcode h rfl rfl) fun h6 => ?_
  refine roundTrips_ite (fun h => roundTrips_of_encodeB hopcode h rfl rfl) fun h7 => ?_
  have hfunct3 := funct3_cases (funct3Of w)
  simp only [h0, h1, h4, h5, h6, h7, or_false, false_or] at hfunct3
  exact ⟨wf_otherBranch_iff.2 ⟨hopcode, List.mem_pair.2 hfunct3⟩, rfl⟩

theorem roundTrips_decodeLoad (hopcode : opcodeOf w = 0x03#7) : RoundTrips w (decodeLoad w) := by
  refine roundTrips_ite (fun h => roundTrips_of_encodeI hopcode h rfl rfl) fun h0 => ?_
  refine roundTrips_ite (fun h => roundTrips_of_encodeI hopcode h rfl rfl) fun h2 => ?_
  refine roundTrips_ite (fun h => roundTrips_of_encodeI hopcode h rfl rfl) fun h4 => ?_
  have hfunct3 := funct3_cases (funct3Of w)
  simp only [h0, h2, h4, false_or] at hfunct3
  exact ⟨wf_otherLoad_iff.2 ⟨hopcode, by simpa using hfunct3⟩, rfl⟩

theorem roundTrips_decodeStore (hopcode : opcodeOf w = 0x23#7) : RoundTrips w (decodeStore w) := by
  refine roundTrips_ite (fun h => roundTrips_of_encodeS hopcode h rfl rfl) fun h0 => ?_
  refine roundTrips_ite (fun h => roundTrips_of_encodeS hopcode h rfl rfl) fun h2 => ?_
  have hfunct3 := funct3_cases (funct3Of w)
  simp only [h0, h2, false_or] at hfunct3
  exact ⟨wf_otherStore_iff.2 ⟨hopcode, by simpa using hfunct3⟩, rfl⟩

theorem roundTrips_decodeOpImm (hopcode : opcodeOf w = 0x13#7) : RoundTrips w (decodeOpImm w) := by
  refine roundTrips_ite (fun h => roundTrips_of_encodeI hopcode h rfl rfl) fun h0 => ?_
  refine roundTrips_ite (fun h => roundTrips_of_encodeI hopcode h rfl rfl) fun h4 => ?_
  refine roundTrips_ite (fun h => roundTrips_of_encodeI hopcode h rfl rfl) fun h6 => ?_
  refine roundTrips_ite (fun h => roundTrips_of_encodeI hopcode h rfl rfl) fun h7 => ?_
  refine roundTrips_ite (fun h => roundTrips_of_encodeR hopcode h.1 h.2 rfl rfl) fun hslli => ?_
  refine roundTrips_ite (fun h => roundTrips_of_encodeR hopcode h.1 h.2 rfl rfl) fun hsrli => ?_
  refine roundTrips_ite (fun h => roundTrips_of_encodeR hopcode h.1 h.2 rfl rfl) fun hsrai => ?_
  have hfunct3 := funct3_cases (funct3Of w)
  simp only [h0, h4, h6, h7, or_false, false_or] at hfunct3
  refine ⟨wf_otherOpImm_iff.2 ⟨hopcode, ?_⟩, rfl⟩
  rcases hfunct3 with h1 | h2 | h3 | h5
  · exact .inr (.inl ⟨h1, fun h => hslli ⟨h1, h⟩⟩)
  · exact .inl (List.mem_pair.2 (.inl h2))
  · exact .inl (List.mem_pair.2 (.inr h3))
  · exact .inr (.inr ⟨h5, fun h => hsrli ⟨h5, h⟩, fun h => hsrai ⟨h5, h⟩⟩)

theorem roundTrips_decodeOp (hopcode : opcodeOf w = 0x33#7) : RoundTrips w (decodeOp w) := by
  refine roundTrips_ite (fun hzero => ?zero) fun hzero => ?other
  case zero =>
    refine roundTrips_ite (fun h => roundTrips_of_encodeR hopcode h hzero rfl rfl) fun h0 => ?_
    refine roundTrips_ite (fun h => roundTrips_of_encodeR hopcode h hzero rfl rfl) fun h1 => ?_
    refine roundTrips_ite (fun h => roundTrips_of_encodeR hopcode h hzero rfl rfl) fun h2 => ?_
    refine roundTrips_ite (fun h => roundTrips_of_encodeR hopcode h hzero rfl rfl) fun h3 => ?_
    refine roundTrips_ite (fun h => roundTrips_of_encodeR hopcode h hzero rfl rfl) fun h4 => ?_
    refine roundTrips_ite (fun h => roundTrips_of_encodeR hopcode h hzero rfl rfl) fun h5 => ?_
    refine roundTrips_ite (fun h => roundTrips_of_encodeR hopcode h hzero rfl rfl) fun h6 => ?_
    have hfunct3 := funct3_cases (funct3Of w)
    simp only [h0, h1, h2, h3, h4, h5, h6, false_or] at hfunct3
    exact roundTrips_of_encodeR hopcode hfunct3 hzero rfl rfl
  case other =>
    refine roundTrips_ite (fun h => roundTrips_of_encodeR hopcode h.2 h.1 rfl rfl) fun hsub => ?_
    refine roundTrips_ite (fun h => roundTrips_of_encodeR hopcode h.2 h.1 rfl rfl) fun hsra => ?_
    have hfunct3 (h7 : funct7Of w = 0x20#7) : funct3Of w ≠ 0#3 ∧ funct3Of w ≠ 5#3 :=
      ⟨fun h3 => hsub ⟨h7, h3⟩, fun h3 => hsra ⟨h7, h3⟩⟩
    exact ⟨wf_otherOp_iff.2 ⟨hopcode, hzero, hfunct3⟩, rfl⟩

theorem roundTrips_decode (w : Word) : RoundTrips w (decode w) := by
  by_cases h : opcodeOf w ∈ recognizedOpcodes
  · simp only [recognizedOpcodes, List.mem_cons, List.not_mem_nil, or_false] at h
    rcases h with h | h | h | h | h | h | h | h | h | h
    · rw [decode_of_opcode_lui h]
      exact roundTrips_of_encodeU h rfl rfl
    · rw [decode_of_opcode_auipc h]
      exact roundTrips_of_encodeU h rfl rfl
    · rw [decode_of_opcode_jal h]
      exact roundTrips_jal h
    · rw [decode_of_opcode_jalr h]
      exact roundTrips_ite (fun hfunct3 => roundTrips_of_encodeI h hfunct3 rfl rfl)
        fun hfunct3 => ⟨wf_otherJalr_iff.2 ⟨h, hfunct3⟩, rfl⟩
    · rw [decode_of_opcode_branch h]
      exact roundTrips_decodeBranch h
    · rw [decode_of_opcode_load h]
      exact roundTrips_decodeLoad h
    · rw [decode_of_opcode_store h]
      exact roundTrips_decodeStore h
    · rw [decode_of_opcode_opImm h]
      exact roundTrips_decodeOpImm h
    · rw [decode_of_opcode_op h]
      exact roundTrips_decodeOp h
    · rw [decode_of_opcode_system h]
      exact roundTrips_ite (fun hecall => ⟨rfl, hecall.symm⟩)
        fun hne => ⟨wf_otherSystem_iff.2 ⟨h, hne⟩, rfl⟩
  · rw [decode_of_opcode_unrecognized h]
    exact ⟨wf_anyOtherOpcode_iff.2 h, rfl⟩

@[simp] theorem encode_decode (w : Word) : encode (decode w) = w := by
  obtain ⟨-, hencode⟩ := roundTrips_decode w
  exact hencode

/-- Settles O2: branch by branch of the decoder the fields laid down again give the word, and a word that comes back from
its term is told by it. -/
theorem encodeOfDecode : Obligations.EncodeOfDecode :=
  ⟨roundTrips_decode, Function.LeftInverse.injective (g := encode) encode_decode⟩

/-! ## Classes of words (R118 to R120) -/

/-- A word decodes to a term exactly when it is the word of that term, and the term is well-formed. -/
theorem decode_eq_iff : decode w = i ↔ i.wf = true ∧ encode i = w := by
  constructor
  · rintro rfl
    exact roundTrips_decode w
  · rintro ⟨hwf, rfl⟩
    exact decodeOfEncode i hwf

/-- The anomaly words are those of four catch-alls, three of them UnknownFunct. -/
theorem classOf_decode_anomaly {kind : AnomalyKind} : classOf (decode w) = .anomaly kind ↔
    ((Instr.otherBranch w).wf = true ∧ .unknownFunct = kind) ∨ ((Instr.otherLoad w).wf = true ∧ .unknownFunct = kind)
      ∨ ((Instr.otherStore w).wf = true ∧ .unknownFunct = kind)
      ∨ ((Instr.anyOtherOpcode w).wf = true ∧ .unknownOpcode = kind) := by
  constructor
  · intro h
    obtain ⟨hwf, hword⟩ := roundTrips_decode w
    generalize decode w = i at h hwf hword
    cases i with
    | otherBranch v => cases h; cases hword; exact .inl ⟨hwf, rfl⟩
    | otherLoad v => cases h; cases hword; exact .inr (.inl ⟨hwf, rfl⟩)
    | otherStore v => cases h; cases hword; exact .inr (.inr (.inl ⟨hwf, rfl⟩))
    | anyOtherOpcode v => cases h; cases hword; exact .inr (.inr (.inr ⟨hwf, rfl⟩))
    | _ => cases h
  · rintro (⟨h, rfl⟩ | ⟨h, rfl⟩ | ⟨h, rfl⟩ | ⟨h, rfl⟩)
    · rw [decode_of_wf_otherBranch h]; rfl
    · rw [decode_of_wf_otherLoad h]; rfl
    · rw [decode_of_wf_otherStore h]; rfl
    · rw [decode_of_wf_anyOtherOpcode h]; rfl

/-- The unsettled words are those of four catch-alls, two of which tell the group by the word's fields. -/
theorem classOf_decode_unsettled {u : Unsettled} : classOf (decode w) = .unsettled u ↔
    ((Instr.otherJalr w).wf = true ∧ .u1 = u) ∨ ((Instr.otherOpImm w).wf = true ∧ unsettledOpImm w = u)
      ∨ ((Instr.otherOp w).wf = true ∧ unsettledOp w = u) ∨ ((Instr.otherSystem w).wf = true ∧ .u7 = u) := by
  constructor
  · intro h
    obtain ⟨hwf, hword⟩ := roundTrips_decode w
    generalize decode w = i at h hwf hword
    cases i with
    | otherJalr v => cases hword; exact .inl ⟨hwf, DecodeClass.unsettled.inj h⟩
    | otherOpImm v => cases hword; exact .inr (.inl ⟨hwf, DecodeClass.unsettled.inj h⟩)
    | otherOp v => cases hword; exact .inr (.inr (.inl ⟨hwf, DecodeClass.unsettled.inj h⟩))
    | otherSystem v => cases hword; exact .inr (.inr (.inr ⟨hwf, DecodeClass.unsettled.inj h⟩))
    | _ => cases h
  · rintro (⟨h, rfl⟩ | ⟨h, rfl⟩ | ⟨h, rfl⟩ | ⟨h, rfl⟩)
    · rw [decode_of_wf_otherJalr h]; rfl
    · rw [decode_of_wf_otherOpImm h]; rfl
    · rw [decode_of_wf_otherOp h]; rfl
    · rw [decode_of_wf_otherSystem h]; rfl

theorem unsettledOpImm_cases (w : Word) :
    (funct3Of w = 1#3 ∧ unsettledOpImm w = .u3) ∨ (funct3Of w = 5#3 ∧ unsettledOpImm w = .u4)
      ∨ (funct3Of w ≠ 1#3 ∧ funct3Of w ≠ 5#3 ∧ unsettledOpImm w = .u2) := by
  unfold unsettledOpImm
  split_ifs with h1 h5
  · exact .inl ⟨h1, rfl⟩
  · exact .inr (.inl ⟨h5, rfl⟩)
  · exact .inr (.inr ⟨h1, h5, rfl⟩)

theorem unsettledOp_cases (w : Word) :
    (funct7Of w = 0x20#7 ∧ unsettledOp w = .u5) ∨ (funct7Of w ≠ 0x20#7 ∧ unsettledOp w = .u6) := by
  unfold unsettledOp
  split_ifs with h
  · exact .inl ⟨h, rfl⟩
  · exact .inr ⟨h, rfl⟩

theorem unsettledOpImm_mem (w : Word) : unsettledOpImm w ∈ [Unsettled.u2, .u3, .u4] := by
  rcases unsettledOpImm_cases w with ⟨-, h⟩ | ⟨-, h⟩ | ⟨-, -, h⟩ <;> simp [h]

theorem unsettledOp_mem (w : Word) : unsettledOp w ∈ [Unsettled.u5, .u6] := by
  rcases unsettledOp_cases w with ⟨-, h⟩ | ⟨-, h⟩ <;> simp [h]

theorem classOf_decode_u1_iff : classOf (decode w) = .unsettled .u1 ↔ (Instr.otherJalr w).wf = true := by
  have hopImm : unsettledOpImm w ≠ .u1 := ne_of_mem_of_not_mem (unsettledOpImm_mem w) (by decide)
  have hop : unsettledOp w ≠ .u1 := ne_of_mem_of_not_mem (unsettledOp_mem w) (by decide)
  simp [classOf_decode_unsettled, hopImm, hop]

theorem opImm_groups_disjoint_op_groups : ∀ u ∈ [Unsettled.u2, .u3, .u4], u ∉ [Unsettled.u5, .u6] := by decide

theorem classOf_decode_opImm_iff {u : Unsettled} (hu : u ∈ [Unsettled.u2, .u3, .u4]) :
    classOf (decode w) = .unsettled u ↔ (Instr.otherOpImm w).wf = true ∧ unsettledOpImm w = u := by
  have hjalr : .u1 ≠ u := (ne_of_mem_of_not_mem hu (by decide)).symm
  have hop : unsettledOp w ≠ u := fun h => opImm_groups_disjoint_op_groups u hu (h ▸ unsettledOp_mem w)
  have hsystem : .u7 ≠ u := (ne_of_mem_of_not_mem hu (by decide)).symm
  simp only [classOf_decode_unsettled, hjalr, hop, hsystem, and_false, or_false, false_or]

theorem classOf_decode_op_iff {u : Unsettled} (hu : u ∈ [Unsettled.u5, .u6]) :
    classOf (decode w) = .unsettled u ↔ (Instr.otherOp w).wf = true ∧ unsettledOp w = u := by
  have hjalr : .u1 ≠ u := (ne_of_mem_of_not_mem hu (by decide)).symm
  have hopImm : unsettledOpImm w ≠ u := fun h => opImm_groups_disjoint_op_groups u (h ▸ unsettledOpImm_mem w) hu
  have hsystem : .u7 ≠ u := (ne_of_mem_of_not_mem hu (by decide)).symm
  simp only [classOf_decode_unsettled, hjalr, hopImm, hsystem, and_false, or_false, false_or]

theorem classOf_decode_u7_iff : classOf (decode w) = .unsettled .u7 ↔ (Instr.otherSystem w).wf = true := by
  have hopImm : unsettledOpImm w ≠ .u7 := ne_of_mem_of_not_mem (unsettledOpImm_mem w) (by decide)
  have hop : unsettledOp w ≠ .u7 := ne_of_mem_of_not_mem (unsettledOp_mem w) (by decide)
  simp [classOf_decode_unsettled, hopImm, hop]

/-- Settles O3: the class of a word is that of the catch-all it is a well-formed word of, and the fields tell which. -/
theorem unlistedWordsClassified : Obligations.UnlistedWordsClassified := by
  intro w
  refine ⟨?unknownOpcode, ?unknownFunct, ?u1, ?u2, ?u3, ?u4, ?u5, ?u6, ?u7⟩
  case unknownOpcode =>
    rw [classOf_decode_anomaly, wf_anyOtherOpcode_iff]
    simp only [reduceCtorEq, and_false, and_true, false_or]
    exact Iff.rfl
  case unknownFunct =>
    have hload : [1#3, 5#3, 3#3, 6#3, 7#3].Perm [1#3, 3#3, 5#3, 6#3, 7#3] := by decide
    rw [classOf_decode_anomaly, wf_otherBranch_iff, wf_otherLoad_iff, wf_otherStore_iff, hload.mem_iff]
    simp only [reduceCtorEq, and_false, and_true, or_false]
    exact Iff.rfl
  case u1 => exact classOf_decode_u1_iff.trans wf_otherJalr_iff
  case u2 =>
    rw [classOf_decode_opImm_iff (by decide), wf_otherOpImm_iff, and_assoc]
    refine and_congr Iff.rfl ?_
    change _ ↔ funct3Of w ∈ _
    rcases unsettledOpImm_cases w with ⟨h3, h⟩ | ⟨h3, h⟩ | ⟨h1, h5, h⟩ <;> simp [*]
  case u3 =>
    rw [classOf_decode_opImm_iff (by decide), wf_otherOpImm_iff, and_assoc]
    refine and_congr Iff.rfl ?_
    change _ ↔ funct3Of w = _ ∧ funct7Of w ≠ _
    rcases unsettledOpImm_cases w with ⟨h3, h⟩ | ⟨h3, h⟩ | ⟨h1, h5, h⟩ <;> simp [*]
  case u4 =>
    rw [classOf_decode_opImm_iff (by decide), wf_otherOpImm_iff, and_assoc]
    refine and_congr Iff.rfl ?_
    change _ ↔ funct3Of w = _ ∧ funct7Of w ∉ _
    rcases unsettledOpImm_cases w with ⟨h3, h⟩ | ⟨h3, h⟩ | ⟨h1, h5, h⟩ <;> simp [*]
  case u5 =>
    rw [classOf_decode_op_iff (by decide), wf_otherOp_iff, and_assoc]
    refine and_congr Iff.rfl ?_
    change _ ↔ funct7Of w = _ ∧ funct3Of w ∉ _
    rcases unsettledOp_cases w with ⟨h7, h⟩ | ⟨h7, h⟩ <;> simp [*]
  case u6 =>
    rw [classOf_decode_op_iff (by decide), wf_otherOp_iff, and_assoc]
    refine and_congr Iff.rfl ?_
    change _ ↔ funct7Of w ∉ _
    rcases unsettledOp_cases w with ⟨h7, h⟩ | ⟨h7, h⟩ <;> simp [*]
  case u7 => exact classOf_decode_u7_iff.trans wf_otherSystem_iff

/-! ## Words and bytes as they are written down (R72, R100) -/

/-- Settles O5: each word is the encoding of its instruction, laid out in its format. -/
theorem writtenWordsDecode : Obligations.WrittenWordsDecode :=
  ⟨decode_eq_iff.2 (by decide), decode_eq_iff.2 (by decide), decode_eq_iff.2 (by decide), decode_eq_iff.2 (by decide),
    decode_eq_iff.2 (by decide), decode_eq_iff.2 (by decide), decode_eq_iff.2 (by decide), decode_eq_iff.2 (by decide),
    decode_eq_iff.2 (by decide)⟩

/-- The bytes of a word decode as the word, and the bytes after them are left. -/
theorem decodeBytes_bytesOfWord (w : Word) (rest : List Byte) :
    decodeBytes (bytesOfWord w ++ rest) = .ok (decode w, rest) := by
  conv_rhs => rw [← wordOfBytes_bytes w]
  rfl

theorem decodeBytes_truncated : ∀ bs : List Byte, bs.length < 4 → decodeBytes bs = .error .truncated
  | [], _ | [_], _ | [_, _], _ | [_, _, _], _ => rfl
  | _ :: _ :: _ :: _ :: _, h => absurd h (by simp)

/-- Settles O6: four bytes decode as the word they are the bytes of, and a well-formed instruction's word decodes to it. -/
theorem bytesDecodeLittleEndian : Obligations.BytesDecodeLittleEndian := by
  refine ⟨fun i rest hwf => ?_, decodeBytes_bytesOfWord, decodeBytes_truncated⟩
  rw [encodeBytes, decodeBytes_bytesOfWord, decodeOfEncode i hwf]

end Sys2Proof.Machine
end

section
/-! PROOFS. JALR, the shifts and the unsettled words (41_upper_and_jumps.md, 44_op_imm.md, 45_op.md,
46_system_and_anomalies.md): how each ends, and the step that runs it. -/

namespace Sys2Proof.Machine

variable {w : Word} {s : State} {i : Instr} {u : Unsettled}

/-! ## JALR (R173) -/

theorem exec_jalr (rd rs1 : RegIdx) (imm : BitVec 12) (s : State) : exec (.jalr rd rs1 imm) s =
    if (((s.reg rs1).toNat : Int) + imm.toInt) % 2 = 1 then .refused .jalrOddTarget
    else linkAndJump rd (BitVec.ofInt 32 ((s.reg rs1).toNat + imm.toInt)) s := by
  rw [ofInt_add_toInt]
  exact if_congr (bit_zero_eq_parity _ _) rfl rfl

/-- Settles O29: funct3 decides between JALR and U1, and the parity of the sum between the jump and the refusal. -/
theorem jalrResult : Obligations.JalrResult := by
  refine ⟨encodedAs_jalr, ?otherWords, fun rd rs1 imm s => ⟨?even, ?odd⟩⟩
  case otherWords => exact fun w hopcode hfunct3 => classOf_decode_u1_iff.2 (wf_otherJalr_iff.2 ⟨hopcode, hfunct3⟩)
  case even =>
    intro heven
    rw [exec_jalr, if_neg (by omega)]
    obtain ⟨t, hnext, hwrites⟩ := linkAndJump_spec rd (BitVec.ofInt 32 ((s.reg rs1).toNat + imm.toInt)) s
    exact ⟨t, hnext, hwrites, nextFetchChecked t⟩
  case odd =>
    intro hodd
    rw [exec_jalr, if_pos hodd]

/-! ## Shifts (R235 to R237, R253, R257, R258) -/

theorem exec_slli (rd rs1 : RegIdx) (shamt : BitVec 5) (s : State) : exec (.slli rd rs1 shamt) s =
    writeBack rd (BitVec.ofNat 32 ((s.reg rs1).toNat * 2 ^ shamt.toNat)) s := by
  rw [← shiftLeft_eq]
  rfl

theorem exec_srli (rd rs1 : RegIdx) (shamt : BitVec 5) (s : State) : exec (.srli rd rs1 shamt) s =
    writeBack rd (BitVec.ofNat 32 ((s.reg rs1).toNat / 2 ^ shamt.toNat)) s := by
  rw [← shiftRight_eq]
  rfl

theorem exec_srai (rd rs1 : RegIdx) (shamt : BitVec 5) (s : State) : exec (.srai rd rs1 shamt) s =
    writeBack rd (BitVec.ofInt 32 ((s.reg rs1).toInt / 2 ^ shamt.toNat)) s := by
  rw [← sshiftRight_eq]
  rfl

theorem exec_sll (rd rs1 rs2 : RegIdx) (s : State) : exec (.sll rd rs1 rs2) s =
    writeBack rd (BitVec.ofNat 32 ((s.reg rs1).toNat * 2 ^ ((s.reg rs2).toNat % 32))) s := by
  rw [← shiftLeft_eq, ← shiftAmount_eq]
  rfl

theorem exec_srl (rd rs1 rs2 : RegIdx) (s : State) : exec (.srl rd rs1 rs2) s =
    writeBack rd (BitVec.ofNat 32 ((s.reg rs1).toNat / 2 ^ ((s.reg rs2).toNat % 32))) s := by
  rw [← shiftRight_eq, ← shiftAmount_eq]
  rfl

theorem exec_sra (rd rs1 rs2 : RegIdx) (s : State) : exec (.sra rd rs1 rs2) s =
    writeBack rd (BitVec.ofInt 32 ((s.reg rs1).toInt / 2 ^ ((s.reg rs2).toNat % 32))) s := by
  rw [← sshiftRight_eq, ← shiftAmount_eq]
  rfl

/-- Settles O36: funct3 and funct7 select the shift or the group, and each shift's end is a write-back of the rule's
value. -/
theorem shiftImmediateResults : Obligations.ShiftImmediateResults := by
  refine ⟨encodedAs_slli, encodedAs_srli, encodedAs_srai, fun w hopcode h3 h7 => ?_, fun w hopcode h3 h7 h7' => ?_,
    fun rd rs1 shamt s => ?_⟩
  · obtain ⟨-, -, -, -, hu3, -⟩ := unlistedWordsClassified w
    exact hu3.2 ⟨hopcode, h3, h7⟩
  · obtain ⟨-, -, -, -, -, hu4, -⟩ := unlistedWordsClassified w
    exact hu4.2 ⟨hopcode, h3, by simp [h7, h7']⟩
  · rw [exec_slli, exec_srli, exec_srai]
    exact ⟨writeBack_spec .., writeBack_spec .., writeBack_spec ..⟩

/-- Settles O38: funct3 and funct7 select the shift, and each one's end is a write-back of the rule's value. -/
theorem registerShiftResults : Obligations.RegisterShiftResults := by
  refine ⟨encodedAs_sll, encodedAs_srl, encodedAs_sra, fun rd rs1 rs2 s => ?_⟩
  rw [exec_sll, exec_srl, exec_sra]
  exact ⟨writeBack_spec .., writeBack_spec .., writeBack_spec ..⟩

/-! ## Unsettled words (R273) -/

theorem unsettledOpImm_of_excluded (h : funct3Of w ∈ [2#3, 3#3]) : unsettledOpImm w = .u2 := by
  rcases List.mem_pair.1 h with h | h <;> simp [unsettledOpImm, h]

theorem unsettledOpImm_of_one (h : funct3Of w = 1#3) : unsettledOpImm w = .u3 := if_pos h

theorem unsettledOpImm_of_five (h : funct3Of w = 5#3) : unsettledOpImm w = .u4 := by simp [unsettledOpImm, h]

theorem unsettledOp_of_sub (h : funct7Of w = 0x20#7) : unsettledOp w = .u5 := if_pos h

theorem unsettledOp_of_ne (h : funct7Of w ≠ 0x20#7) : unsettledOp w = .u6 := if_neg h

/-- Four terms are of an unsettled class, and each of them is refused under its group. -/
theorem exec_of_unsettled (h : classOf i = .unsettled u) (s : State) : exec i s = .refused (.unsettled u) := by
  cases i with
  | otherJalr w => cases h; rfl
  | otherOpImm w => obtain rfl := DecodeClass.unsettled.inj h; rfl
  | otherOp w => obtain rfl := DecodeClass.unsettled.inj h; rfl
  | otherSystem w => cases h; rfl
  | _ => cases h

theorem classOf_otherOpImm (h : unsettledOpImm w = u) : classOf (.otherOpImm w) = .unsettled u :=
  congrArg DecodeClass.unsettled h

theorem classOf_otherOp (h : unsettledOp w = u) : classOf (.otherOp w) = .unsettled u :=
  congrArg DecodeClass.unsettled h

/-- The step that runs an unsettled word is refused under its group. -/
theorem RunsNext.refused_of_unsettled (h : RunsNext s i) (hclass : classOf i = .unsettled u) :
    step s = .refused (.unsettled u) :=
  h.step_eq.trans (exec_of_unsettled hclass s)

/-- Settles O43: the class of a term tells the group, and a term of an unsettled class is refused under it. -/
theorem unsettledWordsRefused : Obligations.UnsettledWordsRefused := by
  refine ⟨fun w s => exec_of_unsettled rfl s,
    fun w s h => exec_of_unsettled (classOf_otherOpImm (unsettledOpImm_of_excluded h)) s,
    fun w s h => exec_of_unsettled (classOf_otherOpImm (unsettledOpImm_of_one h)) s,
    fun w s h => exec_of_unsettled (classOf_otherOpImm (unsettledOpImm_of_five h)) s,
    fun w s h => exec_of_unsettled (classOf_otherOp (unsettledOp_of_sub h)) s,
    fun w s h => exec_of_unsettled (classOf_otherOp (unsettledOp_of_ne h)) s, fun w s => exec_of_unsettled rfl s, ?_⟩
  intro w s u hrun haligned hfetch hclass
  have hstep := RunsNext.refused_of_unsettled ⟨hrun, haligned, w, hfetch, rfl⟩ hclass
  exact ⟨hstep, stepResult_of_refused hstep⟩

end Sys2Proof.Machine
end

section
/-! PROOFS. The step (40_step.md): what it runs, when it is refused, and what it leaves of the PC, the registers, memory and
the two records. -/

namespace Sys2Proof.Machine

variable {s t : State} {i : Instr} {w : Word}

/-! ## The ways into a step (R151 to R155) -/

/-- Settles O9: a halted block's step answers the same state, whose run state the result reports. -/
theorem haltedStepChangesNothing : Obligations.HaltedStepChangesNothing := by
  intro s hhalted
  have hstep := step_halted hhalted
  refine ⟨hstep, fun hclean => ?_, fun f hfault => ?_⟩
  · rw [stepResult_of_next hstep, hclean, resultOfRun]
  · rw [stepResult_of_next hstep, hfault, resultOfRun]

/-- Settles O10: the alignment is checked before the fetch. -/
theorem misalignedFetchRefused : Obligations.MisalignedFetchRefused := fun _ => step_misaligned

theorem bytesOfWord_getElem? (v : Word) {k : Nat} (hk : k < 4) : (bytesOfWord v)[k]? = some (v.extractLsb' (8 * k) 8) :=
  match k, hk with
  | 0, _ | 1, _ | 2, _ | 3, _ => rfl

/-- Settles O12: four bytes that can be read are a word read, and the word of a well-formed instruction decodes to it. -/
theorem stepRunsDecodedInstruction : Obligations.StepRunsDecodedInstruction := by
  refine ⟨fun s b0 b1 b2 b3 hrun haligned h0 h1 h2 h3 => ?_, fun s i hrun haligned hwf hbytes => ?_⟩
  · exact step_runs hrun haligned (routerReadWord_eq_some.2 ⟨b0, b1, b2, b3, h0, h1, h2, h3, rfl⟩)
  · have hfetch : routerReadWord s.pc s = some (encode i) := routerReadWord_of_bytes fun k hk =>
      (hbytes k hk).trans (bytesOfWord_getElem? _ hk)
    rw [step_runs hrun haligned hfetch, decodeOfEncode i hwf]

/-! ## Refusals (R160) -/

theorem exec_ne_fault (i : Instr) (s : State) (f : Fault) : exec i s ≠ .fault f := by
  intro h
  have hends := exec_ends i s
  rw [h] at hends
  cases hends

theorem step_ne_fault (s : State) (f : Fault) : step s ≠ .fault f := by
  rcases step_cases s with ⟨-, he⟩ | ⟨-, -, he⟩ | ⟨-, -, -, he⟩ | ⟨-, -, w, -, he⟩ <;> rw [he]
  · nofun
  · nofun
  · nofun
  · exact exec_ne_fault _ s f

/-- An instruction is refused exactly when it is unsettled, or a JALR with an odd target. -/
theorem exec_eq_refused_iff {r : Refusal} : exec i s = .refused r ↔
    (∃ u, classOf i = .unsettled u ∧ r = .unsettled u)
      ∨ (r = .jalrOddTarget ∧ ∃ rd rs1 imm, i = .jalr rd rs1 imm
          ∧ (((s.reg rs1).toNat : Int) + imm.toInt) % 2 = 1) := by
  constructor
  · intro h
    have hends := exec_ends i s
    rw [h] at hends
    cases hends with
    | oddTarget rd rs1 imm hi ho => exact .inr ⟨rfl, rd, rs1, imm, hi, ho⟩
    | unsettled u hc => exact .inl ⟨u, hc, rfl⟩
  · rintro (⟨u, hclass, rfl⟩ | ⟨rfl, rd, rs1, imm, rfl, hodd⟩)
    · exact exec_of_unsettled hclass s
    · rw [exec_jalr, if_pos hodd]

/-- Settles O14: of the ways a step goes, a misaligned PC is refused, and a fetched instruction when it is itself. -/
theorem stepRefusesExactly : Obligations.StepRefusesExactly := by
  refine ⟨step_ne_fault, fun s r => ⟨fun h => ?_, ?_⟩⟩
  · rcases step_cases s with ⟨-, he⟩ | ⟨hrun, hp, he⟩ | ⟨-, -, -, he⟩ | ⟨hrun, hp, w, hw, he⟩ <;> rw [he] at h
    · cases h
    · cases h
      exact ⟨hrun, .inl ⟨hp, rfl⟩⟩
    · cases h
    · exact ⟨hrun, .inr ⟨hp, w, hw, exec_eq_refused_iff.1 h⟩⟩
  · rintro ⟨hrun, ⟨hp, rfl⟩ | ⟨hp, w, hw, h⟩⟩
    · exact step_misaligned hrun hp
    · exact (step_runs hrun hp hw).trans (exec_eq_refused_iff.2 h)

/-! ## The PC (R37) -/

theorem controlTarget_of_anomaly {kind : AnomalyKind} (h : classOf i = .anomaly kind) (s : State) :
    controlTarget s i = none := by
  cases i with
  | otherBranch _ | otherLoad _ | otherStore _ | anyOtherOpcode _ => rfl
  | _ => cases h

/-- An instruction that leaves the block running goes to its control target, or on to the next word. -/
theorem ExecEnds.pc_of_running (h : ExecEnds i s (.next t)) (hrun : t.run = .running) :
    t.pc = (controlTarget s i).getD (s.pc + 4#32) := by
  cases h with
  | wrote => rfl
  | moved => rfl
  | loadFault => cases hrun
  | storedByte _ _ _ _ hi => rw [hi]; rfl
  | storedWord _ _ _ _ hi => rw [hi]; rfl
  | byteStoreFault => cases hrun
  | wordStoreFault => cases hrun
  | halted => cases hrun
  | skipped _ _ hc => rw [controlTarget_of_anomaly hc]; rfl

/-- Settles O15: a halting step leaves the PC alone, and one that runs on takes the control target of what it fetched. -/
theorem pcAfterStep : Obligations.PcAfterStep := by
  intro s t hrun hstep
  refine ⟨fun hhalt => ?_, fun hrunning => ?_⟩
  · obtain ⟨hpc, -⟩ := haltEntryChangesRunStateOnly s t hrun hstep hhalt
    exact hpc
  · rcases step_next_cases hstep with ⟨hhalted, -⟩ | ⟨-, -, -, rfl⟩ | ⟨-, -, w, hfetch, hends⟩
    · exact absurd hrun hhalted
    · cases hrunning
    · exact ⟨w, hfetch, by rw [ofNat_add_four, hends.pc_of_running hrunning]⟩

/-! ## The registers (R34) -/

theorem State.reg_setReg_of_ne {rd r : RegIdx} (h : r ≠ rd) (v : Word) (s : State) : (s.setReg rd v).reg r = s.reg r := by
  rw [State.reg_setReg, if_neg h]
  split
  · next hzero => rw [hzero, State.reg_zero]
  · rfl

theorem ExecEnds.reg_of_not_dest (h : ExecEnds i s (.next t)) {r : RegIdx} (hr : destOf i ≠ some r) :
    t.reg r = s.reg r := by
  cases h with
  | wrote rd v hd => exact State.reg_setReg_of_ne (fun he => hr (hd.trans (congrArg some he.symm))) v s
  | moved => rfl
  | loadFault => rfl
  | storedByte _ _ _ _ _ _ _ hsame => exact State.reg_congr hsame.regs r
  | storedWord _ _ _ _ _ _ _ hsame => exact State.reg_congr hsame.regs r
  | byteStoreFault => rfl
  | wordStoreFault _ _ _ _ _ _ _ _ _ hsame => exact State.reg_congr hsame.regs r
  | halted => rfl
  | skipped => rfl

/-- Settles O17: of the ways an instruction ends one alone writes a register, its own, and that one runs on. -/
theorem onlyRdIsWritten : Obligations.OnlyRdIsWritten := by
  intro i s t hexec
  have hends := exec_ends i s
  rw [hexec] at hends
  refine ⟨fun r hr => hends.reg_of_not_dest hr, fun hrun hhalt => ?_⟩
  rcases hends.halts hrun hhalt with ⟨-, -, hregs, -⟩ | ⟨-, -, -, -, -, -, -, hregs, -⟩
  · exact hregs
  · exact hregs

/-! ## Memory, the transmit stream and the configuration -/

theorem ExecEnds.config_eq (h : ExecEnds i s (.next t)) : t.config = s.config := by
  cases h with
  | wrote => simp
  | moved => rfl
  | loadFault => rfl
  | storedByte _ _ _ _ _ _ _ hsame => exact hsame.config
  | storedWord _ _ _ _ _ _ _ hsame => exact hsame.config
  | byteStoreFault => rfl
  | wordStoreFault _ _ _ _ _ _ _ _ _ hsame => exact hsame.config
  | halted => rfl
  | skipped => rfl

theorem ExecEnds.mem_tx_of_not_store (h : ExecEnds i s (.next t)) (hs : isStore i = false) :
    t.mem = s.mem ∧ t.tx = s.tx := by
  cases h with
  | wrote => simp
  | moved => exact ⟨rfl, rfl⟩
  | loadFault => exact ⟨rfl, rfl⟩
  | storedByte _ _ _ _ hi => subst hi; cases hs
  | storedWord _ _ _ _ hi => subst hi; cases hs
  | byteStoreFault => exact ⟨rfl, rfl⟩
  | wordStoreFault _ _ _ _ _ hi => subst hi; cases hs
  | halted => exact ⟨rfl, rfl⟩
  | skipped => exact ⟨rfl, rfl⟩

/-- Settles O19: no way a step goes changes the configuration, and only a store's changes memory or the stream. -/
theorem onlyStoresChangeMemory : Obligations.OnlyStoresChangeMemory := by
  intro s t hstep
  rcases step_next_cases hstep with ⟨-, rfl⟩ | ⟨-, -, -, rfl⟩ | ⟨-, -, w, hfetch, hends⟩
  · exact ⟨rfl, fun h => absurd h (by simp)⟩
  · exact ⟨rfl, fun h => absurd h (by simp)⟩
  · refine ⟨hends.config_eq, fun hchanged => ⟨w, hfetch, ?_⟩⟩
    by_contra hstore
    obtain ⟨hmem, htx⟩ := hends.mem_tx_of_not_store (Bool.eq_false_iff.2 hstore)
    exact hchanged.elim (· hmem) (· htx)

/-! ## One event a step (R307) -/

theorem length_eventsOf_le (s : State) (w : Word) : (eventsOf s w).length ≤ 1 := by
  unfold eventsOf
  split <;> simp

/-- Settles O22: a step that changes the run state halts, which records nothing, and a step records the fetched word's
events, at most one. -/
theorem oneEventPerStep : Obligations.OneEventPerStep := by
  intro s t hstep
  by_cases hrun : s.run = .running
  · obtain ⟨-, hrecords⟩ := diagRecordsEachAnomaly
    have hdiag := hrecords s t hrun hstep
    refine ⟨?_, ?_⟩
    · by_cases hrunning : t.run = .running
      · exact .inl (hrunning.trans hrun.symm)
      · obtain ⟨-, -, hsame, -⟩ := haltEntryChangesRunStateOnly s t hrun hstep hrunning
        exact .inr hsame
    · rw [hdiag, List.length_append]
      refine Nat.add_le_add_left ?_ _
      split
      · exact length_eventsOf_le s _
      · exact Nat.zero_le 1
  · obtain rfl := Host.Outcome.next.inj ((step_halted hrun).symm.trans hstep)
    exact ⟨.inl rfl, Nat.le_succ _⟩

end Sys2Proof.Machine
end

section
/-! PROOFS. Sources (10_state.md R34): two states alike but for the registers, and how each shared ending goes on from
both. -/

namespace Sys2Proof.Machine

/-- The two states are alike but for the registers. -/
structure SameButRegs (s s' : State) : Prop where
  pc : s'.pc = s.pc
  run : s'.run = s.run
  mem : s'.mem = s.mem
  tx : s'.tx = s.tx
  diag : s'.diag = s.diag
  config : s'.config = s.config

/-- Two ends are the same refusal, or states alike but for the registers, with the same value in the register written if the
block still runs. -/
inductive EndsAlike (dest : Option RegIdx) : Result → Result → Prop where
  | refused (reason : Refusal) : EndsAlike dest (.refused reason) (.refused reason)
  | next {t t' : State} (hsame : SameButRegs t t')
    (hdest : t.run = .running → ∀ r, dest = some r → t'.reg r = t.reg r) : EndsAlike dest (.next t) (.next t')

/-- Two write results are of one kind, with states alike but for the registers. -/
inductive WritesAlike : WriteResult → WriteResult → Prop where
  | ok {t t' : State} (hsame : SameButRegs t t') : WritesAlike (.ok t) (.ok t')
  | outOfRange {t t' : State} (hsame : SameButRegs t t') : WritesAlike (.outOfRange t) (.outOfRange t')

variable {s s' : State} {i : Instr} {rd rs1 rs2 : RegIdx} {v v' : Word}

/-! ## The shared endings from both states -/

theorem SameButRegs.setPc {npc npc' : Word} (h : SameButRegs s s') (hnpc : npc' = npc) :
    SameButRegs (s.setPc npc) (s'.setPc npc') :=
  ⟨hnpc, h.run, h.mem, h.tx, h.diag, h.config⟩

theorem SameButRegs.setRun {r r' : RunState} (h : SameButRegs s s') (hr : r' = r) :
    SameButRegs { s with run := r } { s' with run := r' } :=
  ⟨h.pc, hr, h.mem, h.tx, h.diag, h.config⟩

theorem SameButRegs.setReg (h : SameButRegs s s') (rd : RegIdx) (v v' : Word) :
    SameButRegs (s.setReg rd v) (s'.setReg rd v') := by
  constructor <;> simp [h.pc, h.run, h.mem, h.tx, h.diag, h.config]

theorem SameButRegs.pcNext (h : SameButRegs s s') : s'.pcNext = s.pcNext := congrArg (· + 4#32) h.pc

/-- The register written holds the same value in both ends (x0 holds 0). -/
theorem SameButRegs.wrote {npc npc' : Word} (h : SameButRegs s s') (hv : v' = v) (hnpc : npc' = npc) :
    EndsAlike (some rd) (.next ((s.setReg rd v).setPc npc)) (.next ((s'.setReg rd v').setPc npc')) := by
  refine .next ((h.setReg rd v v').setPc hnpc) fun _ r hr => ?_
  cases hr
  simp [State.reg_setReg, hv]

theorem SameButRegs.writeBack (h : SameButRegs s s') (hv : v' = v) :
    EndsAlike (some rd) (writeBack rd v s) (writeBack rd v' s') := by
  rw [writeBack_eq, writeBack_eq]
  exact h.wrote hv h.pcNext

theorem SameButRegs.linkAndJump (h : SameButRegs s s') (hv : v' = v) :
    EndsAlike (some rd) (linkAndJump rd v s) (linkAndJump rd v' s') :=
  h.wrote h.pcNext hv

theorem SameButRegs.advance (h : SameButRegs s s') : EndsAlike none (advance s) (advance s') :=
  .next (h.setPc h.pcNext) nofun

theorem SameButRegs.branchIf {c c' : Bool} {off : BitVec 13} (h : SameButRegs s s') (hc : c' = c) :
    EndsAlike none (branchIf c off s) (branchIf c' off s') := by
  subst hc
  cases c' with
  | true => exact .next (h.setPc (congrArg (· + immB off) h.pc)) nofun
  | false => exact h.advance

theorem SameButRegs.raiseFault {dest : Option RegIdx} {kind : FaultKind} (h : SameButRegs s s') (hv : v' = v) :
    EndsAlike dest (raiseFault kind v s) (raiseFault kind v' s') :=
  .next (h.setRun (by rw [h.pc, hv])) nofun

theorem SameButRegs.finishLoad {value value' : Option Word} (h : SameButRegs s s') (hv : v' = v)
    (hvalue : value' = value) : EndsAlike (some rd) (finishLoad rd v value s) (finishLoad rd v' value' s') := by
  subst hvalue
  cases value' with
  | some x => exact h.writeBack rfl
  | none => exact h.raiseFault hv

theorem SameButRegs.anomaly {kind : AnomalyKind} (h : SameButRegs s s') (w : Word) :
    EndsAlike none (anomaly kind w s) (anomaly kind w s') :=
  SameButRegs.advance ⟨h.pc, h.run, h.mem, h.tx, by rw [h.diag, h.pc], h.config⟩

/-! ## Stores from both states -/

theorem SameButRegs.routerWriteByte (h : SameButRegs s s') (a : Word) (b : Byte) :
    WritesAlike (routerWriteByte a b s) (routerWriteByte a b s') := by
  unfold Machine.routerWriteByte memoryWriteByte
  rw [h.config, h.mem]
  split_ifs
  · exact .ok ⟨h.pc, h.run, h.mem, congrArg (· ++ [b]) h.tx, h.diag, h.config⟩
  · exact .ok h
  · exact .ok ⟨h.pc, h.run, rfl, h.tx, h.diag, rfl⟩
  · exact .outOfRange h

theorem SameButRegs.writeBytes (h : SameButRegs s s') (cells : List (Word × Byte)) :
    WritesAlike (writeBytesBy Machine.routerWriteByte cells s) (writeBytesBy Machine.routerWriteByte cells s') := by
  induction cells generalizing s s' with
  | nil => exact .ok h
  | cons cell cells ih =>
    obtain ⟨a, b⟩ := cell
    have hfirst := h.routerWriteByte a b
    unfold writeBytesBy
    generalize Machine.routerWriteByte a b s = r at hfirst ⊢
    generalize Machine.routerWriteByte a b s' = r' at hfirst ⊢
    cases hfirst with
    | ok hsame => exact ih hsame
    | outOfRange hsame => exact .outOfRange hsame

theorem SameButRegs.routerWriteWord (h : SameButRegs s s') (a v : Word) :
    WritesAlike (routerWriteWord a v s) (routerWriteWord a v s') := by
  rw [routerWriteWord_eq, routerWriteWord_eq]
  exact h.writeBytes _

theorem WritesAlike.finishStore {r r' : WriteResult} (h : WritesAlike r r') (hv : v' = v) :
    EndsAlike none (finishStore v r) (finishStore v' r') := by
  cases h with
  | ok hsame => exact hsame.advance
  | outOfRange hsame => exact hsame.raiseFault hv

/-! ## Instructions by what they read -/

/-- From two states alike but for the registers, and alike in its sources, the instruction ends alike. -/
def ReadsOnlySources (i : Instr) : Prop :=
  ∀ s s' : State, SameButRegs s s' → (∀ r ∈ sourcesOf i, s'.reg r = s.reg r) →
    EndsAlike (destOf i) (exec i s) (exec i s')

theorem readsOnlySources_of_writeBack_one (f : Word → Word) (hdest : destOf i = some rd) (hsources : sourcesOf i = [rs1])
    (hexec : ∀ s, exec i s = writeBack rd (f (s.reg rs1)) s) : ReadsOnlySources i := by
  intro s s' h hregs
  rw [hexec, hexec, hdest]
  exact h.writeBack (congrArg f (hregs rs1 (by simp [hsources])))

theorem readsOnlySources_of_writeBack_two (f : Word → Word → Word) (hdest : destOf i = some rd)
    (hsources : sourcesOf i = [rs1, rs2]) (hexec : ∀ s, exec i s = writeBack rd (f (s.reg rs1) (s.reg rs2)) s) :
    ReadsOnlySources i := by
  intro s s' h hregs
  rw [hexec, hexec, hdest]
  exact h.writeBack (congrArg₂ f (hregs rs1 (by simp [hsources])) (hregs rs2 (by simp [hsources])))

theorem readsOnlySources_of_branchIf (c : Word → Word → Bool) (off : BitVec 13) (hdest : destOf i = none)
    (hsources : sourcesOf i = [rs1, rs2]) (hexec : ∀ s, exec i s = branchIf (c (s.reg rs1) (s.reg rs2)) off s) :
    ReadsOnlySources i := by
  intro s s' h hregs
  rw [hexec, hexec, hdest]
  exact h.branchIf (congrArg₂ c (hregs rs1 (by simp [hsources])) (hregs rs2 (by simp [hsources])))

theorem readsOnlySources_of_finishLoad (imm : BitVec 12) (read : Word → State → Option Word)
    (hread : ∀ {s s' : State}, SameButRegs s s' → ∀ a, read a s' = read a s) (hdest : destOf i = some rd)
    (hsources : sourcesOf i = [rs1])
    (hexec : ∀ s, exec i s = finishLoad rd (effectiveAddr rs1 imm s) (read (effectiveAddr rs1 imm s) s) s) :
    ReadsOnlySources i := by
  intro s s' h hregs
  have hea : effectiveAddr rs1 imm s' = effectiveAddr rs1 imm s :=
    congrArg (· + immI imm) (hregs rs1 (by simp [hsources]))
  rw [hexec, hexec, hdest, hea, hread h]
  exact h.finishLoad rfl rfl

theorem readsOnlySources_of_finishStore (imm : BitVec 12) (write : Word → Word → State → WriteResult)
    (hwrite : ∀ {s s' : State}, SameButRegs s s' → ∀ a v, WritesAlike (write a v s) (write a v s'))
    (hdest : destOf i = none) (hsources : sourcesOf i = [rs1, rs2])
    (hexec : ∀ s, exec i s = finishStore (effectiveAddr rs1 imm s) (write (effectiveAddr rs1 imm s) (s.reg rs2) s)) :
    ReadsOnlySources i := by
  intro s s' h hregs
  have hea : effectiveAddr rs1 imm s' = effectiveAddr rs1 imm s :=
    congrArg (· + immI imm) (hregs rs1 (by simp [hsources]))
  rw [hexec, hexec, hdest, hea, hregs rs2 (by simp [hsources])]
  exact (hwrite h _ _).finishStore rfl

theorem readsOnlySources_jalr (imm : BitVec 12) : ReadsOnlySources (.jalr rd rs1 imm) := by
  intro s s' h hregs
  rw [exec_jalr, exec_jalr, hregs rs1 (by simp [sourcesOf])]
  split
  · exact .refused _
  · exact h.linkAndJump rfl

theorem readsOnlySources_of_anomaly {kind : AnomalyKind} (hclass : classOf i = .anomaly kind) (hdest : destOf i = none) :
    ReadsOnlySources i := by
  intro s s' h _
  rw [exec_of_anomaly hclass, exec_of_anomaly hclass, hdest]
  exact h.anomaly _

theorem readsOnlySources_of_unsettled {u : Unsettled} (hclass : classOf i = .unsettled u) : ReadsOnlySources i := by
  intro s s' _ _
  rw [exec_of_unsettled hclass, exec_of_unsettled hclass]
  exact .refused _

theorem SameButRegs.readByte (h : SameButRegs s s') (a : Word) : routerReadByte a s' = routerReadByte a s :=
  routerReadByte_congr h.mem h.config a

theorem readsOnlySources (i : Instr) : ReadsOnlySources i := by
  cases i with
  | lui rd imm => exact fun s s' h _ => h.writeBack rfl
  | auipc rd imm => exact fun s s' h _ => h.writeBack (congrArg (· + immU imm) h.pc)
  | jal rd off => exact fun s s' h _ => h.linkAndJump (congrArg (· + immJ off) h.pc)
  | jalr rd rs1 imm => exact readsOnlySources_jalr imm
  | beq rs1 rs2 off => exact readsOnlySources_of_branchIf (· == ·) off rfl rfl fun _ => rfl
  | bne rs1 rs2 off => exact readsOnlySources_of_branchIf (· != ·) off rfl rfl fun _ => rfl
  | blt rs1 rs2 off => exact readsOnlySources_of_branchIf ltSigned off rfl rfl fun _ => rfl
  | bge rs1 rs2 off => exact readsOnlySources_of_branchIf (!ltSigned · ·) off rfl rfl fun _ => rfl
  | bltu rs1 rs2 off => exact readsOnlySources_of_branchIf ltUnsigned off rfl rfl fun _ => rfl
  | bgeu rs1 rs2 off => exact readsOnlySources_of_branchIf (!ltUnsigned · ·) off rfl rfl fun _ => rfl
  | lb rd rs1 imm =>
    exact readsOnlySources_of_finishLoad imm (fun a s => (routerReadByte a s).map sextByte)
      (fun h a => congrArg _ (h.readByte a)) rfl rfl fun _ => rfl
  | lbu rd rs1 imm =>
    exact readsOnlySources_of_finishLoad imm (fun a s => (routerReadByte a s).map zextByte)
      (fun h a => congrArg _ (h.readByte a)) rfl rfl fun _ => rfl
  | lw rd rs1 imm =>
    exact readsOnlySources_of_finishLoad imm routerReadWord (fun h => routerReadWord_congr h.mem h.config) rfl rfl
      fun _ => rfl
  | sb rs1 rs2 imm =>
    exact readsOnlySources_of_finishStore imm (fun a v => routerWriteByte a (byteOf v 0))
      (fun h a v => h.routerWriteByte a _) rfl rfl fun _ => rfl
  | sw rs1 rs2 imm =>
    exact readsOnlySources_of_finishStore imm routerWriteWord (fun h => h.routerWriteWord) rfl rfl fun _ => rfl
  | addi rd rs1 imm => exact readsOnlySources_of_writeBack_one (· + immI imm) rfl rfl fun _ => rfl
  | xori rd rs1 imm => exact readsOnlySources_of_writeBack_one (· ^^^ immI imm) rfl rfl fun _ => rfl
  | ori rd rs1 imm => exact readsOnlySources_of_writeBack_one (· ||| immI imm) rfl rfl fun _ => rfl
  | andi rd rs1 imm => exact readsOnlySources_of_writeBack_one (· &&& immI imm) rfl rfl fun _ => rfl
  | slli rd rs1 shamt => exact readsOnlySources_of_writeBack_one (· <<< shamt.toNat) rfl rfl fun _ => rfl
  | srli rd rs1 shamt => exact readsOnlySources_of_writeBack_one (· >>> shamt.toNat) rfl rfl fun _ => rfl
  | srai rd rs1 shamt => exact readsOnlySources_of_writeBack_one (·.sshiftRight shamt.toNat) rfl rfl fun _ => rfl
  | add rd rs1 rs2 => exact readsOnlySources_of_writeBack_two (· + ·) rfl rfl fun _ => rfl
  | sub rd rs1 rs2 => exact readsOnlySources_of_writeBack_two (· - ·) rfl rfl fun _ => rfl
  | sll rd rs1 rs2 => exact readsOnlySources_of_writeBack_two (fun a b => a <<< shiftAmount b) rfl rfl fun _ => rfl
  | slt rd rs1 rs2 => exact readsOnlySources_of_writeBack_two (fun a b => boolWord (ltSigned a b)) rfl rfl fun _ => rfl
  | sltu rd rs1 rs2 => exact readsOnlySources_of_writeBack_two (fun a b => boolWord (ltUnsigned a b)) rfl rfl fun _ => rfl
  | xor rd rs1 rs2 => exact readsOnlySources_of_writeBack_two (· ^^^ ·) rfl rfl fun _ => rfl
  | srl rd rs1 rs2 => exact readsOnlySources_of_writeBack_two (fun a b => a >>> shiftAmount b) rfl rfl fun _ => rfl
  | sra rd rs1 rs2 =>
    exact readsOnlySources_of_writeBack_two (fun a b => a.sshiftRight (shiftAmount b)) rfl rfl fun _ => rfl
  | or rd rs1 rs2 => exact readsOnlySources_of_writeBack_two (· ||| ·) rfl rfl fun _ => rfl
  | and rd rs1 rs2 => exact readsOnlySources_of_writeBack_two (· &&& ·) rfl rfl fun _ => rfl
  | ecall => exact fun s s' h _ => .next (h.setRun rfl) nofun
  | otherJalr w => exact readsOnlySources_of_unsettled rfl
  | otherBranch w => exact readsOnlySources_of_anomaly rfl rfl
  | otherLoad w => exact readsOnlySources_of_anomaly rfl rfl
  | otherStore w => exact readsOnlySources_of_anomaly rfl rfl
  | otherOpImm w => exact readsOnlySources_of_unsettled rfl
  | otherOp w => exact readsOnlySources_of_unsettled rfl
  | otherSystem w => exact readsOnlySources_of_unsettled rfl
  | anyOtherOpcode w => exact readsOnlySources_of_anomaly rfl rfl

/-- Settles O18: every instruction ends alike from two states alike in its sources and in all but the registers. -/
theorem onlySourcesAreRead : Obligations.OnlySourcesAreRead := by
  intro i s s' hrun hrun' hpc hmem htx hdiag hconfig hregs
  have hends := readsOnlySources i s s' ⟨hpc, hrun'.trans hrun.symm, hmem, htx, hdiag, hconfig⟩ hregs
  generalize exec i s = r at hends
  generalize exec i s' = r' at hends
  cases hends with
  | refused reason => exact ⟨fun _ h => h, nofun⟩
  | next hsame hdest =>
    refine ⟨nofun, ?_⟩
    rintro _ ⟨⟩
    exact ⟨_, rfl, hsame.pc, hsame.run, hsame.mem, hsame.tx, hsame.diag, hsame.config, hdest⟩

end Sys2Proof.Machine
end

section
/-! PROOFS. Loading (20_memory.md R71, 70_reset_and_hazards.md R340 to R344): the bulk load, the two kinds of image, and
what memory holds at the first step. -/

namespace Sys2Proof.Machine

variable {c : Config} {p : HostParams} {s : State} {m m' : Memory} {size base : Nat} {bytes : List Byte}

/-! ## The bulk load (R71) -/

theorem Memory.loadBytes_inside (m : Memory) (h : ∀ k, k < bytes.length → base + k < size) :
    m.loadBytes size base bytes = some (m.writeList base bytes) := by
  rw [Memory.loadBytes_eq, if_pos h]

theorem Memory.loadBytes_outside (m : Memory) (h : ∃ k, k < bytes.length ∧ size ≤ base + k) :
    m.loadBytes size base bytes = none := by
  obtain ⟨k, hk, hout⟩ := h
  rw [Memory.loadBytes_eq, if_neg fun hall => Nat.not_lt.2 hout (hall k hk)]

theorem Memory.read_writeList_of_getElem? (m : Memory) (base : Nat) {k : Nat} {b : Byte} (h : bytes[k]? = some b) :
    (m.writeList base bytes).read (base + k) = b := by
  obtain ⟨hk, -⟩ := List.getElem?_eq_some_iff.1 h
  rw [Memory.read_writeList, if_pos ⟨Nat.le_add_right .., by omega⟩, Nat.add_sub_cancel_left,
    List.getD_eq_getElem?_getD, h, Option.getD_some]

theorem Memory.read_writeList_outside (m : Memory) {a : Nat} (h : a < base ∨ base + bytes.length ≤ a) :
    (m.writeList base bytes).read a = m.read a := by
  rw [Memory.read_writeList, if_neg (by omega)]

/-- Settles O51: the load is a run of byte writes when every byte lands inside, and nothing otherwise. -/
theorem bulkLoadAllOrNothing : Obligations.BulkLoadAllOrNothing := by
  refine fun m size base bytes => ⟨m.loadBytes_outside, fun hinside => ?_⟩
  exact ⟨_, m.loadBytes_inside hinside, fun k b => m.read_writeList_of_getElem? base, fun a => m.read_writeList_outside⟩

/-! ## The machine an image gives (R340, R343, R344) -/

/-- The machine at its first step: construction, with the memory the loader left and the initial PC. -/
def started (c : Config) (p : HostParams) (img : Image) (m : Memory) : State :=
  { State.construct c with mem := m, pc := initialPc p img }

theorem boot_flat_of_some {bytes : List Byte} {base : Word}
    (h : Memory.loadBytes [] c.memSize base.toNat bytes = some m) :
    boot c p (.flat bytes base) = .next (started c p (.flat bytes base) m) := by
  rw [boot, h]
  rfl

theorem boot_flat_of_none {bytes : List Byte} {base : Word}
    (h : Memory.loadBytes [] c.memSize base.toNat bytes = none) :
    boot c p (.flat bytes base) = .fault .loadFailure := by
  rw [boot, h]
  rfl

theorem boot_elf_of_some {segments : List Segment} {entry : Word}
    (hapart : segmentsApart p.elfAddrField segments = true)
    (h : loadSegments p.elfAddrField c.memSize segments [] = some m) :
    boot c p (.elf segments entry) = .next (started c p (.elf segments entry) m) := by
  rw [boot, if_pos hapart, h]
  rfl

theorem boot_elf_of_none {segments : List Segment} {entry : Word}
    (hapart : segmentsApart p.elfAddrField segments = true)
    (h : loadSegments p.elfAddrField c.memSize segments [] = none) :
    boot c p (.elf segments entry) = .fault .loadFailure := by
  rw [boot, if_pos hapart, h]
  rfl

theorem boot_elf_of_overlap {segments : List Segment} {entry : Word}
    (hoverlap : ¬ segmentsApart p.elfAddrField segments = true) :
    boot c p (.elf segments entry) = .refused .overlappingSegments := by
  rw [boot, if_neg hoverlap]

/-- What the loader puts in the empty memory, if it succeeds. -/
def Image.memory (c : Config) (p : HostParams) : Image → Option Memory
  | .elf segments _ => loadSegments p.elfAddrField c.memSize segments []
  | .flat bytes base => Memory.loadBytes [] c.memSize base.toNat bytes
  | .unreadable => none

/-- A load that succeeds gives the machine started from what the loader put in memory. -/
theorem memory_of_boot {img : Image} (h : boot c p img = .next s) :
    ∃ m, img.memory c p = some m ∧ s = started c p img m := by
  cases img with
  | unreadable => cases h
  | flat bytes base =>
    cases hm : Memory.loadBytes [] c.memSize base.toNat bytes with
    | none => rw [boot_flat_of_none hm] at h; cases h
    | some m => rw [boot_flat_of_some hm] at h; cases h; exact ⟨m, hm, rfl⟩
  | elf segments entry =>
    by_cases hapart : segmentsApart p.elfAddrField segments = true
    · cases hm : loadSegments p.elfAddrField c.memSize segments [] with
      | none => rw [boot_elf_of_none hapart hm] at h; cases h
      | some m => rw [boot_elf_of_some hapart hm] at h; cases h; exact ⟨m, hm, rfl⟩
    · rw [boot_elf_of_overlap hapart] at h; cases h

/-! ## Flat images (R342) -/

/-- Settles O53: booting a flat image is the bulk load of its bytes at its base. -/
theorem flatImageLoads : Obligations.FlatImageLoads := by
  refine fun c p bytes base => ⟨fun houtside => boot_flat_of_none (Memory.loadBytes_outside [] houtside), fun hinside => ?_⟩
  exact ⟨_, boot_flat_of_some (Memory.loadBytes_inside [] hinside),
    fun k b => Memory.read_writeList_of_getElem? [] base.toNat⟩

/-! ## ELF images (R341) -/

variable {field : ElfAddrField}

/-- The addresses a segment writes: its file bytes and the zeros after them. -/
abbrev Segment.Covers (field : ElfAddrField) (g : Segment) (a : Nat) : Prop :=
  g.base field ≤ a ∧ a < g.base field + g.extent

/-- Segments that share no address each stand in memory as they are, whatever is loaded after them. -/
theorem read_loadSegments {segments : List Segment} {m m' : Memory}
    (hapart : segments.Pairwise fun g h => ∀ a, ¬ (g.Covers field a ∧ h.Covers field a))
    (hinside : ∀ g ∈ segments, ∀ k, k < g.extent → g.base field + k < size)
    (hload : loadSegments field size segments m = some m') :
    ∀ g ∈ segments, ∀ k, k < g.extent → m'.read (g.base field + k) = g.bytes.getD k 0#8 := by
  induction segments generalizing m with
  | nil => nofun
  | cons g segments ih =>
    obtain ⟨hfirst, hrest⟩ := List.pairwise_cons.1 hapart
    obtain ⟨hg, hinside⟩ := List.forall_mem_cons.1 hinside
    rw [loadSegments, loadSegment_eq, if_pos hg] at hload
    refine List.forall_mem_cons.2 ⟨fun k hk => ?_, ih hrest hinside hload⟩
    have hcovers : g.Covers field (g.base field + k) := ⟨Nat.le_add_right .., by omega⟩
    obtain ⟨m'', hload', hframe⟩ := loadSegments_eq_some field size segments _ hinside
    obtain rfl := Option.some.inj (hload'.symm.trans hload)
    rw [hframe _ fun h hh hcovers' => hfirst h hh _ ⟨hcovers, hcovers'⟩, read_segment, if_pos hcovers,
      Nat.add_sub_cancel_left]

/-- Settles O54: overlap is looked for first, a byte outside memory fails the load, and segments that share no address are
loaded side by side. -/
theorem elfImageLoads : Obligations.ElfImageLoads := by
  refine fun c p segments entry => ⟨fun hoverlap => ?_, fun hapart houtside => ?_, fun hapart hinside => ?_⟩
  · exact boot_elf_of_overlap (mt (segmentsApart_iff _ segments).1 hoverlap)
  · refine boot_elf_of_none ((segmentsApart_iff _ segments).2 hapart) (loadSegments_eq_none _ _ _ _ ?_)
    obtain ⟨g, hg, a, ⟨hlo, hhi⟩, ha⟩ := houtside
    exact ⟨g, hg, a - g.base p.elfAddrField, by omega, by rw [Nat.add_sub_cancel' hlo]; exact ha⟩
  · have hinside' : ∀ g ∈ segments, ∀ k, k < g.extent → g.base p.elfAddrField + k < c.memSize := fun g hg k hk =>
      hinside g hg _ ⟨Nat.le_add_right .., by omega⟩
    obtain ⟨m, hload, -⟩ := loadSegments_eq_some p.elfAddrField c.memSize segments [] hinside'
    exact ⟨_, boot_elf_of_some ((segmentsApart_iff _ segments).2 hapart) hload, read_loadSegments hapart hinside' hload⟩

/-! ## Every value at the first step (R48) -/

/-- Loaded segments leave every address that none of them covers at 0. -/
theorem read_loadSegments_outside {segments : List Segment} {a : Nat}
    (hload : loadSegments field size segments [] = some m)
    (ha : ∀ g ∈ segments, a < g.base field ∨ g.base field + g.extent ≤ a) : m.read a = 0#8 := by
  by_cases hinside : ∀ g ∈ segments, ∀ k, k < g.extent → g.base field + k < size
  · obtain ⟨m', hload', hframe⟩ := loadSegments_eq_some field size segments [] hinside
    obtain rfl := Option.some.inj (hload'.symm.trans hload)
    exact hframe a fun g hg hcovers => by have := ha g hg; omega
  · push Not at hinside
    rw [loadSegments_eq_none field size segments [] hinside] at hload
    cases hload

theorem read_loadBytes_outside {a : Nat} (hload : Memory.loadBytes [] size base bytes = some m)
    (ha : a < base ∨ base + bytes.length ≤ a) : m.read a = 0#8 := by
  rw [Memory.loadBytes_eq] at hload
  split at hload
  · obtain rfl := Option.some.inj hload
    exact Memory.read_writeList_outside [] ha
  · cases hload

/-- Settles O8: construction's values, and those of a machine started from an image, which differ in memory and the PC
alone. -/
theorem constructionValues : Obligations.ConstructionValues := by
  refine ⟨fun c => ?_, fun c p img s hboot => ?_⟩
  · exact ⟨fun i => State.reg_construct i c, rfl, fun a hram => routerReadByte_ram hram, Memory.read_nil, rfl, rfl, rfl⟩
  · obtain ⟨m, hmemory, rfl⟩ := memory_of_boot hboot
    refine ⟨fun i => State.reg_construct i c, rfl, rfl, rfl, rfl, rfl, fun a ha => ?_⟩
    cases img with
    | elf segments entry => exact read_loadSegments_outside hmemory ha
    | flat bytes base => exact read_loadBytes_outside hmemory ha
    | unreadable => cases hmemory

end Sys2Proof.Machine
end

section
/-! PROOFS. Invariants (10_state.md): the form of the state, the diagnostic list and the fault record, each held at the first
step or kept by every step. -/

namespace Sys2Proof.Machine

variable {s t : State} {i : Instr} {w : Word}

/-! ## The form of the state (R10, R31, R43) -/

theorem State.wf_iff (s : State) : s.wf ↔ s.regs[0] = 0#32 ∧ MemOk s ∧ s.config.legal := by
  simp only [State.wf, MemOk, and_assoc]

/-- No end of an instruction reaches slot 0 (R31). -/
theorem ExecEnds.slot_zero (h : ExecEnds i s (.next t)) : t.regs[0] = s.regs[0] := by
  cases h with
  | wrote => simp
  | moved => rfl
  | loadFault => rfl
  | storedByte _ _ _ u _ _ _ hsame => exact congrArg (·[0]) hsame.regs
  | storedWord _ _ _ u _ _ _ hsame => exact congrArg (·[0]) hsame.regs
  | byteStoreFault => rfl
  | wordStoreFault _ _ _ u _ _ _ _ _ hsame => exact congrArg (·[0]) hsame.regs
  | halted => rfl
  | skipped => rfl

/-- Only the stores touch memory, and every write of the router keeps its form. -/
theorem ExecEnds.memOk (h : ExecEnds i s (.next t)) (hm : MemOk s) : MemOk t := by
  cases h with
  | wrote => simpa [MemOk] using hm
  | moved => exact hm
  | loadFault => exact hm
  | storedByte _ _ _ u _ he => exact (memOk_routerWriteByte hm (.inl he) : MemOk u)
  | storedWord _ _ _ u _ he => exact (memOk_routerWriteWord hm (.inl he) : MemOk u)
  | byteStoreFault => exact hm
  | wordStoreFault _ _ _ u _ _ _ he => exact (memOk_routerWriteWord hm (.inr he) : MemOk u)
  | halted => exact hm
  | skipped => exact hm

theorem ExecEnds.wf (h : ExecEnds i s (.next t)) (hwf : s.wf) : t.wf := by
  rw [State.wf_iff] at hwf ⊢
  obtain ⟨hzero, hmem, hlegal⟩ := hwf
  exact ⟨h.slot_zero.trans hzero, h.memOk hmem, h.config_eq ▸ hlegal⟩

/-- Settles O24: a step that fetches nothing changes the run state at most, and every instruction's end keeps the form. -/
theorem stepKeepsWellFormed : Obligations.StepKeepsWellFormed := by
  intro s t hwf hstep
  rcases step_next_cases hstep with ⟨-, rfl⟩ | ⟨-, -, -, rfl⟩ | ⟨-, -, w, -, hends⟩
  · exact hwf
  · exact hwf
  · exact hends.wf hwf

theorem wf_started {c : Config} (p : HostParams) (img : Image) {m : Memory} (hc : c.legal) (hm : m.wf)
    (hbounds : ∀ cell ∈ m, cell.1 < c.memSize) : (started c p img m).wf :=
  ⟨by simp [started, State.construct], hm, hbounds, hc⟩

theorem Image.memory_wf {c : Config} {p : HostParams} {img : Image} {m : Memory} (h : img.memory c p = some m) :
    m.wf ∧ ∀ cell ∈ m, cell.1 < c.memSize := by
  have hempty : Memory.wf [] := ⟨.nil, nofun⟩
  cases img with
  | elf segments entry => exact wf_loadSegments _ _ segments hempty nofun h
  | flat bytes base => exact Memory.wf_loadBytes _ hempty nofun h
  | unreadable => cases h

/-- Settles O23: construction's empty memory is in form, and loading keeps the form. -/
theorem resetIsWellFormed : Obligations.ResetIsWellFormed := by
  refine ⟨rfl, ?_, fun c p img s hlegal hboot => ?_⟩
  · exact ⟨by simp [State.reset, State.construct], ⟨.nil, nofun⟩, nofun, by decide⟩
  · obtain ⟨m, hmemory, rfl⟩ := memory_of_boot hboot
    obtain ⟨hwf, hbounds⟩ := Image.memory_wf hmemory
    exact wf_started p img hlegal hwf hbounds

/-! ## The diagnostic list (R46) -/

theorem eventsOf_sound {e : DiagEvent} (haligned : s.pc.toNat % 4 = 0) (he : e ∈ eventsOf s w) :
    e.pc.toNat % 4 = 0 ∧ classOf (decode e.word) = .anomaly e.kind := by
  unfold eventsOf at he
  split at he
  · next kind hclass =>
    obtain rfl := List.mem_singleton.1 he
    exact ⟨haligned, hclass⟩
  · cases he

/-- Settles O25: a step adds the events of the word fetched at its aligned PC, or none. -/
theorem stepKeepsDiagSound : Obligations.StepKeepsDiagSound := by
  intro s t hsound hstep
  rcases step_next_cases hstep with ⟨-, rfl⟩ | ⟨-, -, -, rfl⟩ | ⟨-, haligned, w, -, hends⟩
  · exact hsound
  · exact hsound
  · intro e he
    rw [hends.diag_eq, List.mem_append] at he
    exact he.elim (hsound e) (eventsOf_sound haligned)

/-! ## The fault record (R42) -/

/-- A fault of an instruction records its own address, keeps the PC and is not a FetchFault. -/
theorem ExecEnds.faultRecord {f : FaultRecord} (h : ExecEnds i s (.next t)) (hrun : s.run = .running)
    (hfault : t.run = .haltedFault f) : f.pc = s.pc ∧ t.pc = s.pc ∧ f.kind ≠ .fetchFault := by
  have running (hr : t.run = .running) : f.pc = s.pc ∧ t.pc = s.pc ∧ f.kind ≠ .fetchFault := by
    rw [hr] at hfault
    cases hfault
  cases h with
  | wrote => exact running (by simpa using hrun)
  | moved => exact running hrun
  | loadFault => cases hfault; exact ⟨rfl, rfl, nofun⟩
  | storedByte _ _ _ _ _ _ _ hsame => exact running (hsame.run.trans hrun)
  | storedWord _ _ _ _ _ _ _ hsame => exact running (hsame.run.trans hrun)
  | byteStoreFault => cases hfault; exact ⟨rfl, rfl, nofun⟩
  | wordStoreFault _ _ _ _ _ _ _ _ _ hsame => cases hfault; exact ⟨rfl, hsame.pc, nofun⟩
  | halted => cases hfault
  | skipped => exact running hrun

/-- Settles O26: a halted block keeps its record, a FetchFault names the PC it stands at, and an instruction's fault the
instruction's. -/
theorem stepKeepsFaultRecordSound : Obligations.StepKeepsFaultRecordSound := by
  intro s t hsound hstep
  rcases step_next_cases hstep with ⟨-, rfl⟩ | ⟨-, haligned, -, rfl⟩ | ⟨hrun, haligned, w, -, hends⟩
  · exact hsound
  · rintro f ⟨⟩
    exact ⟨rfl, haligned, fun _ => rfl⟩
  · intro f hfault
    obtain ⟨hfpc, hpc, hkind⟩ := hends.faultRecord hrun hfault
    exact ⟨hfpc.trans hpc.symm, hpc ▸ haligned, fun h => absurd h hkind⟩

end Sys2Proof.Machine
end

section
/-! PROOFS. Words in memory (20_memory.md): the word read and the word write as four byte accesses, and what reads and
fetches see after a write. -/

namespace Sys2Proof.Machine

variable {s t : State} {a v : Word} {b : Byte}

/-! ## Word accesses as byte accesses (R67 to R69) -/

/-- Settles O45: a word that was read has four bytes, and four bytes that are read make the word. -/
theorem routerReadsWord : Obligations.RouterReadsWord := by
  refine fun a s => ⟨?_, fun b0 b1 b2 b3 h0 h1 h2 h3 => routerReadWord_eq_some.2 ⟨b0, b1, b2, b3, h0, h1, h2, h3, rfl⟩⟩
  rintro ⟨k, hk, hnone⟩
  cases hword : routerReadWord a s with
  | none => rfl
  | some v =>
    have hbyte := routerReadByte_of_word hword hk
    rw [hnone] at hbyte
    cases hbyte

section WriteBytes

variable {write : Word → Byte → State → WriteResult} {rest : List (Word × Byte)}

theorem writeBytesBy_cons_ok (h : write a b s = .ok t) :
    writeBytesBy write ((a, b) :: rest) s = writeBytesBy write rest t := by
  simp only [writeBytesBy, h]

theorem writeBytesBy_cons_outOfRange (h : write a b s = .outOfRange t) :
    writeBytesBy write ((a, b) :: rest) s = .outOfRange t := by
  simp only [writeBytesBy, h]

theorem writeBytesBy_singleton : writeBytesBy write [(a, b)] s = write a b s := by
  cases h : write a b s with
  | ok t => exact writeBytesBy_cons_ok h
  | outOfRange t => exact writeBytesBy_cons_outOfRange h

end WriteBytes

/-- Settles O47: the word write takes the byte-wise path, whose first failing byte ends it. -/
theorem wordStoreIsBytewise : Obligations.WordStoreIsBytewise := by
  intro a v s
  rw [routerWriteWord_eq, wordCells_eq, nth_zero]
  cases h0 : routerWriteByte a (v.extractLsb' 0 8) s with
  | outOfRange t0 => exact writeBytesBy_cons_outOfRange h0
  | ok t0 =>
    refine (writeBytesBy_cons_ok h0).trans ?_
    dsimp only
    cases h1 : routerWriteByte (nth a 1) (v.extractLsb' 8 8) t0 with
    | outOfRange t1 => exact writeBytesBy_cons_outOfRange h1
    | ok t1 =>
      refine (writeBytesBy_cons_ok h1).trans ?_
      dsimp only
      cases h2 : routerWriteByte (nth a 2) (v.extractLsb' 16 8) t1 with
      | outOfRange t2 => exact writeBytesBy_cons_outOfRange h2
      | ok t2 => exact (writeBytesBy_cons_ok h2).trans writeBytesBy_singleton

/-! ## RAM under the window (R63) -/

theorem routerWriteByte_ram (b : Byte) (h : Ram s a) :
    routerWriteByte a b s = .ok { s with mem := s.mem.write a.toNat b } := by
  rw [routerWriteByte_not_window b h.1, memoryWriteByte_inside b h.2]

/-- Settles O50: the window reads by the address alone, and the one write that reaches the array is to RAM outside it. -/
theorem windowShadowsRam : Obligations.WindowShadowsRam := by
  refine ⟨fun a s m hwindow => ?_, fun a b s n hlo hhi => ?_⟩
  · rw [routerReadByte_window hwindow, routerReadByte_window hwindow]
  · rcases routerWriteByte_cases a b s with ⟨-, he⟩ | ⟨-, -, he⟩ | ⟨hram, -, he⟩ | ⟨-, -, he⟩
    · exact ⟨_, .inl he, rfl⟩
    · exact ⟨_, .inl he, rfl⟩
    · refine ⟨_, .inl he, ?_⟩
      have hne : n ≠ a.toNat := fun h => hram.1 ⟨h ▸ hlo, h ▸ hhi⟩
      rw [Memory.read_write, if_neg hne]
    · exact ⟨_, .inr he, rfl⟩

/-! ## Reads after a write (R73) -/

/-- A byte read after a byte write to RAM: the byte written at its address, and every other address as before. -/
theorem routerReadByte_write_ram (h : Ram s a) (b : Byte) (x : Word) :
    routerReadByte x { s with mem := s.mem.write a.toNat b } = if x = a then some b else routerReadByte x s := by
  by_cases hx : x = a
  · subst hx
    rw [if_pos rfl, routerReadByte_ram (s := { s with mem := s.mem.write x.toNat b }) h, Memory.read_write, if_pos rfl]
  · rw [if_neg hx]
    by_cases hw : Window x
    · rw [routerReadByte_window hw, routerReadByte_window hw]
    · have hne : x.toNat ≠ a.toNat := fun he => hx (BitVec.eq_of_toNat_eq he)
      rw [routerReadByte_not_window hw, routerReadByte_not_window hw]
      simp only [memoryReadByte, Memory.read_write, if_neg hne]

theorem routerReadWord_of_ram (h : ∀ j, j < 4 → Ram s (nth a j)) : ∃ v, routerReadWord a s = some v :=
  Option.isSome_iff_exists.1 (routerReadWord_isSome.2 fun j hj => .inr (h j hj).2)

/-- Settles O48: a byte write changes the one byte of a word read that has its address, and a word write's bytes read
back. -/
theorem mixedWidthAccessesAgree : Obligations.MixedWidthAccessesAgree := by
  refine ⟨fun s a b k v hk hram hread => ?_, fun s a v hram => ?_⟩
  · generalize hbase : a - BitVec.ofNat 32 k = base at hram hread ⊢
    obtain rfl : nth base k = a := by rw [nth, ← hbase, BitVec.sub_add_cancel]
    obtain ⟨v', hv'⟩ := routerReadWord_of_ram (s := { s with mem := s.mem.write (nth base k).toNat b }) hram
    have hbyte : ∀ j, j < 4 → some (v'.extractLsb' (8 * j) 8) = if j = k then some b else some (v.extractLsb' (8 * j) 8) :=
      fun j hj => by
        rw [← routerReadByte_of_word hv' hj, ← routerReadByte_of_word hread hj, routerReadByte_write_ram (hram k hk)]
        simp only [nth_inj hj hk]
    refine ⟨_, v', routerWriteByte_ram b (hram k hk), hv', ?_, fun j hj hne => ?_⟩
    · simpa using hbyte k hk
    · simpa [hne] using hbyte j hj
  · obtain ⟨t, hwrite, ⟨-, hstored, -⟩, -⟩ := writeBytes_all (v := v) fun j hj => .inr (hram j hj).2
    have hbytes : ∀ k, k < 4 → routerReadByte (nth a k) t = some (v.extractLsb' (8 * k) 8) := fun k hk =>
      hstored k hk (hram k hk).1
    exact ⟨t, (routerWriteWord_eq a v s).trans hwrite, routerReadWord_of_bytes hbytes, hbytes⟩

/-! ## Fetches after a store (R83) -/

/-- SB or SW, with the number of bytes it stores. -/
def StoresBytes (i : Instr) (rs1 rs2 : RegIdx) (imm : BitVec 12) (n : Nat) : Prop :=
  (i = .sb rs1 rs2 imm ∧ n = 1) ∨ (i = .sw rs1 rs2 imm ∧ n = 4)

/-- A store whose bytes are all mapped stores them all. -/
theorem storedBytes_of_exec {i : Instr} {rs1 rs2 : RegIdx} {imm : BitVec 12} {n : Nat}
    (hstore : StoresBytes i rs1 rs2 imm n) (hmapped : ∀ j, j < n → Mapped s (nth (effectiveAddr rs1 imm s) j))
    (hexec : exec i s = .next t) : StoredBytes (effectiveAddr rs1 imm s) (s.reg rs2) n s t := by
  rcases hstore with ⟨rfl, rfl⟩ | ⟨rfl, rfl⟩
  · obtain ⟨u, hu, -, -, -, hstored⟩ := exec_sb_mapped rs2 (nth_zero (a := effectiveAddr rs1 imm s) ▸ hmapped 0 (by omega))
    cases hu.symm.trans hexec
    exact hstored
  · obtain ⟨u, hu, -, -, -, hstored⟩ := exec_sw_mapped rs2 hmapped
    cases hu.symm.trans hexec
    exact hstored

/-- Settles O49: the fetched word's bytes are read from RAM, where the store's bytes read back and the others as before. -/
theorem fetchSeesEarlierStore : Obligations.FetchSeesEarlierStore := by
  intro i n rs1 rs2 imm s t u ea hstore hea hmapped hexec hmem hconfig hrun haligned hram
  obtain rfl := eq_effectiveAddr hea
  obtain ⟨hother, hstored, -, -, -, -, hconfig'⟩ := storedBytes_of_exec hstore hmapped hexec
  have hram' : ∀ k, k < 4 → Ram u (nth u.pc k) := fun k hk => by
    simpa only [Ram, hconfig, hconfig'] using ram_nth haligned hram hk
  obtain ⟨w, hfetch⟩ := routerReadWord_of_ram hram'
  refine ⟨w, step_runs hrun haligned hfetch, fun k hk => ?_⟩
  have hbyte : routerReadByte (nth u.pc k) t = some (w.extractLsb' (8 * k) 8) :=
    (routerReadByte_congr hmem hconfig _).symm.trans (routerReadByte_of_word hfetch hk)
  refine ⟨fun j hj he => ?_, fun hne => (hother _ hne).symm.trans hbyte⟩
  have hback := hstored j hj (he ▸ (hram' k hk).1)
  rw [← he, hbyte] at hback
  exact Option.some.inj hback

end Sys2Proof.Machine
end

section
/-! PROOFS. The run loop (70_reset_and_hazards.md R347, R348): its end as the end of the same number of steps, and the calls
it makes. -/

namespace Sys2Proof.Machine

variable {s t : State} {n : Nat}

/-! ## The loop, one step at a time -/

theorem runLoop_halted (h : s.run ≠ .running) : runLoop n s = endOf s := by
  cases n with
  | zero => rfl
  | succ n => exact if_neg h

theorem runLoop_next (hrun : s.run = .running) (hstep : step s = .next t) : runLoop (n + 1) s = runLoop n t := by
  simp only [runLoop, if_pos hrun, hstep]

theorem runLoop_refused {r : Refusal} (hrun : s.run = .running) (hstep : step s = .refused r) :
    runLoop (n + 1) s = .refused r := by
  simp only [runLoop, if_pos hrun, hstep]

theorem callsMade_halted (h : s.run ≠ .running) : callsMade n s = 0 := by
  cases n with
  | zero => rfl
  | succ n => exact if_neg h

theorem callsMade_next (hrun : s.run = .running) (hstep : step s = .next t) :
    callsMade (n + 1) s = callsMade n t + 1 := by
  simp only [callsMade, if_pos hrun, hstep]

theorem callsMade_refused {r : Refusal} (hrun : s.run = .running) (hstep : step s = .refused r) :
    callsMade (n + 1) s = 1 := by
  simp only [callsMade, if_pos hrun, hstep]

/-! ## The host's steps, one after the other -/

theorem run_next (hstep : step s = .next t) :
    Host.Core.run Sys2Proof.core (n + 1) s = Host.Core.run Sys2Proof.core n t := by
  refine (run_succ n s).trans ?_
  rw [show Sys2Proof.core.step s = .next t from hstep]

theorem run_refused {r : Refusal} (hstep : step s = .refused r) :
    Host.Core.run Sys2Proof.core (n + 1) s = .refused r := by
  refine (run_succ n s).trans ?_
  rw [show Sys2Proof.core.step s = .refused r from hstep]

theorem run_halted (h : s.run ≠ .running) : Host.Core.run Sys2Proof.core n s = .next s := by
  induction n with
  | zero => rfl
  | succ n ih => exact (run_next (step_halted h)).trans ih

/-- What is left of the budget goes on from a step's next state; a halted block and a refusal end the run at once. -/
theorem runLoop_induction {P : Nat → State → Prop} (zero : ∀ s, P 0 s) (halted : ∀ n s, s.run ≠ .running → P (n + 1) s)
    (next : ∀ n s t, s.run = .running → step s = .next t → P n t → P (n + 1) s)
    (refused : ∀ n s r, s.run = .running → step s = .refused r → P (n + 1) s) (n : Nat) (s : State) : P n s := by
  induction n generalizing s with
  | zero => exact zero s
  | succ n ih =>
    by_cases hrun : s.run = .running
    · cases hstep : step s with
      | next t => exact next n s t hrun hstep (ih t)
      | refused r => exact refused n s r hrun hstep
      | fault f => exact absurd hstep (step_ne_fault s f)
    · exact halted n s hrun

/-! ## The loop against the steps -/

/-- How the loop ends when the same number of steps answers `r` (R348). -/
def endOfResult : Result → RunEnd
  | .next t => endOf t
  | .refused r => .refused r
  | .fault f => .notStarted f

theorem runLoop_eq_endOfResult (n : Nat) (s : State) : runLoop n s = endOfResult (Host.Core.run Sys2Proof.core n s) := by
  induction n, s using runLoop_induction with
  | zero s => rfl
  | halted n s h => rw [runLoop_halted h, run_halted h]; rfl
  | next n s t hrun hstep ih => rw [runLoop_next hrun hstep, run_next hstep, ih]
  | refused n s r hrun hstep => rw [runLoop_refused hrun hstep, run_refused hstep]; rfl

theorem run_ne_fault (n : Nat) (s : State) (f : Fault) : Host.Core.run Sys2Proof.core n s ≠ .fault f := by
  induction n, s using runLoop_induction with
  | zero s => nofun
  | halted n s h => rw [run_halted h]; nofun
  | next n s t hrun hstep ih => rwa [run_next hstep]
  | refused n s r hrun hstep => rw [run_refused hstep]; nofun

theorem callsMade_le (n : Nat) (s : State) : callsMade n s ≤ n := by
  induction n, s using runLoop_induction with
  | zero s => exact Nat.le_refl 0
  | halted n s h => rw [callsMade_halted h]; exact Nat.zero_le _
  | next n s t hrun hstep ih => rw [callsMade_next hrun hstep]; exact Nat.succ_le_succ ih
  | refused n s r hrun hstep => rw [callsMade_refused hrun hstep]; exact Nat.le_add_left 1 n

theorem endOf_eq_outOfBudget (h : endOf s = .outOfBudget t) : s = t ∧ t.run = .running := by
  unfold endOf at h
  split at h
  · next hrun => cases h; exact ⟨rfl, hrun⟩
  · cases h
  · cases h

theorem callsMade_of_outOfBudget (n : Nat) (s : State) (h : runLoop n s = .outOfBudget t) :
    callsMade n s = n ∧ t.run = .running := by
  induction n, s using runLoop_induction with
  | zero s => exact ⟨rfl, (endOf_eq_outOfBudget h).2⟩
  | halted n s hhalted =>
    obtain ⟨rfl, hrun⟩ := endOf_eq_outOfBudget ((runLoop_halted hhalted).symm.trans h)
    exact absurd hrun hhalted
  | next n s u hrun hstep ih =>
    obtain ⟨hcalls, hrunning⟩ := ih ((runLoop_next hrun hstep).symm.trans h)
    exact ⟨by rw [callsMade_next hrun hstep, hcalls], hrunning⟩
  | refused n s r hrun hstep => cases (runLoop_refused hrun hstep).symm.trans h

/-- Settles O55, by induction on the budget: a halted block's steps leave it alone, so the loop may stop there. -/
theorem runLoopMatchesSteps : Obligations.RunLoopMatchesSteps := by
  refine fun n s => ⟨fun t h => ?_, fun r h => ?_, run_ne_fault n s, callsMade_le n s,
    fun t => callsMade_of_outOfBudget n s⟩
  · rw [runLoop_eq_endOfResult, h]; rfl
  · rw [runLoop_eq_endOfResult, h]; rfl

end Sys2Proof.Machine
end

section
/-! PROOFS. Pseudo-instructions (30_encoding.md R126): the two-instruction expansions that form a 32-bit value. -/

namespace Sys2Proof.Machine

variable {s t : State} {i : Instr} {rd : RegIdx} {v v' npc : Word}

/-! ## One instruction after the other -/

theorem execAll_cons_next {rest : List Instr} (h : exec i s = .next t) : execAll (i :: rest) s = execAll rest t := by
  simp only [execAll, h]

theorem execAll_singleton (i : Instr) (s : State) : execAll [i] s = exec i s := by
  cases h : exec i s <;> simp only [execAll, h]

/-- A value written to x0 is of no account (R31). -/
theorem WritesOnly.congr_value (h : WritesOnly rd v npc s t) (hv : rd ≠ 0#5 → v = v') : WritesOnly rd v' npc s t := by
  obtain ⟨hpc, hregs, hrest⟩ := h
  refine ⟨hpc, fun i => ?_, hrest⟩
  rw [hregs]
  split_ifs with hzero hrd
  · rfl
  · exact hv (hrd ▸ hzero)
  · rfl

theorem WritesOnly.pc_eq (h : WritesOnly rd v npc s t) : t.pc = npc := h.1

/-- The register written reads back, unless it is x0. -/
theorem WritesOnly.reg_eq (h : WritesOnly rd v npc s t) (hne : rd ≠ 0#5) : t.reg rd = v := by
  obtain ⟨-, hregs, -⟩ := h
  rw [hregs, if_neg hne, if_pos rfl]

/-! ## A value formed in two instructions -/

theorem pc_add_four_add_four (pc : Word) : pc + 4#32 + 4#32 = pc + 8#32 := BitVec.add_assoc pc 4#32 4#32

/-- An upper part written to `rd`, and ADDI's lower part added to it there. -/
theorem execAll_upper_addi (lo : BitVec 12) (s : State) (h : exec i s = writeBack rd v s) :
    ∃ t, execAll [i, .addi rd rd lo] s = .next t ∧ WritesOnly rd (v + immI lo) (s.pc + 8) s t := by
  obtain ⟨t, hfirst, hupper⟩ := writeBack_spec rd v s
  obtain ⟨u, hsecond, hlower⟩ := writeBack_spec rd (t.reg rd + immI lo) t
  have hrun : execAll [i, .addi rd rd lo] s = .next u := by
    rw [execAll_cons_next (h.trans hfirst), execAll_singleton]
    exact hsecond
  have hpc : t.pc + 4#32 = s.pc + 8#32 := by rw [hupper.pc_eq, pc_add_four_add_four]
  rw [hpc] at hlower
  exact ⟨u, hrun, (hupper.trans hlower).congr_value fun hne => by rw [hupper.reg_eq hne]⟩

theorem lo12_eq_ofInt (imm : Word) : lo12 imm = BitVec.ofInt 12 imm.toInt := by
  rw [lo12, ← BitVec.setWidth_eq_extractLsb' (by omega), ← BitVec.signExtend_eq_setWidth_of_le imm (by omega)]
  rfl

/-- A value in ADDI's range is its own low twelve bits, sign-extended. -/
theorem immI_lo12 {imm : Word} (hlo : -2048 ≤ imm.toInt) (hhi : imm.toInt ≤ 2047) : immI (lo12 imm) = imm := by
  apply BitVec.eq_of_toInt_eq
  rw [lo12_eq_ofInt, toInt_immI_ofInt hlo hhi]

/-- Settles O56: a value in ADDI's range is written at once, and any other as its upper part and the rest. -/
theorem loadImmediateExpansion : Obligations.LoadImmediateExpansion := by
  intro rd imm s
  by_cases hsmall : -2048 ≤ imm.toInt ∧ imm.toInt ≤ 2047
  · rw [expand, if_pos hsmall, execAll_singleton]
    have hexec : exec (.addi rd 0 (lo12 imm)) s = writeBack rd imm s := by
      show writeBack rd (s.reg 0#5 + immI (lo12 imm)) s = _
      rw [State.reg_zero, BitVec.zero_add, immI_lo12 hsmall.1 hsmall.2]
    rw [hexec]
    exact writeBack_spec rd imm s
  · rw [expand, if_neg hsmall]
    obtain ⟨t, hrun, hwrites⟩ := execAll_upper_addi (rd := rd) (i := .lui rd (hi20 imm)) (lo12 imm) s rfl
    rw [hi20_add_lo12] at hwrites
    exact ⟨t, hrun, hwrites⟩

/-! ## PC-relative addresses -/

theorem jalr_parity (a : Word) (imm : BitVec 12) :
    ((a.toNat : Int) + imm.toInt) % 2 = 1 ↔ (a + immI imm).toNat % 2 = 1 := by
  rw [← bit_zero_eq_parity, ← BitVec.toNat_inj]
  simp [BitVec.extractLsb'_toNat]

theorem toNat_add_mod_two (a b : Word) : (a + b).toNat % 2 = (a.toNat + b.toNat) % 2 := by
  rw [BitVec.toNat_add]
  omega

/-- Settles O57: the two halves add up to the distance; `call` then ends as JALR at that target. -/
theorem pcRelativeExpansions : Obligations.PcRelativeExpansions := by
  intro delta s
  obtain ⟨t, hfirst, hupper⟩ := writeBack_spec 1#5 (s.pc + immU (hi20 delta)) s
  have htarget : t.reg 1#5 + immI (lo12 delta) = s.pc + delta := by
    rw [hupper.reg_eq (by decide), BitVec.add_assoc, hi20_add_lo12]
  have hauipc : exec (.auipc 1#5 (hi20 delta)) s = .next t := hfirst
  have hcall : execAll (expand (.call delta)) s = exec (.jalr 1#5 1#5 (lo12 delta)) t :=
    (execAll_cons_next hauipc).trans (execAll_singleton _ _)
  have hparity : ((t.reg 1#5).toNat + (lo12 delta).toInt) % 2 = 1 ↔ (s.pc.toNat + delta.toNat) % 2 = 1 := by
    rw [jalr_parity, htarget, toNat_add_mod_two]
  refine ⟨fun heven => ?_, fun hodd => ?_, fun rd => ?_⟩
  · have hjalr : exec (.jalr 1#5 1#5 (lo12 delta)) t = linkAndJump 1#5 (s.pc + delta) t := by
      rw [exec_jalr, if_neg (by rw [hparity]; omega), ofInt_add_toInt]
      exact congrArg (linkAndJump 1#5 · t) htarget
    obtain ⟨u, hsecond, hjump⟩ := linkAndJump_spec 1#5 (s.pc + delta) t
    rw [hupper.pc_eq, pc_add_four_add_four] at hjump
    exact ⟨u, (hcall.trans hjalr).trans hsecond, hupper.trans hjump⟩
  · rw [hcall, exec_jalr, if_pos (hparity.2 hodd)]
  · obtain ⟨t, hrun, hwrites⟩ := execAll_upper_addi (rd := rd) (i := .auipc rd (hi20 delta)) (lo12 delta) s rfl
    rw [BitVec.add_assoc, hi20_add_lo12] at hwrites
    exact ⟨t, hrun, hwrites⟩

end Sys2Proof.Machine
end

section
/-! PROOFS. The step result (40_step.md R161): what the step that runs each class of instruction reports. -/

namespace Sys2Proof.Machine

variable {s : State} {i : Instr} {rd rs1 rs2 : RegIdx} {imm : BitVec 12}

/-! ## Instructions that complete -/

/-- The instruction answers a next state and leaves the run state alone. -/
def Completes (i : Instr) (s : State) : Prop := ∃ t, exec i s = .next t ∧ t.run = s.run

theorem RunsNext.continues_of_completes (h : RunsNext s i) (hi : Completes i s) : stepResult s = .continue := by
  obtain ⟨t, hexec, hrun⟩ := hi
  exact h.continues hexec hrun

theorem completes_of_writeBack {v : Word} (h : exec i s = writeBack rd v s) : Completes i s := by
  rw [writeBack_eq] at h
  exact ⟨_, h, by simp⟩

theorem completes_of_linkAndJump {v : Word} (h : exec i s = linkAndJump rd v s) : Completes i s := by
  rw [linkAndJump_eq] at h
  exact ⟨_, h, by simp⟩

theorem completes_of_branchIf {c : Bool} {off : BitVec 13} (h : exec i s = branchIf c off s) : Completes i s := by
  cases c with
  | true => exact ⟨_, h, rfl⟩
  | false => exact ⟨_, h, rfl⟩

/-! ## Accesses (R210) -/

/-- What the loads and stores report, by their kind of fault. -/
def ReportsAccess (s : State) (i : Instr) (kind : FaultKind) : Prop :=
  ((∀ a ∈ accessed s i, Mapped s a) → stepResult s = .continue)
    ∧ ((∃ a ∈ accessed s i, ¬ Mapped s a) → stepResult s = .fault kind)

/-- An instruction that accesses one byte reports by that byte. -/
theorem reportsAccess_of_byte {kind : FaultKind} {ea : Word} (haccessed : accessed s i = [ea])
    (hreports : (Mapped s ea → stepResult s = .continue) ∧ (¬ Mapped s ea → stepResult s = .fault kind)) :
    ReportsAccess s i kind := by
  simpa only [ReportsAccess, haccessed, List.mem_singleton, forall_eq, exists_eq_left] using hreports

/-- An instruction that accesses four bytes reports by all of them. -/
theorem reportsAccess_of_word {kind : FaultKind} {ea : Word} (haccessed : accessed s i = (List.range 4).map (nth ea))
    (hreports : ((∀ k, k < 4 → Mapped s (nth ea k)) → stepResult s = .continue)
      ∧ ((∃ k, k < 4 ∧ ¬ Mapped s (nth ea k)) → stepResult s = .fault kind)) : ReportsAccess s i kind := by
  simpa only [ReportsAccess, haccessed, List.mem_map, List.mem_range, exists_exists_and_eq_and, forall_exists_index,
    and_imp, forall_apply_eq_imp_iff₂] using hreports

theorem RunsNext.reportsAccess_lb (h : RunsNext s (.lb rd rs1 imm)) : ReportsAccess s (.lb rd rs1 imm) .loadFault := by
  obtain ⟨-, -, hresults⟩ := loadByteResults
  obtain ⟨-, -, hreports⟩ := hresults rd rs1 imm s _ rfl
  exact reportsAccess_of_byte rfl (hreports (.inl h))

theorem RunsNext.reportsAccess_lbu (h : RunsNext s (.lbu rd rs1 imm)) :
    ReportsAccess s (.lbu rd rs1 imm) .loadFault := by
  obtain ⟨-, -, hresults⟩ := loadByteResults
  obtain ⟨-, -, hreports⟩ := hresults rd rs1 imm s _ rfl
  exact reportsAccess_of_byte rfl (hreports (.inr h))

theorem RunsNext.reportsAccess_lw (h : RunsNext s (.lw rd rs1 imm)) : ReportsAccess s (.lw rd rs1 imm) .loadFault := by
  obtain ⟨-, hresults⟩ := loadWordResult
  obtain ⟨-, -, hreports⟩ := hresults rd rs1 imm s _ rfl
  exact reportsAccess_of_word rfl (hreports h)

theorem RunsNext.reportsAccess_sb (h : RunsNext s (.sb rs1 rs2 imm)) :
    ReportsAccess s (.sb rs1 rs2 imm) .storeFault := by
  obtain ⟨-, hresults⟩ := storeByteResult
  obtain ⟨-, -, hreports⟩ := hresults rs1 rs2 imm s _ rfl
  exact reportsAccess_of_byte rfl (hreports h)

theorem RunsNext.reportsAccess_sw (h : RunsNext s (.sw rs1 rs2 imm)) :
    ReportsAccess s (.sw rs1 rs2 imm) .storeFault := by
  obtain ⟨-, hresults⟩ := storeWordResult
  obtain ⟨-, -, hreports⟩ := hresults rs1 rs2 imm s _ rfl
  exact reportsAccess_of_word rfl (hreports h)

/-- An instruction that reaches an unmapped byte is one of the five that access memory. -/
theorem RunsNext.faults_of_unmapped (h : RunsNext s i) (hunmapped : ∃ a ∈ accessed s i, ¬ Mapped s a) :
    stepResult s = .fault (if isStore i then .storeFault else .loadFault) := by
  cases i with
  | lb rd rs1 imm => exact h.reportsAccess_lb.2 hunmapped
  | lbu rd rs1 imm => exact h.reportsAccess_lbu.2 hunmapped
  | lw rd rs1 imm => exact h.reportsAccess_lw.2 hunmapped
  | sb rs1 rs2 imm => exact h.reportsAccess_sb.2 hunmapped
  | sw rs1 rs2 imm => exact h.reportsAccess_sw.2 hunmapped
  | _ =>
    obtain ⟨a, ha, -⟩ := hunmapped
    cases ha

/-! ## Every instruction -/

/-- An instruction whose bytes are all mapped, and whose target is even if it is JALR, goes on. -/
theorem RunsNext.continues_of_instr (h : RunsNext s i) (hclass : classOf i = .instr)
    (hmapped : ∀ a ∈ accessed s i, Mapped s a)
    (heven : ∀ rd rs1 imm, i = .jalr rd rs1 imm → (((s.reg rs1).toNat : Int) + imm.toInt) % 2 = 0) :
    stepResult s = .continue := by
  cases i with
  | lb rd rs1 imm => exact h.reportsAccess_lb.1 hmapped
  | lbu rd rs1 imm => exact h.reportsAccess_lbu.1 hmapped
  | lw rd rs1 imm => exact h.reportsAccess_lw.1 hmapped
  | sb rs1 rs2 imm => exact h.reportsAccess_sb.1 hmapped
  | sw rs1 rs2 imm => exact h.reportsAccess_sw.1 hmapped
  | jal rd off => exact h.continues_of_completes (completes_of_linkAndJump rfl)
  | jalr rd rs1 imm =>
    have hodd : ¬ (((s.reg rs1).toNat : Int) + imm.toInt) % 2 = 1 := by
      rw [heven rd rs1 imm rfl]
      decide
    exact h.continues_of_completes (completes_of_linkAndJump ((exec_jalr rd rs1 imm s).trans (if_neg hodd)))
  | beq rs1 rs2 off | bne rs1 rs2 off | blt rs1 rs2 off | bge rs1 rs2 off | bltu rs1 rs2 off | bgeu rs1 rs2 off =>
    exact h.continues_of_completes (completes_of_branchIf rfl)
  | lui _ _ | auipc _ _ | addi _ _ _ | xori _ _ _ | ori _ _ _ | andi _ _ _ | slli _ _ _ | srli _ _ _ | srai _ _ _
  | add _ _ _ | sub _ _ _ | sll _ _ _ | slt _ _ _ | sltu _ _ _ | xor _ _ _ | srl _ _ _ | sra _ _ _ | or _ _ _
  | and _ _ _ =>
    exact h.continues_of_completes (completes_of_writeBack rfl)
  | _ => cases hclass

/-- ECALL alone is of the halting class. -/
theorem eq_ecall_of_halt (h : classOf i = .halt) : i = .ecall := by
  cases i with
  | ecall => rfl
  | _ => cases h

/-- Settles O58: by the class of the instruction that runs, and for the accesses by the results of loads and stores. -/
theorem stepReportsHowItEnds : Obligations.StepReportsHowItEnds := by
  refine ⟨fun s i h => ⟨h.continues_of_instr, h.faults_of_unmapped, ?jalr, ?halt, ?anomaly, ?unsettled⟩,
    fun s hrun => ⟨fun hmisaligned => ?misaligned, fun haligned hunmapped => ?fetchFault⟩⟩
  case jalr =>
    rintro rd rs1 imm rfl hodd
    exact stepResult_of_refused (h.step_eq.trans ((exec_jalr rd rs1 imm s).trans (if_pos hodd)))
  case halt =>
    intro hclass
    obtain rfl := eq_ecall_of_halt hclass
    exact h.haltsClean
  case anomaly => exact fun kind hclass => h.continues_of_anomaly hclass
  case unsettled => exact fun u hclass => stepResult_of_refused (h.refused_of_unsettled hclass)
  case misaligned => exact stepResult_of_refused (step_misaligned hrun hmisaligned)
  case fetchFault =>
    obtain ⟨-, hreport⟩ := fetchFaultHalts s hrun haligned hunmapped
    exact hreport

end Sys2Proof.Machine
end

section
/-! PROOFS. Placing a word (log 10): the state the host places a table word in, and what it runs next. -/

namespace Sys2Proof.Machine

variable {s : State}

/-- The decoder reads from a table row the word of its low bits (R72, R100). -/
theorem decodeTableWord_eq (nbits w : Nat) :
    decodeTableWord nbits w = some (decode (BitVec.ofNat 32 (w % 2 ^ nbits))) := by
  have hbytes := decodeBytes_bytesOfWord (BitVec.ofNat 32 (w % 2 ^ nbits)) []
  rw [List.append_nil] at hbytes
  rw [decodeTableWord, hbytes]

/-- The PC made ready is the given one, or 0, which is RAM of every configuration that has any. -/
theorem readyToFetch_pc_fetchable (s : State) (hram : 1 ≤ s.config.memSizeMib) :
    (readyToFetch s).pc.toNat % 4 = 0 ∧ Ram (readyToFetch s) (readyToFetch s).pc := by
  by_cases h : fetchesRam s = true
  · rw [readyToFetch_pc, if_pos h]
    exact (fetchesRam_iff s).1 h
  · rw [readyToFetch_pc, if_neg h]
    exact ⟨rfl, by decide, show 0 < s.config.memSizeMib * 1048576 by omega⟩

/-- A word placed in a state that is ready is decoded and run there. -/
theorem step_placeWord (w : Word) (hrun : s.run = .running) (haligned : s.pc.toNat % 4 = 0) (hram : Ram s s.pc) :
    step (placeWord w s) = exec (decode w) (placeWord w s) :=
  step_runs hrun haligned (fetch_placeWord w haligned hram)

/-- Placing a word writes the four bytes at the PC and no other. -/
theorem placeWord_mem_read (w : Word) {m : Nat} (h : ∀ k, k < 4 → m ≠ s.pc.toNat + k) :
    (placeWord w s).mem.read m = s.mem.read m := by
  refine Memory.read_writeList_outside s.mem ?_
  by_contra hinside
  have hlength : (bytesOfWord w).length = 4 := rfl
  exact h (m - s.pc.toNat) (by omega) (by omega)

/-- Settles O13: the state is made ready, keeping a PC that can be fetched from RAM, and the word placed there is what the
fetch reads. -/
theorem placedWordRunsNext : Obligations.PlacedWordRunsNext := by
  intro s nbits w hmem _
  obtain ⟨haligned, hram⟩ := readyToFetch_pc_fetchable s hmem
  refine ⟨_, decodeTableWord_eq nbits w, step_placeWord _ rfl haligned hram, fun _ => rfl, rfl, rfl, rfl, rfl,
    fun hpc hpcRam => ?_, fun m hm => placeWord_mem_read _ hm⟩
  exact if_pos ((fetchesRam_iff s).2 ⟨hpc, hpcRam⟩)

end Sys2Proof.Machine
end
